-- ==== Sys2Proof/Word.lean ====
section
/-! DEFINITION. The bit vectors of the RSCF core: bytes, bus words, bus addresses and channel offsets (00_scope.md R8,
20_memory.md R60, R62). Every value of the core is unsigned (R8), and `BitVec` arithmetic wraps at its width. -/

namespace Sys2Proof

/-- A byte: a key, table, frame, ciphertext or plaintext byte (20_memory.md R71). -/
abbrev Byte := BitVec 8

/-- A 32-bit bus word (20_memory.md R60); also a command word (30_encoding.md R90). -/
abbrev Word := BitVec 32

/-- A 21-bit byte address of the host bus (20_memory.md R60). -/
abbrev Addr := BitVec 21

/-- An offset within one channel's half of the address space, `a[19:0]` (20_memory.md R62). -/
abbrev Offset := BitVec 20

end Sys2Proof
end

