-- ==== Sys2Proof/Syntax.lean ====
section
/-! DEFINITION. The commands of the RSCF core, one constructor per row of spec/opcode_table.json (30_encoding.md R93).
A command's only operand is the data byte D (R91, R92); its type leaves no ill-formed command. -/

namespace Sys2Proof

/-- A command: what a legal 32-bit word written to CMD stands for (00_scope.md R10, 30_encoding.md R93). -/
inductive Instr where
  /-- NOP, OP 0x0 (42_connection.md R170). -/
  | nop
  /-- CINIT, OP 0x1 (40_cipher.md R114). -/
  | cinit
  /-- KSTEP, OP 0x2 (40_cipher.md R115). -/
  | kstep
  /-- KRUN, OP 0x3 (40_cipher.md R116). -/
  | krun
  /-- DEC d, OP 0x4 (40_cipher.md R117). -/
  | dec (d : Byte)
  /-- DECF d, OP 0x5 (42_connection.md R171). -/
  | decf (d : Byte)
  /-- FEED d, OP 0x6 (41_frame.md R145). -/
  | feed (d : Byte)
  /-- FRST, OP 0x7 (41_frame.md R146). -/
  | frst
  /-- FACK, OP 0x8 (41_frame.md R147). -/
  | fack
  /-- CONN, OP 0x9 (42_connection.md R172). -/
  | conn
  /-- CLOSE, OP 0xA (42_connection.md R173). -/
  | close
deriving DecidableEq, Repr

end Sys2Proof
end

