-- ==== Sys2Proof/Decode.lean ====
section
/-! DEFINITION. Decoding a command word (30_encoding.md R91 to R96), total and rejecting by name, and after it the encoder.
The words of every constructor are written out from the spec in Sys2Proof/Tests/Slice0.lean. -/

namespace Sys2Proof

/-- Why a command word is illegal (30_encoding.md R94 (a), (b), (c)). -/
inductive IllegalWord where
  /-- R94 (a): `OP` is 0xB to 0xF. -/
  | opcode
  /-- R94 (b): `RSV` is not 0. -/
  | reserved
  /-- R94 (c): `D` is not 0 and `OP` does not use it. -/
  | data
deriving DecidableEq, Repr

/-- `OP = w[31:28]` (30_encoding.md R91). -/
def opField (w : Word) : BitVec 4 := w.extractLsb' 28 4

/-- `RSV = w[27:8]` (30_encoding.md R91). -/
def rsvField (w : Word) : BitVec 20 := w.extractLsb' 8 20

/-- `D = w[7:0]`, used as it stands (30_encoding.md R91, R92). -/
def dataField (w : Word) : Byte := w.extractLsb' 0 8

/-- Row `op` of 30_encoding.md R93 with operand `d` where the row uses D; no row for 0xB to 0xF. -/
def opcodeRow (op : BitVec 4) (d : Byte) : Option Instr :=
  match op.toNat with
  | 0x0 => some .nop
  | 0x1 => some .cinit
  | 0x2 => some .kstep
  | 0x3 => some .krun
  | 0x4 => some (.dec d)
  | 0x5 => some (.decf d)
  | 0x6 => some (.feed d)
  | 0x7 => some .frst
  | 0x8 => some .fack
  | 0x9 => some .conn
  | 0xA => some .close
  | _ => none

/-- Whether the opcode uses D: only 0x4, 0x5 and 0x6 do (30_encoding.md R93, R94). -/
def usesData (op : BitVec 4) : Bool := op = 0x4 || op = 0x5 || op = 0x6

/-- The decode function of 30_encoding.md R96. -/
def decode (w : Word) : Except IllegalWord Instr :=
  match opcodeRow (opField w) (dataField w) with
  | none => .error .opcode
  | some i =>
    if rsvField w ≠ 0 then .error .reserved
    else if !usesData (opField w) && dataField w ≠ 0 then .error .data
    else .ok i

/-- The opcode of a command (30_encoding.md R93). -/
def Instr.opcode : Instr → BitVec 4
  | .nop => 0x0
  | .cinit => 0x1
  | .kstep => 0x2
  | .krun => 0x3
  | .dec _ => 0x4
  | .decf _ => 0x5
  | .feed _ => 0x6
  | .frst => 0x7
  | .fack => 0x8
  | .conn => 0x9
  | .close => 0xA

/-- The D field of a command: its operand, or 0 (30_encoding.md R91). -/
def Instr.data : Instr → Byte
  | .dec d => d
  | .decf d => d
  | .feed d => d
  | .nop => 0
  | .cinit => 0
  | .kstep => 0
  | .krun => 0
  | .frst => 0
  | .fack => 0
  | .conn => 0
  | .close => 0

/-- The word whose field at bit `lo` and up is `v`, every other bit 0 (00_scope.md R8). -/
def placeField {n : Nat} (lo : Nat) (v : BitVec n) : Word := v.setWidth 32 <<< lo

/-- The word of a command: `OP` in bits 31:28, `D` in bits 7:0, and `RSV` 0 (30_encoding.md R91). -/
def encode (i : Instr) : Word := placeField 28 i.opcode ||| placeField 0 i.data

/-- What the decoder reads from an instruction whose bits are `w`, numbered as spec/opcode_table.json numbers them. A command
is one 32-bit bus word (30_encoding.md R90), so every bit at or above `nbits` is 0 and no bit may stand above bit 31. -/
def decodeTableWord (nbits w : Nat) : Option Instr :=
  let v := w % 2 ^ nbits
  if v < 2 ^ 32 then (decode (BitVec.ofNat 32 v)).toOption else none

end Sys2Proof
end

