-- ==== Sys2Proof/Config.lean ====
section
/-! DEFINITION. What an implementation of the RSCF core fixes (00_scope.md R6: the parameters, a value of type `Params`) and
the values the spec leaves open (93_implementation_defined.md U1 to U4: opaque constants, of which nothing can be proved). -/

namespace Sys2Proof

/-- A channel of the core (00_scope.md R2): `c0` serves the client-to-server stream, `c1` the server-to-client stream.
`NCHAN` is 2, its one legal value (R6). -/
inductive Chan where
  | c0
  | c1
deriving DecidableEq, Repr

/-- Where the type byte stands in the header (00_scope.md R6, `TYPE_POS`). -/
inductive TypePos where
  | first
  | last
deriving DecidableEq, Repr

/-- The byte order of the header's length field (00_scope.md R6, `LEN_ORDER`). -/
inductive LenOrder where
  | be
  | le
deriving DecidableEq, Repr

/-- `KMAX`, the capacity of the key store (00_scope.md R6: its one legal value). -/
def kMax : Nat := 256

/-- The parameters a core is built with (00_scope.md R6). They are fixed for the life of the core; `State.params` holds
them, and no step writes them. Which values are legal is `Params.wf` (R7). -/
structure Params where
  /-- `TYPE_POS`. -/
  typePos : TypePos
  /-- `LEN_BYTES`, the width of the length field in bytes. -/
  lenBytes : Nat
  /-- `LEN_ORDER`. -/
  lenOrder : LenOrder
  /-- `MAX_FRAME`, the largest declared length accepted and the capacity of FBUF. -/
  maxFrame : Nat
  /-- `KEY_INIT_0`, the static key of channel 0. -/
  keyInit0 : List Byte
  /-- `KEY_INIT_1`, the static key of channel 1. -/
  keyInit1 : List Byte
deriving DecidableEq, Repr

/-- `HDR_SIZE = 1 + LEN_BYTES` (00_scope.md R6, R7). -/
def Params.hdrSize (p : Params) : Nat := 1 + p.lenBytes

/-- `KEY_INIT_c` (00_scope.md R6). -/
def Params.keyInit (p : Params) : Chan → List Byte
  | .c0 => p.keyInit0
  | .c1 => p.keyInit1

/-- The default column of 00_scope.md R6, with the empty keys the test vectors assume (notes/assumptions/1.md). -/
def Params.default : Params :=
  { typePos := .first, lenBytes := 3, lenOrder := .be, maxFrame := 65536, keyInit0 := [], keyInit1 := [] }

/-- FREE VALUE (93 U1): the byte entry `n` of a channel's table S holds after the reset numbered `draw`.
DESIGN CHOICE, notes/assumptions/5.md. -/
opaque Config.resetSbox (draw : Nat) (c : Chan) (n : Nat) : Byte

/-- FREE VALUE (93 U3): the byte `KEY[n]` holds after the reset numbered `draw`, for `n` at or above `len(KEY_INIT_c)`.
DESIGN CHOICE, notes/assumptions/6.md. -/
opaque Config.resetKey (draw : Nat) (c : Chan) (n : Nat) : Byte

/-- FREE VALUE (93 U2): the byte a read of FBUF at or above FCNT returns, one for each draw.
DESIGN CHOICE, notes/assumptions/7.md. -/
opaque Config.staleByte (draw : Nat) : Byte

/-- FREE VALUE (93 U4): the word a read returns that a reset abandons, one for each draw.
DESIGN CHOICE, notes/assumptions/8.md. -/
opaque Config.abandonedWord (draw : Nat) : Word

end Sys2Proof
end

