-- ==== Sys2Proof/HostProgram.lean ====
section
/-! DEFINITION. The host's program lines (30_encoding.md R97, R98, R100) as data: command lines, pseudo-commands and bus
transaction lines, each with its channel. Numbers stand as the line gives them; which are legal is checked in WellFormed.lean.
What a line does on the bus is Machine/Assembler.lean. -/

namespace Sys2Proof

/-- The seventeen registers of 10_state.md R40, in the order of their offsets. -/
inductive Reg where
  | ctrl
  | status
  | errclr
  | keylen
  | cmd
  | result
  | index
  | count
  | frameType
  | frameLen
  | fill
  | fpos
  | errInfo
  | errPos
  | errType
  | param
  | maxframe
deriving DecidableEq, Repr

/-- What a `WR` or `RD` line names (30_encoding.md R98). -/
inductive Place where
  /-- A register, by its name in 10_state.md R40. -/
  | reg (r : Reg)
  /-- `KEY[n]`. -/
  | key (n : Nat)
  /-- `SBOX[n]`. -/
  | sbox (n : Nat)
  /-- `FBUF[n]`. -/
  | fbuf (n : Nat)
  /-- A numeric offset. -/
  | numeric (o : Nat)
deriving DecidableEq, Repr

/-- A command as a line spells it: a row of 30_encoding.md R93 (R97) or a pseudo-command (R100). -/
inductive AsmCommand where
  | nop
  | cinit
  | kstep
  | krun
  | dec (d : Nat)
  | decf (d : Nat)
  | feed (d : Nat)
  | frst
  | fack
  | conn
  | close
  /-- `ENC b`. -/
  | enc (d : Nat)
  /-- `KS`. -/
  | ks
  /-- `DECS b1, b2, ..., bn`. -/
  | decs (ds : List Nat)
  /-- `DECFS b1, ..., bn`. -/
  | decfs (ds : List Nat)
  /-- `FEEDS b1, ..., bn`. -/
  | feeds (ds : List Nat)
  /-- `KINIT`. -/
  | kinit
  /-- `START`. -/
  | start
  /-- `STOP`. -/
  | stop
deriving DecidableEq, Repr

/-- What one line asks for (30_encoding.md R98). -/
inductive LineBody where
  | command (m : AsmCommand)
  /-- `WR <reg-or-offset>, <value>`. -/
  | wr (p : Place) (v : Nat)
  /-- `RD <reg-or-offset>`; a `-> <value>` after it is the reader's note and moves no bit. -/
  | rd (p : Place)
deriving DecidableEq, Repr

/-- A line of a host program. Without a channel mark a line goes to channel 0 (30_encoding.md R97). -/
structure Line where
  chan : Chan
  body : LineBody
deriving DecidableEq, Repr

end Sys2Proof
end

