-- ==== Sys2Proof/WellFormed.lean ====
section
/-! DEFINITION. The checks on what the types leave open: the parameters of a core (00_scope.md R7) and the numbers of a host
program line (30_encoding.md R97, R98). A command itself (`Instr`) has no ill-formed term. -/

namespace Sys2Proof

/-- 00_scope.md R7: `1 <= LEN_BYTES <= 4`. -/
def Params.lenBytesOk (p : Params) : Bool := decide (1 ≤ p.lenBytes ∧ p.lenBytes ≤ 4)

/-- 00_scope.md R7: `HDR_SIZE <= MAX_FRAME <= 131072`. -/
def Params.maxFrameOk (p : Params) : Bool := decide (p.hdrSize ≤ p.maxFrame ∧ p.maxFrame ≤ 131072)

/-- 00_scope.md R7: `len(KEY_INIT_c) <= KMAX`. -/
def Params.keyInitOk (p : Params) (c : Chan) : Bool := decide ((p.keyInit c).length ≤ kMax)

/-- 00_scope.md R7, whole (`HDR_SIZE = 1 + LEN_BYTES` holds by definition). Parameters that break it are not a
configuration of this core: `step` refuses them (93 P5). -/
def Params.wf (p : Params) : Bool := p.lenBytesOk && p.maxFrameOk && p.keyInitOk .c0 && p.keyInitOk .c1

/-- A data byte is a number 0 to 255 (30_encoding.md R97). -/
def byteOk (d : Nat) : Bool := decide (d < 256)

/-- Every data byte of a command line is a number 0 to 255 (30_encoding.md R97, R100). -/
def AsmCommand.wf : AsmCommand → Bool
  | .dec d => byteOk d
  | .decf d => byteOk d
  | .feed d => byteOk d
  | .enc d => byteOk d
  | .decs ds => ds.all byteOk
  | .decfs ds => ds.all byteOk
  | .feeds ds => ds.all byteOk
  | .nop => true
  | .cinit => true
  | .kstep => true
  | .krun => true
  | .frst => true
  | .fack => true
  | .conn => true
  | .close => true
  | .ks => true
  | .kinit => true
  | .start => true
  | .stop => true

/-- A place names an offset of the channel (30_encoding.md R98, 20_memory.md R63): table indices are 0 to 255, and a
numeric offset or the offset of `FBUF[n]` has 20 bits. `FBUF[n]` above the window is a legal line: it is an unmapped read. -/
def Place.wf : Place → Bool
  | .reg _ => true
  | .key n => decide (n < 256)
  | .sbox n => decide (n < 256)
  | .fbuf n => decide (n < 131072)
  | .numeric o => decide (o < 2 ^ 20)

/-- A line is well formed when its numbers fit (30_encoding.md R97, R98: a `WR` value is a 32-bit value). -/
def Line.wf (l : Line) : Bool :=
  match l.body with
  | .command m => m.wf
  | .wr p v => p.wf && decide (v < 2 ^ 32)
  | .rd p => p.wf

end Sys2Proof
end

