-- ==== Sys2Proof/Machine/State.lean ====
section
/-! DEFINITION. The state of the RSCF core (10_state.md R20: each channel's state, "exactly the state below and nothing
else"), the host's side of the bus (00_scope.md R3, 20_memory.md R60, R61), the reasons a step can stop, and the state
after a hardware reset (70_reset_and_hazards.md R220). -/

namespace Sys2Proof.Machine

/-- A table of 256 bytes: the permutation table S and the key store KEY (10_state.md R20, R23, R28). -/
abbrev Table := Vector Byte 256

/-- The frame buffer as cells (index, byte), in one canonical form: indices strictly rising and no byte equal to what an
unlisted index reads as (`Memory.unlisted`, Machine/Ops.lean; notes/assumptions/7.md). -/
abbrev Memory := List Host.Cell

/-- CPHASE (10_state.md R25). The value 3 is never taken, so it has no constructor. -/
inductive CPhase where
  | unkeyed
  | ksa
  | ready
deriving DecidableEq, Repr

/-- FPHASE (10_state.md R30). -/
inductive FPhase where
  | hdr
  | body
  | held
  | discard
deriving DecidableEq, Repr

/-- ERRCODE (60_exceptions.md R191). Codes 0x09 to 0xFF are never recorded, so they have no constructor
(notes/assumptions/14.md); the 8-bit code is `ErrCode.bits`. -/
inductive ErrCode where
  | none
  | illegalCmd
  | badPhase
  | keylen
  | frameHeld
  | malformedLen
  | keyLocked
  | badAddr
  | noFrame
deriving DecidableEq, Repr

/-- The state of one channel: 10_state.md R20, row by row. -/
structure Channel where
  /-- S[0..255], the permutation table (R23). -/
  sbox : Table
  /-- i, the first running index (R24). -/
  i : Byte
  /-- j, the second running index (R24). -/
  j : Byte
  /-- CPHASE (R25). -/
  cphase : CPhase
  /-- COUNT (R26). -/
  count : Word
  /-- RESULT_PT (R27). -/
  resultPt : Byte
  /-- RESULT_KS (R27). -/
  resultKs : Byte
  /-- KEY[0..255] (R28). -/
  key : Table
  /-- KLEN (R29). -/
  klen : BitVec 9
  /-- FPHASE (R30). -/
  fphase : FPhase
  /-- FCNT (R31). -/
  fcnt : BitVec 18
  /-- FLEN (R32). -/
  flen : Word
  /-- FTYPE (R33). -/
  ftype : Byte
  /-- FPOS (R34). -/
  fpos : Word
  /-- FBUF (R35). -/
  fbuf : Memory
  /-- IE_FRAME (R37). -/
  ieFrame : Bool
  /-- IE_ERR (R37). -/
  ieErr : Bool
  /-- ERR (R36). -/
  err : Bool
  /-- ERR_OVF (R36). -/
  errOvf : Bool
  /-- ERRCODE (R36). -/
  errcode : ErrCode
  /-- ERR_INFO (R36). -/
  errInfo : Word
  /-- ERR_POS (R36). -/
  errPos : Word
  /-- ERR_TYPE (R36). -/
  errType : Byte
deriving DecidableEq, Repr

/-- What the host does to the core (20_memory.md R60; 70_reset_and_hazards.md R220, R221). -/
inductive HostEvent where
  /-- `Read(a)`. -/
  | read (a : Addr)
  /-- `Write(a, v)`. -/
  | write (a : Addr) (v : Word)
  /-- The reset input, asserted between transactions. -/
  | reset
  /-- The reset input, asserted while `Read(a)` is in progress: the read is abandoned. -/
  | resetInRead (a : Addr)
  /-- The reset input, asserted while `Write(a, v)` is in progress: the write is abandoned. -/
  | resetInWrite (a : Addr) (v : Word)
deriving DecidableEq, Repr

/-- The state of the machine. -/
structure State where
  /-- The parameters the core is built with (00_scope.md R6); no step writes them. -/
  params : Params
  /-- Channel 0 (00_scope.md R2). -/
  ch0 : Channel
  /-- Channel 1 (00_scope.md R2). -/
  ch1 : Channel
  /-- The model's own: the channel the transaction being performed addresses (20_memory.md R62; notes/assumptions/3.md). -/
  sel : Chan
  /-- The host's events not yet performed, oldest first (20_memory.md R61; notes/assumptions/2.md). -/
  pending : List HostEvent
  /-- The values the Reads have returned, newest first (20_memory.md R60, 70_reset_and_hazards.md R230). -/
  replies : List Word
  /-- The model's own: how many free values have been drawn (notes/assumptions/10.md). -/
  draws : Nat
deriving DecidableEq, Repr

/-- Why the machine stops with a fault: never. "No condition the core detects is fatal to it" (60_exceptions.md R202), and
an error is recorded in registers, not raised (R190). So there is no constructor, and no step faults. -/
inductive Fault where
deriving DecidableEq, Repr

/-- Why a step has no meaning. -/
inductive Refusal where
  /-- An instruction that has no meaning yet. Raised by no arm of `exec`: every command is modelled. Safe. -/
  | notModelled (mnemonic : String)
  /-- The parameters in the state break 00_scope.md R7, so the state is none of this core's: "a model refuses it" (R7,
  93 P5). Raised by `step` alone, before it looks at the bus. Safe: no core the spec describes has such parameters. -/
  | notAConfiguration
deriving DecidableEq, Repr

/-- One channel after the hardware reset numbered `draw`: the reset column of 10_state.md R20. The bytes the spec leaves
UNSPEC in S and KEY are free values (notes/assumptions/5.md, 6.md), and nothing is listed in FBUF (7.md). -/
def Channel.reset (p : Params) (draw : Nat) (c : Chan) : Channel :=
  { sbox := Vector.ofFn (fun n => Config.resetSbox draw c n.val)
    i := 0
    j := 0
    cphase := .unkeyed
    count := 0
    resultPt := 0
    resultKs := 0
    key := Vector.ofFn (fun n =>
      match (p.keyInit c)[n.val]? with
      | some b => b
      | none => Config.resetKey draw c n.val)
    klen := BitVec.ofNat 9 (p.keyInit c).length
    fphase := .hdr
    fcnt := 0
    flen := 0
    ftype := 0
    fpos := 0
    fbuf := []
    ieFrame := false
    ieErr := false
    err := false
    errOvf := false
    errcode := .none
    errInfo := 0
    errPos := 0
    errType := 0 }

/-- The machine right after power-on and reset, for a core built with the parameters `p` (70_reset_and_hazards.md R220):
both channels reset, no host event pending, no value returned. The reset is free draw number 0. -/
def State.resetWith (p : Params) : State :=
  { params := p
    ch0 := Channel.reset p 0 .c0
    ch1 := Channel.reset p 0 .c1
    sel := .c0
    pending := []
    replies := []
    draws := 1 }

/-- The machine right after reset, for the default parameters of 00_scope.md R6 (notes/assumptions/1.md). -/
def State.reset : State := State.resetWith Params.default

end Sys2Proof.Machine
end

