-- ==== Sys2Proof/Machine/Ops.lean ====
section
/-! DEFINITION. The named operations over the state: the frame buffer's cells, the 256-byte tables, the selected channel,
recording an error (60_exceptions.md R192, this core's form of taking an exception) and clearing it (10_state.md R43), the
values returned to the host, and drawing a free value. -/

namespace Sys2Proof.Machine

/-! ## The frame buffer as cells -/

/-- What an index that lists no byte reads as. No window read shows it: the bytes below FCNT have all been written, and a
read at or above FCNT returns a free value (20_memory.md R70). DESIGN CHOICE, notes/assumptions/7.md. -/
def Memory.unlisted : Byte := 0

/-- The byte at index `a`. -/
def Memory.read : Memory → Nat → Byte
  | [], _ => Memory.unlisted
  | (x, c) :: m, a => if a = x then c else Memory.read m a

/-- `m` with the byte at index `a` set to `b`, in canonical form again. -/
def Memory.write : Memory → Nat → Byte → Memory
  | [], a, b => if b = Memory.unlisted then [] else [(a, b)]
  | (x, c) :: m, a, b =>
    if a < x then (if b = Memory.unlisted then (x, c) :: m else (a, b) :: (x, c) :: m)
    else if a = x then (if b = Memory.unlisted then m else (a, b) :: m)
    else (x, c) :: Memory.write m a b

/-- The canonical form above the bound `lo`: indices strictly rising from `lo` on, no listed byte equal to the unlisted one. -/
def Memory.wfFrom : Nat → Memory → Bool
  | _, [] => true
  | lo, (x, c) :: m => decide (lo ≤ x) && decide (c ≠ Memory.unlisted) && Memory.wfFrom (x + 1) m

/-- The canonical form: equal buffers are equal data. -/
def Memory.wf (m : Memory) : Bool := Memory.wfFrom 0 m

/-! ## The 256-byte tables -/

/-- `S[n]` or `KEY[n]`, read (00_scope.md R9). -/
def tableGet (t : Table) (n : Byte) : Byte := t[n.toNat]'n.isLt

/-- `S[n] <- v` or `KEY[n] <- v` (00_scope.md R9). -/
def tableSet (t : Table) (n : Byte) (v : Byte) : Table := t.set n.toNat v n.isLt

/-- `swap(S[a], S[b])`: `t <- S[a]; S[a] <- S[b]; S[b] <- t` (00_scope.md R9). -/
def tableSwap (t : Table) (a b : Byte) : Table := tableSet (tableSet t a (tableGet t b)) b (tableGet t a)

/-- The identity table, `S[n] = n` (40_cipher.md R111). -/
def tableIdentity : Table := Vector.ofFn (fun n => BitVec.ofNat 8 n.val)

/-! ## Recording and clearing an error -/

/-- `RecordError(code, info, pos, type)` (60_exceptions.md R192): the first error since ERR was last clear is kept whole,
a later one only sets ERR_OVF. -/
def recordError (code : ErrCode) (info pos : Word) (type : Byte) (ch : Channel) : Channel :=
  if ch.err then { ch with errOvf := true }
  else { ch with err := true, errcode := code, errInfo := info, errPos := pos, errType := type }

/-- `reject(code, info)`: record the error, and nothing else (00_scope.md R9, 60_exceptions.md R196). -/
def reject (code : ErrCode) (info : Word) (ch : Channel) : Channel := recordError code info 0 0 ch

/-- What a write of 1 to ERRCLR does (10_state.md R43, 60_exceptions.md R201): the acknowledgement of an error. -/
def clearError (ch : Channel) : Channel :=
  { ch with err := false, errOvf := false, errcode := .none, errInfo := 0, errPos := 0, errType := 0 }

/-! ## The selected channel, the host's side of the bus, free values -/

/-- Channel `c` (00_scope.md R2). -/
def State.chan (s : State) : Chan → Channel
  | .c0 => s.ch0
  | .c1 => s.ch1

/-- `s` with channel `c` set to `ch`. -/
def State.setChan (s : State) (c : Chan) (ch : Channel) : State :=
  match c with
  | .c0 => { s with ch0 := ch }
  | .c1 => { s with ch1 := ch }

/-- The channel the transaction being performed addresses (20_memory.md R62). -/
def State.cur (s : State) : Channel := s.chan s.sel

/-- `s` with that channel changed by `f`: a transaction writes only the addressed channel's state (20_memory.md R62, R77). -/
def State.onCur (s : State) (f : Channel → Channel) : State := s.setChan s.sel (f s.cur)

/-- A Read returns `v` (20_memory.md R60). -/
def State.reply (s : State) (v : Word) : State := { s with replies := v :: s.replies }

/-- `zext_32` of a byte (00_scope.md R8, 20_memory.md R72). -/
def zextByte (b : Byte) : Word := b.setWidth 32

/-- A Read returns `zext_32` of a byte the spec leaves unspecified: a fresh free value (20_memory.md R70, 93 U2). -/
def State.replyStale (s : State) : State :=
  { s with replies := zextByte (Config.staleByte s.draws) :: s.replies, draws := s.draws + 1 }

/-- A read abandoned by reset returns an unspecified word: a fresh free value (70_reset_and_hazards.md R221, 93 U4). -/
def State.replyAbandoned (s : State) : State :=
  { s with replies := Config.abandonedWord s.draws :: s.replies, draws := s.draws + 1 }

/-- The hardware reset (70_reset_and_hazards.md R220): both channels take the values of the reset column. The host's side of
the bus is outside the core and stays. The bytes reset leaves unspecified are drawn afresh. -/
def State.hardwareReset (s : State) : State :=
  { s with
    ch0 := Channel.reset s.params s.draws .c0
    ch1 := Channel.reset s.params s.draws .c1
    draws := s.draws + 1 }

end Sys2Proof.Machine
end

