-- ==== Sys2Proof/Machine/Operands.lean ====
section
/-! DEFINITION. What transactions and commands take as operands: the channel, offset and target of a bus address
(20_memory.md R62 to R64), the key byte of a schedule iteration (40_cipher.md R112), and the bytes of a frame header
(41_frame.md R140 to R142). -/

namespace Sys2Proof.Machine

/-! ## Bus addresses -/

/-- `c = a[20]` (20_memory.md R62). -/
def chanOf (a : Addr) : Chan := if a.getLsbD 20 then .c1 else .c0

/-- `o = a[19:0]` (20_memory.md R62). -/
def offsetOf (a : Addr) : Offset := a.extractLsb' 0 20

/-- `base_c`, the first address of channel `c` (20_memory.md R62, R68). -/
def baseAddr : Chan → Addr
  | .c0 => 0x000000
  | .c1 => 0x100000

/-- `base_c + o`, the bus address of offset `o` of channel `c` (20_memory.md R62, R68). -/
def busAddr (c : Chan) (o : Offset) : Addr := baseAddr c + o.setWidth 21

/-- `zext_32(o)`, what BAD_ADDR and KEY_LOCKED record (60_exceptions.md R193). -/
def zextOffset (o : Offset) : Word := o.setWidth 32

/-- What a transaction at an offset reaches (20_memory.md R63, R64). -/
inductive Target where
  /-- `a[1:0] != 0` (R64). -/
  | misaligned
  /-- A register of 10_state.md R40. -/
  | reg (r : Reg)
  /-- `KEY[n]` (R68). -/
  | key (n : Byte)
  /-- `S[n]` (R69). -/
  | sbox (n : Byte)
  /-- `FBUF[n]` (R70). -/
  | fbuf (n : Nat)
  /-- No element (R65). -/
  | unmapped
deriving DecidableEq, Repr

/-- The register at word `k` of the register block, offset `4 * k` (10_state.md R40). -/
def regAt (k : Nat) : Option Reg :=
  match k with
  | 0 => some .ctrl
  | 1 => some .status
  | 2 => some .errclr
  | 3 => some .keylen
  | 4 => some .cmd
  | 5 => some .result
  | 6 => some .index
  | 7 => some .count
  | 8 => some .frameType
  | 9 => some .frameLen
  | 10 => some .fill
  | 11 => some .fpos
  | 12 => some .errInfo
  | 13 => some .errPos
  | 14 => some .errType
  | 15 => some .param
  | 16 => some .maxframe
  | _ => none

/-- The channel address map (20_memory.md R63), after the alignment check of R64. -/
def target (p : Params) (o : Offset) : Target :=
  let n := o.toNat
  if n % 4 ≠ 0 then .misaligned
  else if n < 0x400 then
    match regAt (n / 4) with
    | some r => .reg r
    | none => .unmapped
  else if n < 0x800 then .key (BitVec.ofNat 8 ((n - 0x400) / 4))
  else if n < 0xC00 then .sbox (BitVec.ofNat 8 ((n - 0x800) / 4))
  else if 0x80000 ≤ n ∧ n < 0x80000 + 4 * p.maxFrame then .fbuf ((n - 0x80000) / 4)
  else .unmapped

/-! ## Key bytes -/

/-- `1 <= KLEN <= KMAX`: a usable key length (10_state.md R29, 40_cipher.md R114). -/
def klenUsable (klen : BitVec 9) : Bool := decide (1 ≤ klen.toNat ∧ klen.toNat ≤ kMax)

/-- `KEY[i mod KLEN]`, the key byte of iteration `i` (40_cipher.md R112). The remainder is exact; a schedule in progress has
KLEN 1 to 256 (R114), and with KLEN 0, which no run reaches, this is `KEY[i]` (notes/assumptions/19.md). -/
def keyByte (key : Table) (klen : BitVec 9) (i : Byte) : Byte := tableGet key (BitVec.ofNat 8 (i.toNat % klen.toNat))

/-! ## Header bytes -/

/-- `tidx`: which header byte is the type byte (41_frame.md R140, R143). -/
def typeIndex (p : Params) : Nat :=
  match p.typePos with
  | .first => 0
  | .last => p.lenBytes

/-- `k`: which byte of the length field header byte `h` is (41_frame.md R143). -/
def lenIndex (p : Params) (h : Nat) : Nat :=
  match p.typePos with
  | .first => h - 1
  | .last => h

/-- FLEN after header byte `h`, a byte `b` of the length field (41_frame.md R141, R143): formed exactly, then held in 32
bits, which it always fits (notes/assumptions/13.md). -/
def lenAccumulate (p : Params) (h : Nat) (b : Byte) (flen : Word) : Word :=
  match p.lenOrder with
  | .be => BitVec.ofNat 32 (flen.toNat * 256 + b.toNat)
  | .le => BitVec.ofNat 32 (flen.toNat + b.toNat * 256 ^ lenIndex p h)

/-- A declared length is malformed when `FLEN < HDR_SIZE` or `FLEN > MAX_FRAME` (41_frame.md R142). -/
def malformedLength (p : Params) (flen : Word) : Bool := decide (flen.toNat < p.hdrSize ∨ p.maxFrame < flen.toNat)

end Sys2Proof.Machine
end

