-- ==== Sys2Proof/Machine/Cipher.lean ====
section
/-! DEFINITION. The cipher (40_cipher.md): KsaInit, KsaStep and PrgaStep, and the commands CINIT, KSTEP, KRUN and DEC. The
word a rejected command records is its own encoding, since exactly one word stands for each command (30_encoding.md R93;
notes/assumptions/12.md). -/

namespace Sys2Proof.Machine

/-- KsaInit (40_cipher.md R111). -/
def ksaInit (ch : Channel) : Channel :=
  { ch with sbox := tableIdentity, i := 0, j := 0, count := 0, cphase := .ksa }

/-- The `j` one schedule iteration computes (40_cipher.md R112, R121). -/
def ksaJ (ch : Channel) : Byte := ch.j + tableGet ch.sbox ch.i + keyByte ch.key ch.klen ch.i

/-- KsaStep (40_cipher.md R112). -/
def ksaStep (ch : Channel) : Channel :=
  let j := ksaJ ch
  let table := tableSwap ch.sbox ch.i j
  if ch.i = 255 then { ch with sbox := table, i := 0, j := 0, cphase := .ready }
  else { ch with sbox := table, i := ch.i + 1, j := j }

/-- At most `n` iterations of `while CPHASE = KSA: KsaStep()` (40_cipher.md R116). -/
def ksaLoop : Nat → Channel → Channel
  | 0, ch => ch
  | n + 1, ch => if ch.cphase = .ksa then ksaLoop n (ksaStep ch) else ch

/-- `while CPHASE = KSA: KsaStep()` (40_cipher.md R116, 42_connection.md R172): 256 - i iterations, so 256 are enough. -/
def ksaRun (ch : Channel) : Channel := ksaLoop 256 ch

/-- PrgaStep on the data byte `d` (40_cipher.md R113); the plaintext byte it returns is the new RESULT_PT. -/
def prgaStep (d : Byte) (ch : Channel) : Channel :=
  let i := ch.i + 1
  let j := ch.j + tableGet ch.sbox i
  let table := tableSwap ch.sbox i j
  let k := tableGet table (tableGet table i + tableGet table j)
  { ch with sbox := table, i := i, j := j, resultKs := k, resultPt := d ^^^ k, count := ch.count + 1 }

/-- `i <- 0; j <- 0; COUNT <- 0; CPHASE <- UNKEYED` (40_cipher.md R114, 42_connection.md R172, R173); S stays. -/
def cipherClear (ch : Channel) : Channel := { ch with i := 0, j := 0, count := 0, cphase := .unkeyed }

/-- What CINIT and CONN do with an unusable KLEN (40_cipher.md R114, 42_connection.md R172). -/
def keylenFailure (ch : Channel) : Channel := recordError .keylen (ch.klen.setWidth 32) 0 0 (cipherClear ch)

/-- CINIT (40_cipher.md R114). -/
def execCinit (s : State) : Host.Outcome State Fault Refusal :=
  .next (s.onCur (fun ch => if klenUsable ch.klen then ksaInit ch else keylenFailure ch))

/-- KSTEP (40_cipher.md R115). -/
def execKstep (s : State) : Host.Outcome State Fault Refusal :=
  .next (s.onCur (fun ch => if ch.cphase = .ksa then ksaStep ch else reject .badPhase (encode .kstep) ch))

/-- KRUN (40_cipher.md R116). -/
def execKrun (s : State) : Host.Outcome State Fault Refusal :=
  .next (s.onCur (fun ch => if ch.cphase = .ksa then ksaRun ch else reject .badPhase (encode .krun) ch))

/-- DEC (40_cipher.md R117). -/
def execDec (d : Byte) (s : State) : Host.Outcome State Fault Refusal :=
  .next (s.onCur (fun ch => if ch.cphase = .ready then prgaStep d ch else reject .badPhase (encode (.dec d)) ch))

end Sys2Proof.Machine
end

