-- ==== Sys2Proof/Machine/Frame.lean ====
section
/-! DEFINITION. The frame-length decoder (41_frame.md): FrameAccept and the commands FEED, FRST and FACK. -/

namespace Sys2Proof.Machine

/-- `FBUF[FCNT] <- b; FCNT <- FCNT + 1` (41_frame.md R143). -/
def storeFrameByte (b : Byte) (ch : Channel) : Channel :=
  { ch with fbuf := ch.fbuf.write ch.fcnt.toNat b, fcnt := ch.fcnt + 1 }

/-- Header byte number `h` is the type byte or a byte of the length field (41_frame.md R143). -/
def takeHeaderByte (p : Params) (h : Nat) (b : Byte) (ch : Channel) : Channel :=
  if h = typeIndex p then { ch with ftype := b } else { ch with flen := lenAccumulate p h b ch.flen }

/-- The header is complete and its length malformed: the error is recorded and the decoder enters DISCARD
(41_frame.md R143, R148). -/
def malformedHeader (p : Params) (ch : Channel) : Channel :=
  let ch := recordError .malformedLen ch.flen (ch.fpos - BitVec.ofNat 32 p.hdrSize) ch.ftype ch
  { ch with fphase := .discard, fcnt := 0, flen := 0, ftype := 0 }

/-- What follows when the header may now be complete (41_frame.md R142, R143). -/
def headerCheck (p : Params) (ch : Channel) : Channel :=
  if ch.fcnt.toNat = p.hdrSize then
    if malformedLength p ch.flen then malformedHeader p ch
    else if ch.flen.toNat = p.hdrSize then { ch with fphase := .held }
    else { ch with fphase := .body }
  else ch

/-- What follows a byte after the header: the frame is complete when FCNT = FLEN (41_frame.md R143). -/
def bodyCheck (ch : Channel) : Channel := if ch.fcnt.toNat = ch.flen.toNat then { ch with fphase := .held } else ch

/-- FrameAccept of the plaintext byte `b` (41_frame.md R143). FEED and DECF call it only when FPHASE is not HELD; in HELD
it does what R143's last branch does (notes/assumptions/20.md). -/
def frameAccept (p : Params) (b : Byte) (ch : Channel) : Channel :=
  let counted := { ch with fpos := ch.fpos + 1 }
  match ch.fphase with
  | .discard => counted
  | .hdr => headerCheck p (takeHeaderByte p ch.fcnt.toNat b (storeFrameByte b counted))
  | .body => bodyCheck (storeFrameByte b counted)
  | .held => bodyCheck (storeFrameByte b counted)

/-- `FPHASE <- HDR; FCNT <- 0; FLEN <- 0; FTYPE <- 0` (41_frame.md R147). -/
def frameRelease (ch : Channel) : Channel := { ch with fphase := .hdr, fcnt := 0, flen := 0, ftype := 0 }

/-- `FPHASE <- HDR; FCNT <- 0; FLEN <- 0; FTYPE <- 0; FPOS <- 0` (41_frame.md R146). -/
def frameReset (ch : Channel) : Channel := { frameRelease ch with fpos := 0 }

/-- FEED (41_frame.md R145). -/
def execFeed (d : Byte) (s : State) : Host.Outcome State Fault Refusal :=
  .next (s.onCur (fun ch =>
    if ch.fphase = .held then reject .frameHeld (encode (.feed d)) ch else frameAccept s.params d ch))

/-- FRST (41_frame.md R146). -/
def execFrst (s : State) : Host.Outcome State Fault Refusal := .next (s.onCur frameReset)

/-- FACK (41_frame.md R147). -/
def execFack (s : State) : Host.Outcome State Fault Refusal :=
  .next (s.onCur (fun ch => if ch.fphase = .held then frameRelease ch else reject .noFrame (encode .fack) ch))

end Sys2Proof.Machine
end

