-- ==== Sys2Proof/Machine/Connection.lean ====
section
/-! DEFINITION. The combined and connection-lifecycle commands (42_connection.md): NOP, DECF, CONN and CLOSE. -/

namespace Sys2Proof.Machine

/-- NOP (42_connection.md R170). -/
def execNop (s : State) : Host.Outcome State Fault Refusal := .next s

/-- `P <- PrgaStep(D); FrameAccept(P)` (42_connection.md R171). -/
def decryptAndFrame (p : Params) (d : Byte) (ch : Channel) : Channel :=
  let stepped := prgaStep d ch
  frameAccept p stepped.resultPt stepped

/-- DECF (42_connection.md R171): the cipher phase is checked before the frame phase (60_exceptions.md R195). -/
def execDecf (d : Byte) (s : State) : Host.Outcome State Fault Refusal :=
  .next (s.onCur (fun ch =>
    if ch.cphase ≠ .ready then reject .badPhase (encode (.decf d)) ch
    else if ch.fphase = .held then reject .frameHeld (encode (.decf d)) ch
    else decryptAndFrame s.params d ch))

/-- CONN (42_connection.md R172). -/
def execConn (s : State) : Host.Outcome State Fault Refusal :=
  .next (s.onCur (fun ch => frameReset (if klenUsable ch.klen then ksaRun (ksaInit ch) else keylenFailure ch)))

/-- CLOSE (42_connection.md R173). -/
def execClose (s : State) : Host.Outcome State Fault Refusal := .next (s.onCur (fun ch => frameReset (cipherClear ch)))

end Sys2Proof.Machine
end

