-- ==== Sys2Proof/Machine/Dispatch.lean ====
section
/-! DEFINITION. The dispatch of commands to their meanings (30_encoding.md R93, R99), one arm per constructor. A command acts
on the channel that the transaction carrying it addresses (`State.sel`). -/

namespace Sys2Proof.Machine

def exec (i : Instr) (s : State) : Host.Outcome State Fault Refusal :=
  match i with
  | .nop => Sys2Proof.Machine.execNop s
  | .cinit => Sys2Proof.Machine.execCinit s
  | .kstep => Sys2Proof.Machine.execKstep s
  | .krun => Sys2Proof.Machine.execKrun s
  | .dec d => Sys2Proof.Machine.execDec d s
  | .decf d => Sys2Proof.Machine.execDecf d s
  | .feed d => Sys2Proof.Machine.execFeed d s
  | .frst => Sys2Proof.Machine.execFrst s
  | .fack => Sys2Proof.Machine.execFack s
  | .conn => Sys2Proof.Machine.execConn s
  | .close => Sys2Proof.Machine.execClose s

end Sys2Proof.Machine
end

