-- ==== Sys2Proof/Machine/Flags.lean ====
section
/-! DEFINITION. The status flags: the codes of the phases and of the error (10_state.md R25, R30, 60_exceptions.md R191), the
interrupt output (10_state.md R38) and the STATUS word (R42). No command has an arithmetic flag (40_cipher.md R121). -/

namespace Sys2Proof.Machine

/-- The 2-bit value of CPHASE (10_state.md R25). -/
def CPhase.bits : CPhase → BitVec 2
  | .unkeyed => 0
  | .ksa => 1
  | .ready => 2

/-- The 2-bit value of FPHASE (10_state.md R30). -/
def FPhase.bits : FPhase → BitVec 2
  | .hdr => 0
  | .body => 1
  | .held => 2
  | .discard => 3

/-- The 8-bit value of ERRCODE (60_exceptions.md R191). -/
def ErrCode.bits : ErrCode → BitVec 8
  | .none => 0x00
  | .illegalCmd => 0x01
  | .badPhase => 0x02
  | .keylen => 0x03
  | .frameHeld => 0x04
  | .malformedLen => 0x05
  | .keyLocked => 0x06
  | .badAddr => 0x07
  | .noFrame => 0x08

/-- STATUS.FRAME_READY: 1 iff FPHASE = HELD (10_state.md R42). -/
def frameReady (ch : Channel) : Bool := decide (ch.fphase = .held)

/-- `irq_c = (IE_FRAME & (FPHASE = HELD)) | (IE_ERR & ERR)` (10_state.md R38, 60_exceptions.md R197): a level, a function of
the state. -/
def irq (ch : Channel) : Bool := (ch.ieFrame && frameReady ch) || (ch.ieErr && ch.err)

/-- The STATUS word (10_state.md R42), field by field; the other bits are reserved and 0. -/
def statusWord (ch : Channel) : Word :=
  placeField 0 ch.cphase.bits ||| placeField 2 ch.fphase.bits ||| placeField 4 (BitVec.ofBool (frameReady ch))
    ||| placeField 5 (BitVec.ofBool ch.err) ||| placeField 6 (BitVec.ofBool ch.errOvf) ||| placeField 7 (BitVec.ofBool (irq ch))
    ||| placeField 8 ch.errcode.bits

end Sys2Proof.Machine
end

