-- ==== Sys2Proof/Machine/Registers.lean ====
section
/-! DEFINITION. What each register reads as (10_state.md R40 to R57) and what the writable ones but CMD do with a write
(R41, R43, R44, 20_memory.md R68). Reserved bits read 0 and ignore writes (R58). -/

namespace Sys2Proof.Machine

/-- PARAM (10_state.md R56). -/
def paramWord (p : Params) : Word :=
  let order : BitVec 1 := match p.lenOrder with
    | .be => 0
    | .le => 1
  let pos : BitVec 1 := match p.typePos with
    | .first => 0
    | .last => 1
  placeField 0 (BitVec.ofNat 3 p.lenBytes) ||| placeField 3 order ||| placeField 4 pos ||| placeField 8 (BitVec.ofNat 3 p.hdrSize)

/-- What an aligned read of a register returns (10_state.md R41 to R57; a write-only register reads 0, 20_memory.md R67). -/
def readReg (p : Params) (ch : Channel) : Reg → Word
  | .ctrl => placeField 0 (BitVec.ofBool ch.ieFrame) ||| placeField 1 (BitVec.ofBool ch.ieErr)
  | .status => statusWord ch
  | .errclr => 0
  | .keylen => ch.klen.setWidth 32
  | .cmd => 0
  | .result => placeField 0 ch.resultPt ||| placeField 8 ch.resultKs
  | .index => placeField 0 ch.i ||| placeField 8 ch.j
  | .count => ch.count
  | .frameType => zextByte ch.ftype
  | .frameLen => ch.flen
  | .fill => ch.fcnt.setWidth 32
  | .fpos => ch.fpos
  | .errInfo => ch.errInfo
  | .errPos => ch.errPos
  | .errType => zextByte ch.errType
  | .param => paramWord p
  | .maxframe => BitVec.ofNat 32 p.maxFrame

/-- A write to CTRL (10_state.md R41). -/
def writeCtrl (v : Word) (ch : Channel) : Channel := { ch with ieFrame := v.getLsbD 0, ieErr := v.getLsbD 1 }

/-- A write to ERRCLR (10_state.md R43): bit 0 decides, the others are ignored. -/
def writeErrclr (v : Word) (ch : Channel) : Channel := if v.getLsbD 0 then clearError ch else ch

/-- A write to KEYLEN at offset `o` (10_state.md R44): refused in phase KSA, otherwise all nine bits are stored. -/
def writeKeylen (o : Offset) (v : Word) (ch : Channel) : Channel :=
  if ch.cphase = .ksa then recordError .keyLocked (zextOffset o) 0 0 ch else { ch with klen := v.extractLsb' 0 9 }

/-- A write to `KEY[n]`, at offset `o` (20_memory.md R68): refused in phase KSA, otherwise bits 7:0 are stored. -/
def writeKey (o : Offset) (n : Byte) (v : Word) (ch : Channel) : Channel :=
  if ch.cphase = .ksa then recordError .keyLocked (zextOffset o) 0 0 ch
  else { ch with key := tableSet ch.key n (v.extractLsb' 0 8) }

/-- A misaligned transaction, an unmapped read, or a write to a read-only or unmapped offset (20_memory.md R64 to R66). -/
def badAddress (o : Offset) (ch : Channel) : Channel := recordError .badAddr (zextOffset o) 0 0 ch

end Sys2Proof.Machine
end

