-- ==== Sys2Proof/Machine/Bus.lean ====
section
/-! DEFINITION. The host's transactions (20_memory.md R60 to R70), executing a command word (30_encoding.md R99), the reset
input (70_reset_and_hazards.md R220, R221), and performing the host's oldest pending event, which is one step. -/

namespace Sys2Proof.Machine

/-- What a Read of the target `g`, at offset `o` of the addressed channel, does (20_memory.md R64, R65, R67 to R70,
10_state.md R40). -/
def readTarget (g : Target) (o : Offset) (s : State) : State :=
  match g with
  | .misaligned => (s.onCur (badAddress o)).reply 0
  | .unmapped => (s.onCur (badAddress o)).reply 0
  | .reg r => s.reply (readReg s.params s.cur r)
  | .key n => s.reply (zextByte (tableGet s.cur.key n))
  | .sbox n => s.reply (zextByte (tableGet s.cur.sbox n))
  | .fbuf n => if n < s.cur.fcnt.toNat then s.reply (zextByte (s.cur.fbuf.read n)) else s.replyStale

/-- `Read(a)` (20_memory.md R60, R62). -/
def busRead (a : Addr) (s : State) : State :=
  readTarget (target s.params (offsetOf a)) (offsetOf a) { s with sel := chanOf a }

/-- Executing the command word `w` (30_encoding.md R99): an illegal word is rejected (R94), before every other check. -/
def execWord (w : Word) (s : State) : Host.Outcome State Fault Refusal :=
  match decode w with
  | .ok i => exec i s
  | .error _ => .next (s.onCur (reject .illegalCmd w))

/-- A write to a register (10_state.md R40; 20_memory.md R66 for the read-only ones). -/
def writeReg (r : Reg) (o : Offset) (v : Word) (s : State) : Host.Outcome State Fault Refusal :=
  match r with
  | .ctrl => .next (s.onCur (writeCtrl v))
  | .errclr => .next (s.onCur (writeErrclr v))
  | .keylen => .next (s.onCur (writeKeylen o v))
  | .cmd => execWord v s
  | .status => .next (s.onCur (badAddress o))
  | .result => .next (s.onCur (badAddress o))
  | .index => .next (s.onCur (badAddress o))
  | .count => .next (s.onCur (badAddress o))
  | .frameType => .next (s.onCur (badAddress o))
  | .frameLen => .next (s.onCur (badAddress o))
  | .fill => .next (s.onCur (badAddress o))
  | .fpos => .next (s.onCur (badAddress o))
  | .errInfo => .next (s.onCur (badAddress o))
  | .errPos => .next (s.onCur (badAddress o))
  | .errType => .next (s.onCur (badAddress o))
  | .param => .next (s.onCur (badAddress o))
  | .maxframe => .next (s.onCur (badAddress o))

/-- What a Write of `v` to the target `g`, at offset `o` of the addressed channel, does (20_memory.md R64, R66, R68,
10_state.md R41 to R45). -/
def writeTarget (g : Target) (o : Offset) (v : Word) (s : State) : Host.Outcome State Fault Refusal :=
  match g with
  | .reg r => writeReg r o v s
  | .key n => .next (s.onCur (writeKey o n v))
  | .misaligned => .next (s.onCur (badAddress o))
  | .sbox _ => .next (s.onCur (badAddress o))
  | .fbuf _ => .next (s.onCur (badAddress o))
  | .unmapped => .next (s.onCur (badAddress o))

/-- `Write(a, v)` (20_memory.md R60, R62). -/
def busWrite (a : Addr) (v : Word) (s : State) : Host.Outcome State Fault Refusal :=
  writeTarget (target s.params (offsetOf a)) (offsetOf a) v { s with sel := chanOf a }

/-- What one host event does, whole (20_memory.md R61, R73). A reset that falls into a transaction abandons it: the write
has no effect, the read returns an unspecified word (70_reset_and_hazards.md R221). -/
def perform (e : HostEvent) (s : State) : Host.Outcome State Fault Refusal :=
  match e with
  | .read a => .next (busRead a s)
  | .write a v => busWrite a v s
  | .reset => .next s.hardwareReset
  | .resetInRead _ => .next s.hardwareReset.replyAbandoned
  | .resetInWrite _ _ => .next s.hardwareReset

/-- One step: the oldest pending host event is performed (20_memory.md R61); with none the core is idle and holds its state
(60_exceptions.md R209). Parameters that break 00_scope.md R7 are refused. -/
def stepBus (s : State) : Host.Outcome State Fault Refusal :=
  if s.params.wf then
    match s.pending with
    | [] => .next s
    | e :: rest => perform e { s with pending := rest }
  else .refused .notAConfiguration

end Sys2Proof.Machine
end

