-- ==== Sys2Proof/Machine/Step.lean ====
section
/-! DEFINITION. One step of the machine, and how the host's check has it run a given command next. -/

namespace Sys2Proof.Machine

/-- One step: one host event (20_memory.md R61, 70_reset_and_hazards.md R228 "each transaction is one step"). -/
def step (s : State) : Host.Outcome State Fault Refusal := stepBus s

/-- `s` with a Write of the command word `w` to CMD of the channel last addressed waiting first, so that the next step
executes exactly that command (30_encoding.md R90: a command exists only as the data of a Write to CMD;
notes/assumptions/9.md). -/
def State.withFetchWord (s : State) (nbits w : Nat) : State :=
  { s with pending := .write (busAddr s.sel 0x010) (BitVec.ofNat 32 (w % 2 ^ nbits)) :: s.pending }

end Sys2Proof.Machine
end

