-- ==== Sys2Proof/Machine/Assembler.lean ====
section
/-! DEFINITION. Host programs (30_encoding.md R97, R98, R100): the text of a line read as a `Line`, the expansion of the
pseudo-commands, and the bus transactions a line stands for. A decoder never produces a pseudo-command (R100); the core
sees only the transactions. -/

namespace Sys2Proof

/-! ## What a line does on the bus -/

/-- The offset of a register (10_state.md R40). -/
def Reg.offset : Reg → Offset
  | .ctrl => 0x000
  | .status => 0x004
  | .errclr => 0x008
  | .keylen => 0x00C
  | .cmd => 0x010
  | .result => 0x014
  | .index => 0x018
  | .count => 0x01C
  | .frameType => 0x020
  | .frameLen => 0x024
  | .fill => 0x028
  | .fpos => 0x02C
  | .errInfo => 0x030
  | .errPos => 0x034
  | .errType => 0x038
  | .param => 0x03C
  | .maxframe => 0x040

/-- The offset a line's place resolves to (30_encoding.md R98, 20_memory.md R63). -/
def Place.offset : Place → Offset
  | .reg r => r.offset
  | .key n => BitVec.ofNat 20 (0x400 + 4 * n)
  | .sbox n => BitVec.ofNat 20 (0x800 + 4 * n)
  | .fbuf n => BitVec.ofNat 20 (0x80000 + 4 * n)
  | .numeric o => BitVec.ofNat 20 o

/-- The commands a line's command stands for: itself, or a pseudo-command's expansion (30_encoding.md R100). -/
def AsmCommand.expand : AsmCommand → List Instr
  | .nop => [.nop]
  | .cinit => [.cinit]
  | .kstep => [.kstep]
  | .krun => [.krun]
  | .dec d => [.dec (BitVec.ofNat 8 d)]
  | .decf d => [.decf (BitVec.ofNat 8 d)]
  | .feed d => [.feed (BitVec.ofNat 8 d)]
  | .frst => [.frst]
  | .fack => [.fack]
  | .conn => [.conn]
  | .close => [.close]
  | .enc d => [.dec (BitVec.ofNat 8 d)]
  | .ks => [.dec 0]
  | .decs ds => ds.map (fun d => .dec (BitVec.ofNat 8 d))
  | .decfs ds => ds.map (fun d => .decf (BitVec.ofNat 8 d))
  | .feeds ds => ds.map (fun d => .feed (BitVec.ofNat 8 d))
  | .kinit => [.cinit, .krun]
  | .start => [.conn]
  | .stop => [.close]

/-- `WR CMD, encode(i)` in channel `c` (30_encoding.md R98): the transaction that is the command `i`. -/
def commandEvent (c : Chan) (i : Instr) : Machine.HostEvent := .write (Machine.busAddr c (Reg.offset .cmd)) (encode i)

/-- The host transactions of a line, in order (30_encoding.md R98). -/
def Line.events (l : Line) : List Machine.HostEvent :=
  match l.body with
  | .command m => m.expand.map (commandEvent l.chan)
  | .wr p v => [.write (Machine.busAddr l.chan p.offset) (BitVec.ofNat 32 v)]
  | .rd p => [.read (Machine.busAddr l.chan p.offset)]

/-! ## Reading the text of a line -/

/-- The pieces a line is made of (30_encoding.md R97, R98). -/
inductive Token where
  /-- A mnemonic, a register name or a number. -/
  | word (cs : List Char)
  /-- A character in single quotes, as its code. -/
  | chr (n : Nat)
  | comma
  | colon
  | lbrack
  | rbrack
  | arrow
deriving DecidableEq, Repr

/-- Letters, digits and the underscore. -/
def isWordChar (c : Char) : Bool := c.isAlphanum || c == '_'

/-- The word read so far, put before the later tokens. -/
def flushWord (acc : List Char) (ts : List Token) : List Token :=
  match acc with
  | [] => ts
  | _ :: _ => .word acc :: ts

/-- The tokens of a line up to its comment; none for a character the syntax has no use for. `acc` is the word being read. -/
def lexLine : List Char → List Char → Option (List Token)
  | acc, [] => some (flushWord acc [])
  | acc, '\'' :: c :: '\'' :: cs => (lexLine [] cs).map (fun ts => flushWord acc (.chr c.toNat :: ts))
  | acc, '-' :: '>' :: cs => (lexLine [] cs).map (fun ts => flushWord acc (.arrow :: ts))
  | acc, c :: cs =>
    if isWordChar c then lexLine (acc ++ [c]) cs
    else if c == ';' then some (flushWord acc [])
    else if c == ' ' || c == '\t' then (lexLine [] cs).map (flushWord acc)
    else if c == ',' then (lexLine [] cs).map (fun ts => flushWord acc (.comma :: ts))
    else if c == ':' then (lexLine [] cs).map (fun ts => flushWord acc (.colon :: ts))
    else if c == '[' then (lexLine [] cs).map (fun ts => flushWord acc (.lbrack :: ts))
    else if c == ']' then (lexLine [] cs).map (fun ts => flushWord acc (.rbrack :: ts))
    else none

/-- The value of a decimal digit or of a hexadecimal digit. -/
def digitValue (base : Nat) (c : Char) : Option Nat :=
  let n :=
    if '0' ≤ c ∧ c ≤ '9' then c.toNat - 48
    else if 'a' ≤ c ∧ c ≤ 'f' then c.toNat - 87
    else if 'A' ≤ c ∧ c ≤ 'F' then c.toNat - 55
    else base
  if n < base then some n else none

/-- The digits of a number; an underscore between digits groups them and counts for nothing (notes/assumptions/22.md). -/
def digitsValue (base : Nat) : Nat → List Char → Option Nat
  | n, [] => some n
  | n, c :: cs =>
    if c == '_' then digitsValue base n cs
    else
      match digitValue base c with
      | some d => digitsValue base (n * base + d) cs
      | none => none

/-- A number: decimal, or hexadecimal after `0x` (30_encoding.md R97). -/
def numberOf (cs : List Char) : Option Nat :=
  match cs with
  | '0' :: 'x' :: d :: ds => if (digitValue 16 d).isSome then digitsValue 16 0 (d :: ds) else none
  | d :: ds => if (digitValue 10 d).isSome then digitsValue 10 0 (d :: ds) else none
  | [] => none

/-- A value: a number, or a character in single quotes standing for its 8-bit code (30_encoding.md R97). The
spec names no character set and gives `'A'` = 0x41 alone. DESIGN CHOICE, notes/assumptions/25.md: the code is the character's
Unicode code point where that is below 256, and a line with any other quoted character is no line. -/
def valueOf : Token → Option Nat
  | .word cs => numberOf cs
  | .chr n => if n < 256 then some n else none
  | .comma => none
  | .colon => none
  | .lbrack => none
  | .rbrack => none
  | .arrow => none

/-- One value or more, with commas between them (30_encoding.md R100). -/
def valuesOf : List Token → Option (List Nat)
  | [] => none
  | [t] => (valueOf t).map (fun v => [v])
  | t :: .comma :: ts =>
    match valueOf t, valuesOf ts with
    | some v, some vs => some (v :: vs)
    | _, _ => none
  | _ :: _ :: _ => none

/-- The register names of 10_state.md R40. -/
def registerNames : List (List Char × Reg) :=
  [(['C', 'T', 'R', 'L'], .ctrl), (['S', 'T', 'A', 'T', 'U', 'S'], .status), (['E', 'R', 'R', 'C', 'L', 'R'], .errclr),
   (['K', 'E', 'Y', 'L', 'E', 'N'], .keylen), (['C', 'M', 'D'], .cmd), (['R', 'E', 'S', 'U', 'L', 'T'], .result),
   (['I', 'N', 'D', 'E', 'X'], .index), (['C', 'O', 'U', 'N', 'T'], .count)]
  ++ [(['F', 'R', 'A', 'M', 'E', '_', 'T', 'Y', 'P', 'E'], .frameType), (['F', 'R', 'A', 'M', 'E', '_', 'L', 'E', 'N'], .frameLen),
   (['F', 'I', 'L', 'L'], .fill), (['F', 'P', 'O', 'S'], .fpos), (['E', 'R', 'R', '_', 'I', 'N', 'F', 'O'], .errInfo),
   (['E', 'R', 'R', '_', 'P', 'O', 'S'], .errPos), (['E', 'R', 'R', '_', 'T', 'Y', 'P', 'E'], .errType),
   (['P', 'A', 'R', 'A', 'M'], .param), (['M', 'A', 'X', 'F', 'R', 'A', 'M', 'E'], .maxframe)]

/-- `<reg-or-offset>` (30_encoding.md R98), and the tokens after it. That the index in brackets may be a quoted character, so that
`KEY['A']` is `KEY[65]`, is a DESIGN CHOICE, notes/assumptions/26.md. -/
def placeOf : List Token → Option (Place × List Token)
  | .word cs :: .lbrack :: t :: .rbrack :: ts =>
    match valueOf t with
    | none => none
    | some n =>
      if cs = ['K', 'E', 'Y'] then some (.key n, ts)
      else if cs = ['S', 'B', 'O', 'X'] then some (.sbox n, ts)
      else if cs = ['F', 'B', 'U', 'F'] then some (.fbuf n, ts)
      else none
  | .word cs :: ts =>
    match registerNames.lookup cs with
    | some r => some (.reg r, ts)
    | none => (numberOf cs).map (fun o => (.numeric o, ts))
  | _ => none

/-- The commands without an operand (30_encoding.md R93, R97, R100). -/
def plainCommands : List (List Char × AsmCommand) :=
  [(['N', 'O', 'P'], .nop), (['C', 'I', 'N', 'I', 'T'], .cinit), (['K', 'S', 'T', 'E', 'P'], .kstep),
   (['K', 'R', 'U', 'N'], .krun), (['F', 'R', 'S', 'T'], .frst), (['F', 'A', 'C', 'K'], .fack),
   (['C', 'O', 'N', 'N'], .conn), (['C', 'L', 'O', 'S', 'E'], .close), (['K', 'S'], .ks),
   (['K', 'I', 'N', 'I', 'T'], .kinit), (['S', 'T', 'A', 'R', 'T'], .start), (['S', 'T', 'O', 'P'], .stop)]

/-- A command with one data byte (30_encoding.md R97, R100). -/
def byteCommand (cs : List Char) (d : Nat) : Option AsmCommand :=
  if cs = ['D', 'E', 'C'] then some (.dec d)
  else if cs = ['D', 'E', 'C', 'F'] then some (.decf d)
  else if cs = ['F', 'E', 'E', 'D'] then some (.feed d)
  else if cs = ['E', 'N', 'C'] then some (.enc d)
  else none

/-- A pseudo-command over a list of data bytes (30_encoding.md R100). -/
def listCommand (cs : List Char) (ds : List Nat) : Option AsmCommand :=
  if cs = ['D', 'E', 'C', 'S'] then some (.decs ds)
  else if cs = ['D', 'E', 'C', 'F', 'S'] then some (.decfs ds)
  else if cs = ['F', 'E', 'E', 'D', 'S'] then some (.feeds ds)
  else none

/-- A command line: its mnemonic and operands (30_encoding.md R97, R100). -/
def commandOf (cs : List Char) (ts : List Token) : Option AsmCommand :=
  match ts with
  | [] => plainCommands.lookup cs
  | [t] =>
    match valueOf t with
    | none => none
    | some d => (byteCommand cs d).or (listCommand cs [d])
  | _ :: _ :: _ => (valuesOf ts).bind (listCommand cs)

/-- What follows the channel mark of a line (30_encoding.md R97, R98). The value after an `RD` line's arrow is read and dropped,
whatever its width and in either form of a value. DESIGN CHOICE, notes/assumptions/26.md, 27.md. -/
def bodyOf : List Token → Option LineBody
  | .word ['W', 'R'] :: ts =>
    match placeOf ts with
    | some (p, [.comma, t]) => (valueOf t).map (fun v => .wr p v)
    | _ => none
  | .word ['R', 'D'] :: ts =>
    match placeOf ts with
    | some (p, []) => some (.rd p)
    | some (p, [.arrow, t]) => (valueOf t).map (fun _ => .rd p)
    | _ => none
  | .word cs :: ts => (commandOf cs ts).map .command
  | _ => none

/-- A line of tokens: nothing, or a body with or without a channel mark (30_encoding.md R97). -/
def lineOfTokens : List Token → Option (List Line)
  | [] => some []
  | .word ['c', '0'] :: .colon :: ts => (bodyOf ts).map (fun b => [⟨.c0, b⟩])
  | .word ['c', '1'] :: .colon :: ts => (bodyOf ts).map (fun b => [⟨.c1, b⟩])
  | ts => (bodyOf ts).map (fun b => [⟨.c0, b⟩])

/-- The text of one line: no line for an empty one or a comment, nothing at all for text that is no line of the syntax or
whose numbers do not fit (30_encoding.md R97, R98). -/
def parseLine (cs : List Char) : Option (List Line) :=
  match (lexLine [] cs).bind lineOfTokens with
  | some ls => if ls.all Line.wf then some ls else none
  | none => none

/-- The transactions of a host program, line by line in order (30_encoding.md R98). -/
def assemble : List (List Char) → Option (List Machine.HostEvent)
  | [] => some []
  | cs :: rest =>
    match parseLine cs, assemble rest with
    | some ls, some es => some (ls.flatMap Line.events ++ es)
    | _, _ => none

end Sys2Proof
end

