-- ==== Sys2Proof/Safety.lean ====
section
/-! DEFINITION. The terms claims about the RSCF core are stated in: its invariant (10_state.md R39), what parts of a channel
two states share, what recording an error means (60_exceptions.md R192), what one host transaction does as seen from outside,
runs of commands and of host events, frames as byte strings (41_frame.md R140, R141). A run is safe when every step of it is
a next state: nothing stops the core (60_exceptions.md R190, R202). -/

namespace Sys2Proof.Machine

/-! ## The invariant -/

/-- A table is a permutation of 0 to 255 (10_state.md R23, R39 (b)). -/
def IsPermutation (t : Table) : Prop := Function.Bijective (tableGet t)

/-- What holds of a channel in every reachable state. The first seven clauses are 10_state.md R39 (b) to (e) ((a), CPHASE is
never 3, holds by the type); the others are 60_exceptions.md R193 (ERR_POS and ERR_TYPE), 10_state.md R32, R33, R26 in phase
KSA, 40_cipher.md R112 ("KLEN is 1 to 256 in phase KSA"), and the model's own canonical form of FBUF with every cell in it. -/
structure Channel.Inv (p : Params) (ch : Channel) : Prop where
  permutation : ch.cphase ≠ .unkeyed → IsPermutation ch.sbox
  unkeyed : ch.cphase = .unkeyed → ch.i = 0 ∧ ch.j = 0 ∧ ch.count = 0
  header : ch.fphase = .hdr → ch.fcnt.toNat < p.hdrSize
  body : ch.fphase = .body →
    p.hdrSize ≤ ch.fcnt.toNat ∧ ch.fcnt.toNat < ch.flen.toNat ∧ ch.flen.toNat ≤ p.maxFrame
  held : ch.fphase = .held →
    p.hdrSize ≤ ch.fcnt.toNat ∧ ch.fcnt.toNat = ch.flen.toNat ∧ ch.flen.toNat ≤ p.maxFrame
  discard : ch.fphase = .discard → ch.fcnt = 0 ∧ ch.flen = 0 ∧ ch.ftype = 0
  error : (ch.errcode = .none ↔ ch.err = false) ∧ (ch.errOvf = true → ch.err = true)
  errorDetail : ch.errcode ≠ .malformedLen → ch.errPos = 0 ∧ ch.errType = 0
  lengthSoFar : ch.fphase = .hdr → ch.flen.toNat < 256 ^ lenIndex p ch.fcnt.toNat
  typeSoFar : ch.fphase = .hdr → ch.fcnt.toNat ≤ typeIndex p → ch.ftype = 0
  schedule : ch.cphase = .ksa → klenUsable ch.klen = true ∧ ch.count = 0
  bufferForm : ch.fbuf.wf = true
  bufferSize : ∀ x ∈ ch.fbuf, x.1 < p.maxFrame

/-- What holds of the machine in every reachable state: its parameters are a configuration (00_scope.md R7) and each channel
meets its invariant. -/
structure State.Inv (s : State) : Prop where
  params : s.params.wf = true
  channel : ∀ c, (s.chan c).Inv s.params

/-! ## What two channels, or two states, share -/

/-- The stream position: S, i, j, CPHASE, COUNT. -/
structure SameStream (a b : Channel) : Prop where
  sbox : b.sbox = a.sbox
  i : b.i = a.i
  j : b.j = a.j
  cphase : b.cphase = a.cphase
  count : b.count = a.count

/-- RESULT. -/
structure SameResult (a b : Channel) : Prop where
  pt : b.resultPt = a.resultPt
  ks : b.resultKs = a.resultKs

/-- KEY and KLEN. -/
structure SameKey (a b : Channel) : Prop where
  key : b.key = a.key
  klen : b.klen = a.klen

/-- The registers of the frame decoder: FPHASE, FCNT, FLEN, FTYPE, FPOS. -/
structure SameDecoder (a b : Channel) : Prop where
  fphase : b.fphase = a.fphase
  fcnt : b.fcnt = a.fcnt
  flen : b.flen = a.flen
  ftype : b.ftype = a.ftype
  fpos : b.fpos = a.fpos

/-- Every byte of FBUF. -/
def SameBuffer (a b : Channel) : Prop := ∀ n, Memory.read b.fbuf n = Memory.read a.fbuf n

/-- Every byte of FBUF but the one at index `m`. -/
def SameBufferBut (m : Nat) (a b : Channel) : Prop := ∀ n, n ≠ m → Memory.read b.fbuf n = Memory.read a.fbuf n

/-- CTRL: IE_FRAME and IE_ERR. -/
structure SameCtrl (a b : Channel) : Prop where
  ieFrame : b.ieFrame = a.ieFrame
  ieErr : b.ieErr = a.ieErr

/-- The error state. -/
structure SameError (a b : Channel) : Prop where
  err : b.err = a.err
  errOvf : b.errOvf = a.errOvf
  errcode : b.errcode = a.errcode
  errInfo : b.errInfo = a.errInfo
  errPos : b.errPos = a.errPos
  errType : b.errType = a.errType

/-- Everything of a channel but its error state. -/
structure SameButError (a b : Channel) : Prop where
  stream : SameStream a b
  result : SameResult a b
  key : SameKey a b
  decoder : SameDecoder a b
  buffer : b.fbuf = a.fbuf
  ctrl : SameCtrl a b

/-- Everything of the state but the channel `c`. -/
structure SameBut (c : Chan) (s t : State) : Prop where
  params : t.params = s.params
  other : ∀ d, d ≠ c → t.chan d = s.chan d
  sel : t.sel = s.sel
  pending : t.pending = s.pending
  replies : t.replies = s.replies
  draws : t.draws = s.draws

/-! ## Recording an error -/

/-- The error state of `b` is that of `a` after recording an error (60_exceptions.md R192): the first error since ERR was last
clear is kept whole, a later one only sets ERR_OVF. -/
def Recorded (code : ErrCode) (info pos : Word) (type : Byte) (a b : Channel) : Prop :=
  b.err = true ∧
    (a.err = false → b.errcode = code ∧ b.errInfo = info ∧ b.errPos = pos ∧ b.errType = type ∧ b.errOvf = a.errOvf) ∧
    (a.err = true → b.errcode = a.errcode ∧ b.errInfo = a.errInfo ∧ b.errPos = a.errPos ∧ b.errType = a.errType ∧
      b.errOvf = true)

/-- A rejection: the error is recorded and nothing else of the channel changes (60_exceptions.md R196). -/
def Rejected (code : ErrCode) (info : Word) (a b : Channel) : Prop := SameButError a b ∧ Recorded code info 0 0 a b

/-- The command `i` answers a next state in which the addressed channel is rejected with `code` and the command's own word. -/
def RejectsCommand (i : Instr) (code : ErrCode) (s : State) : Prop :=
  ∃ t, exec i s = .next t ∧ SameBut s.sel s t ∧ Rejected code (encode i) s.cur t.cur

/-! ## Transactions seen from outside -/

/-- The event `e` is the host's next, `rest` come after it, and the parameters are a configuration. -/
structure Waiting (s : State) (e : HostEvent) (rest : List HostEvent) : Prop where
  params : s.params.wf = true
  pending : s.pending = e :: rest

/-- The step answers the Read of channel `c` with `v` and has no effect on either channel (20_memory.md R74). `sel`, `pending`,
`replies` and `draws` are the model's own bookkeeping (notes/assumptions/2.md, 3.md, 4.md, 10.md). -/
def AnswersRead (s : State) (c : Chan) (rest : List HostEvent) (v : Word) : Prop :=
  ∃ t, step s = .next t ∧ t.params = s.params ∧ (∀ d, t.chan d = s.chan d) ∧ t.sel = c ∧ t.pending = rest ∧
    t.replies = v :: s.replies ∧ t.draws = s.draws

/-- The step performs a Read of channel `c` that finds no element: 0 is returned and the error is recorded, no more. -/
def AnswersBadRead (s : State) (c : Chan) (rest : List HostEvent) (info : Word) : Prop :=
  ∃ t, step s = .next t ∧ t.params = s.params ∧ (∀ d, d ≠ c → t.chan d = s.chan d) ∧ t.sel = c ∧ t.pending = rest ∧
    t.replies = 0 :: s.replies ∧ t.draws = s.draws ∧ Rejected .badAddr info (s.chan c) (t.chan c)

/-- The step performs a Write to channel `c`: that channel changes as `effect` says, and nothing else does. -/
def PerformsWrite (s : State) (c : Chan) (rest : List HostEvent) (effect : Channel → Channel → Prop) : Prop :=
  ∃ t, step s = .next t ∧ t.params = s.params ∧ (∀ d, d ≠ c → t.chan d = s.chan d) ∧ t.sel = c ∧ t.pending = rest ∧
    t.replies = s.replies ∧ t.draws = s.draws ∧ effect (s.chan c) (t.chan c)

/-- A Read of offset `o` of channel `c` is answered with `v`, whenever it is the host's next event. -/
def ReadsAs (s : State) (c : Chan) (rest : List HostEvent) (o : Offset) (v : Word) : Prop :=
  Waiting s (.read (busAddr c o)) rest → AnswersRead s c rest v

/-- A Write to offset `o` of channel `c` changes that channel as `effect` says, whenever it is the host's next event. -/
def WritesAs (s : State) (c : Chan) (rest : List HostEvent) (o : Offset) (v : Word) (effect : Channel → Channel → Prop) : Prop :=
  Waiting s (.write (busAddr c o) v) rest → PerformsWrite s c rest effect

/-- Every Write to offset `o` of channel `c` is refused with BAD_ADDR and that offset (20_memory.md R66). -/
def RefusesWrites (s : State) (c : Chan) (rest : List HostEvent) (o : Offset) : Prop :=
  ∀ v, WritesAs s c rest o v (Rejected .badAddr (BitVec.ofNat 32 o.toNat))

/-- A Read of offset `o` of channel `c`, the host's first event after reset, is answered with a value of which `value` holds:
right after power-on, for every legal configuration, and after every step that performs a reset between transactions
(70_reset_and_hazards.md R220). -/
def ReadsAfterReset (c : Chan) (o : Offset) (value : Params → Word → Prop) : Prop :=
  (∀ (p : Params) (rest : List HostEvent), p.wf = true →
    ∃ v, AnswersRead { State.resetWith p with pending := .read (busAddr c o) :: rest } c rest v ∧ value p v) ∧
  ∀ (s : State) (later rest : List HostEvent), Waiting s .reset later →
    ∃ (t : State) (v : Word), step s = .next t ∧
      AnswersRead { t with pending := .read (busAddr c o) :: rest } c rest v ∧ value s.params v

/-- After every reset a Read of offset `o` of either channel is answered with 0. -/
def ReadsZeroAfterReset (o : Offset) : Prop := ∀ c, ReadsAfterReset c o (fun _ v => v = 0)

/-- The fields of PARAM (10_state.md R56). -/
structure ShowsParams (p : Params) (v : Word) : Prop where
  lenBytes : (v.extractLsb' 0 3).toNat = p.lenBytes
  lenOrder : v.getLsbD 3 = true ↔ p.lenOrder = .le
  typePos : v.getLsbD 4 = true ↔ p.typePos = .last
  hdrSize : (v.extractLsb' 8 3).toNat = p.hdrSize
  reserved : v.extractLsb' 5 3 = 0 ∧ v.extractLsb' 11 21 = 0

/-- What 70_reset_and_hazards.md R220 says of channel `c` after a hardware reset; the bytes it leaves unspecified (S, FBUF,
and KEY from `len(KEY_INIT_c)` on) are not constrained. -/
structure IsReset (p : Params) (c : Chan) (ch : Channel) : Prop where
  cphase : ch.cphase = .unkeyed
  indices : ch.i = 0 ∧ ch.j = 0
  count : ch.count = 0
  result : ch.resultPt = 0 ∧ ch.resultKs = 0
  key : ∀ n (h : n < (p.keyInit c).length), tableGet ch.key (BitVec.ofNat 8 n) = (p.keyInit c)[n]
  klen : ch.klen.toNat = (p.keyInit c).length
  decoder : ch.fphase = .hdr ∧ ch.fcnt = 0 ∧ ch.flen = 0 ∧ ch.ftype = 0 ∧ ch.fpos = 0
  ctrl : ch.ieFrame = false ∧ ch.ieErr = false
  error : ch.err = false ∧ ch.errOvf = false ∧ ch.errcode = .none ∧ ch.errInfo = 0 ∧ ch.errPos = 0 ∧ ch.errType = 0

/-! ## Runs -/

/-- The commands of a list, one after another, on the channel last addressed. -/
def execAll : List Instr → State → Host.Outcome State Fault Refusal
  | [], s => .next s
  | i :: is, s =>
    match exec i s with
    | .next t => execAll is t
    | .fault r => .fault r
    | .refused r => .refused r

/-- The host events of a list, one after another. -/
def performAll : List HostEvent → State → Host.Outcome State Fault Refusal
  | [], s => .next s
  | e :: es, s =>
    match perform e s with
    | .next t => performAll es t
    | .fault r => .fault r
    | .refused r => .refused r

/-- One DEC for each byte; the plaintext byte RESULT shows after each (40_cipher.md R120), and the state at the end. -/
def transformAll : List Byte → State → Option (List Byte × State)
  | [], s => some ([], s)
  | b :: bs, s =>
    match exec (.dec b) s with
    | .next t =>
      match transformAll bs t with
      | some (cs, u) => some (t.cur.resultPt :: cs, u)
      | none => none
    | .fault _ => none
    | .refused _ => none

/-- Whether an event is a transaction addressed to channel `c` (20_memory.md R62). -/
def HostEvent.addresses (c : Chan) : HostEvent → Bool
  | .read a => decide (chanOf a = c)
  | .write a _ => decide (chanOf a = c)
  | .reset => false
  | .resetInRead _ => false
  | .resetInWrite _ _ => false

/-- Whether an event is a completed transaction, not a reset. -/
def HostEvent.isTransaction : HostEvent → Bool
  | .read _ => true
  | .write _ _ => true
  | .reset => false
  | .resetInRead _ => false
  | .resetInWrite _ _ => false

/-! ## Frames as byte strings -/

/-- The value of length-field bytes, most significant first: the sum of `b_k * 256^(n-1-k)` (41_frame.md R141, BE). -/
def bigEndian : List Byte → Nat
  | [] => 0
  | b :: bs => b.toNat * 256 ^ bs.length + bigEndian bs

/-- The value of length-field bytes, least significant first: the sum of `b_k * 256^k` (41_frame.md R141, LE). -/
def littleEndian : List Byte → Nat
  | [] => 0
  | b :: bs => b.toNat + 256 * littleEndian bs

/-- The length-field bytes of a frame, in arrival order (41_frame.md R140). -/
def lengthField (p : Params) (f : List Byte) : List Byte :=
  match p.typePos with
  | .first => (f.drop 1).take p.lenBytes
  | .last => f.take p.lenBytes

/-- The type byte of a frame (41_frame.md R140). -/
def typeByte (p : Params) (f : List Byte) : Byte :=
  match p.typePos with
  | .first => f.getD 0 0
  | .last => f.getD p.lenBytes 0

/-- The declared length of a frame (41_frame.md R141). -/
def declaredLength (p : Params) (f : List Byte) : Nat :=
  match p.lenOrder with
  | .be => bigEndian (lengthField p f)
  | .le => littleEndian (lengthField p f)

/-- A frame with a valid header whose declared length is its own (41_frame.md R140, R142). -/
def WellFormedFrame (p : Params) (f : List Byte) : Prop :=
  p.hdrSize ≤ f.length ∧ f.length ≤ p.maxFrame ∧ declaredLength p f = f.length

/-- The byte `b` is stored at `FBUF[FCNT]` and every other byte of the buffer stays (41_frame.md R143). -/
def StoresAtFill (b : Byte) (a c : Channel) : Prop :=
  Memory.read c.fbuf a.fcnt.toNat = b ∧ SameBufferBut a.fcnt.toNat a c

/-- FTYPE once header byte number FCNT, `b`, has arrived (41_frame.md R143). -/
def typeAfter (p : Params) (b : Byte) (a : Channel) : Byte := if a.fcnt.toNat = typeIndex p then b else a.ftype

/-- FLEN once header byte number FCNT, `b`, has arrived, as an exact number (41_frame.md R143). -/
def lengthAfter (p : Params) (b : Byte) (a : Channel) : Nat :=
  if a.fcnt.toNat = typeIndex p then a.flen.toNat
  else
    match p.lenOrder with
    | .be => a.flen.toNat * 256 + b.toNat
    | .le => a.flen.toNat + b.toNat * 256 ^ lenIndex p a.fcnt.toNat

/-- What FrameAccept of the plaintext byte `b` does to the frame decoder and the error state (41_frame.md R143), for a channel
that holds no frame. -/
structure Accepts (p : Params) (b : Byte) (a c : Channel) : Prop where
  /-- Every accepted byte is counted. -/
  fpos : c.fpos.toNat = (a.fpos.toNat + 1) % 2 ^ 32
  /-- In DISCARD the byte is dropped. -/
  discard : a.fphase = .discard →
    c.fphase = .discard ∧ c.fcnt = a.fcnt ∧ c.flen = a.flen ∧ c.ftype = a.ftype ∧ SameBuffer a c ∧ SameError a c
  /-- In BODY the byte is stored, and the frame is held when FCNT reaches FLEN. -/
  body : a.fphase = .body →
    StoresAtFill b a c ∧ c.fcnt.toNat = a.fcnt.toNat + 1 ∧ c.flen = a.flen ∧ c.ftype = a.ftype ∧ SameError a c ∧
      c.fphase = if a.fcnt.toNat + 1 = a.flen.toNat then .held else .body
  /-- In HDR the byte is stored. -/
  stored : a.fphase = .hdr → StoresAtFill b a c
  /-- A header byte that leaves the header incomplete. -/
  incomplete : a.fphase = .hdr → a.fcnt.toNat + 1 < p.hdrSize →
    c.fphase = .hdr ∧ c.fcnt.toNat = a.fcnt.toNat + 1 ∧ c.flen.toNat = lengthAfter p b a ∧ c.ftype = typeAfter p b a ∧
      SameError a c
  /-- A header byte that completes a header whose length is malformed. -/
  malformed : a.fphase = .hdr → a.fcnt.toNat + 1 = p.hdrSize →
    (lengthAfter p b a < p.hdrSize ∨ p.maxFrame < lengthAfter p b a) →
      c.fphase = .discard ∧ c.fcnt = 0 ∧ c.flen = 0 ∧ c.ftype = 0 ∧
        Recorded .malformedLen (BitVec.ofNat 32 (lengthAfter p b a))
          (BitVec.ofNat 32 (a.fpos.toNat + 1 + 2 ^ 32 - p.hdrSize)) (typeAfter p b a) a c
  /-- A header byte that completes a header whose length is valid: an empty payload makes the frame held at once. -/
  complete : a.fphase = .hdr → a.fcnt.toNat + 1 = p.hdrSize → p.hdrSize ≤ lengthAfter p b a →
    lengthAfter p b a ≤ p.maxFrame →
      c.fcnt.toNat = p.hdrSize ∧ c.flen.toNat = lengthAfter p b a ∧ c.ftype = typeAfter p b a ∧ SameError a c ∧
        c.fphase = if lengthAfter p b a = p.hdrSize then .held else .body

/-- `n` bytes of plaintext counted in FPOS and dropped, in DISCARD (41_frame.md R148). -/
structure DropsBytes (n : Nat) (a c : Channel) : Prop where
  fphase : c.fphase = .discard
  fpos : c.fpos.toNat = (a.fpos.toNat + n) % 2 ^ 32
  fcnt : c.fcnt = a.fcnt
  flen : c.flen = a.flen
  ftype : c.ftype = a.ftype
  buffer : SameBuffer a c
  error : SameError a c

/-- The frame decoder stands before the first byte of a frame. -/
structure AtFrameStart (ch : Channel) : Prop where
  fphase : ch.fphase = .hdr
  fcnt : ch.fcnt = 0
  flen : ch.flen = 0
  ftype : ch.ftype = 0

/-- `FBUF[0..n-1]`. -/
def bufferBytes (ch : Channel) (n : Nat) : List Byte := (List.range n).map (Memory.read ch.fbuf)

/-- The frames a host takes from the core that gives it each byte by FEED, and reads a held frame and releases it by FACK
before the next byte (70_reset_and_hazards.md R225 (b), (c)); and the state at the end. -/
def collectFrames : List Byte → State → Option (List (List Byte) × State)
  | [], s => some ([], s)
  | b :: bs, s =>
    match exec (.feed b) s with
    | .fault _ => none
    | .refused _ => none
    | .next t =>
      if t.cur.fphase = .held then
        match exec .fack t with
        | .fault _ => none
        | .refused _ => none
        | .next u =>
          match collectFrames bs u with
          | some (fs, v) => some (bufferBytes t.cur t.cur.flen.toNat :: fs, v)
          | none => none
      else collectFrames bs t

end Sys2Proof.Machine
end

