-- ==== Sys2Proof/Certificates/Slice0/Obligations.lean ====
section
/-! DEFINITION. The statements for the provers. Each docstring cites what it formalises. A rule the spec marks
"[derived: ...]" is the spec's own inference: a statement of it has basis 'derived' in OBLIGATIONS.json. No statement rests on
a free value: the clauses about unspecified bytes hold for every value. -/

open Sys2Proof Sys2Proof.Machine

/-! ## Encoding -/

/-- 30_encoding.md sections 2 and 4: the decode function gives back every command, with every value of D. -/
def Obligations.DecodeInvertsEncode : Prop := ∀ i : Instr, decode (encode i) = .ok i

/-- 30_encoding.md section 4: a legal word is exactly the encoding of its command, so no bit of a word is dropped. -/
def Obligations.LegalWordIsTheEncoding : Prop := ∀ (w : Word) (i : Instr), decode w = .ok i → encode i = w

/-- R93: a word matches a row when `(w & mask) = match`, and then decodes to the row's command with D in bits 7:0. -/
def Obligations.OpcodeMapMatchAndMask : Prop :=
  ∀ w : Word,
    (decode w = .ok .nop ↔ w &&& 0xFFFFFFFF = 0x00000000) ∧
    (decode w = .ok .cinit ↔ w &&& 0xFFFFFFFF = 0x10000000) ∧
    (decode w = .ok .kstep ↔ w &&& 0xFFFFFFFF = 0x20000000) ∧
    (decode w = .ok .krun ↔ w &&& 0xFFFFFFFF = 0x30000000) ∧
    (∀ d, decode w = .ok (.dec d) ↔ w &&& 0xFFFFFF00 = 0x40000000 ∧ d = BitVec.ofNat 8 w.toNat) ∧
    (∀ d, decode w = .ok (.decf d) ↔ w &&& 0xFFFFFF00 = 0x50000000 ∧ d = BitVec.ofNat 8 w.toNat) ∧
    (∀ d, decode w = .ok (.feed d) ↔ w &&& 0xFFFFFF00 = 0x60000000 ∧ d = BitVec.ofNat 8 w.toNat) ∧
    (decode w = .ok .frst ↔ w &&& 0xFFFFFFFF = 0x70000000) ∧
    (decode w = .ok .fack ↔ w &&& 0xFFFFFFFF = 0x80000000) ∧
    (decode w = .ok .conn ↔ w &&& 0xFFFFFFFF = 0x90000000) ∧
    (decode w = .ok .close ↔ w &&& 0xFFFFFFFF = 0xA0000000)

/-- R94: which words are illegal, in numbers, and that writing one to CMD is rejected with ILLEGAL_CMD and the word, whatever
state the channel is in. -/
def Obligations.IllegalWordsAreRejected : Prop :=
  ∀ w : Word,
    ((∃ e, decode w = .error e) ↔
      (11 ≤ w.toNat / 2 ^ 28 ∨ w.toNat / 2 ^ 8 % 2 ^ 20 ≠ 0 ∨
        (w.toNat / 2 ^ 28 ≠ 4 ∧ w.toNat / 2 ^ 28 ≠ 5 ∧ w.toNat / 2 ^ 28 ≠ 6 ∧ w.toNat % 2 ^ 8 ≠ 0))) ∧
    ∀ (s : State) (c : Chan) (rest : List HostEvent), (∃ e, decode w = .error e) →
      WritesAs s c rest 0x010 w (Rejected .illegalCmd w)

/-- 30_encoding.md sections 1, 2 and 3: words written out from the opcode map, one of every row, and one word illegal for
each of the three reasons. -/
def Obligations.WrittenWordsDecode : Prop :=
  decode 0x00000000 = .ok .nop ∧ decode 0x10000000 = .ok .cinit ∧ decode 0x20000000 = .ok .kstep ∧
    decode 0x30000000 = .ok .krun ∧ decode 0x40000041 = .ok (.dec 0x41) ∧ decode 0x500000AE = .ok (.decf 0xAE) ∧
    decode 0x60000002 = .ok (.feed 0x02) ∧ decode 0x70000000 = .ok .frst ∧ decode 0x80000000 = .ok .fack ∧
    decode 0x90000000 = .ok .conn ∧ decode 0xA0000000 = .ok .close ∧ decode 0xB0000000 = .error .opcode ∧
    decode 0x40000141 = .error .reserved ∧ decode 0x00000001 = .error .data

/-- R45, R99: a Write to CMD executes the word written: the step is `exec` of the decoded command, on the state with the
transaction taken and its channel selected, and the word a rejection records, `encode i`, is the word written; an illegal word
is rejected; a read of CMD returns 0. -/
def Obligations.StepRunsTheCommandWritten : Prop :=
  ∀ (s : State) (c : Chan) (rest : List HostEvent),
    (∀ w, Waiting s (.write (busAddr c 0x010) w) rest →
      (∀ i, decode w = .ok i → step s = exec i { s with pending := rest, sel := c } ∧ encode i = w) ∧
      (∀ e, decode w = .error e → PerformsWrite s c rest (Rejected .illegalCmd w))) ∧
    ReadsAs s c rest 0x010 0

/-- 30_encoding.md section 5: the transactions of a command line are its commands executed on the line's channel, one after
another: a command is itself, and a pseudo-command is the commands its row of the table names. The list of a multi-byte one is
not empty. -/
def Obligations.CommandLineExecutesItsCommands : Prop :=
  ∀ (s : State) (c : Chan),
    let runs (m : AsmCommand) (is : List Instr) : Prop :=
      performAll (Line.events ⟨c, .command m⟩) s = execAll is { s with sel := c }
    (∀ m : AsmCommand, m.expand ≠ [] → runs m m.expand) ∧
    runs .nop [.nop] ∧ runs .cinit [.cinit] ∧ runs .kstep [.kstep] ∧ runs .krun [.krun] ∧
    (∀ d : Byte, runs (.dec d.toNat) [.dec d] ∧ runs (.decf d.toNat) [.decf d] ∧ runs (.feed d.toNat) [.feed d]) ∧
    runs .frst [.frst] ∧ runs .fack [.fack] ∧ runs .conn [.conn] ∧ runs .close [.close] ∧
    (∀ d : Byte, runs (.enc d.toNat) [.dec d]) ∧ runs .ks [.dec 0] ∧
    (∀ ds : List Byte, ds ≠ [] → runs (.decs (ds.map BitVec.toNat)) (ds.map .dec) ∧
      runs (.decfs (ds.map BitVec.toNat)) (ds.map .decf) ∧ runs (.feeds (ds.map BitVec.toNat)) (ds.map .feed)) ∧
    runs .kinit [.cinit, .krun] ∧ runs .start [.conn] ∧ runs .stop [.close]

/-! ## Cipher -/

/-- R111, R114: CINIT with a usable KLEN writes the identity table and starts the schedule; with any other it leaves the
cipher UNKEYED, S as it was, and records KEYLEN. In every phase; nothing else changes. -/
def Obligations.CinitStartsTheSchedule : Prop :=
  ∀ s : State,
    (1 ≤ s.cur.klen.toNat ∧ s.cur.klen.toNat ≤ 256 →
      ∃ t, exec .cinit s = .next t ∧ SameBut s.sel s t ∧ (∀ n, tableGet t.cur.sbox n = n) ∧ t.cur.i = 0 ∧ t.cur.j = 0 ∧
        t.cur.count = 0 ∧ t.cur.cphase = .ksa ∧ SameResult s.cur t.cur ∧ SameKey s.cur t.cur ∧ SameDecoder s.cur t.cur ∧
        SameBuffer s.cur t.cur ∧ SameCtrl s.cur t.cur ∧ SameError s.cur t.cur) ∧
    (s.cur.klen.toNat < 1 ∨ 256 < s.cur.klen.toNat →
      ∃ t, exec .cinit s = .next t ∧ SameBut s.sel s t ∧ t.cur.sbox = s.cur.sbox ∧ t.cur.i = 0 ∧ t.cur.j = 0 ∧
        t.cur.count = 0 ∧ t.cur.cphase = .unkeyed ∧ SameResult s.cur t.cur ∧ SameKey s.cur t.cur ∧
        SameDecoder s.cur t.cur ∧ SameBuffer s.cur t.cur ∧ SameCtrl s.cur t.cur ∧
        Recorded .keylen (BitVec.ofNat 32 s.cur.klen.toNat) 0 0 s.cur t.cur)

/-- R112, R115: KSTEP in phase KSA does one iteration of the key schedule, sums formed exactly and reduced mod 256; in any
other phase it is rejected with BAD_PHASE. The premise on KLEN is the invariant's (`Channel.Inv.schedule`). -/
def Obligations.KstepDoesOneIteration : Prop :=
  ∀ s : State,
    (s.cur.cphase = .ksa → 1 ≤ s.cur.klen.toNat ∧ s.cur.klen.toNat ≤ 256 →
      ∃ (t : State) (j : Byte), exec .kstep s = .next t ∧ SameBut s.sel s t ∧
        j.toNat = (s.cur.j.toNat + (tableGet s.cur.sbox s.cur.i).toNat +
          (tableGet s.cur.key (BitVec.ofNat 8 (s.cur.i.toNat % s.cur.klen.toNat))).toNat) % 256 ∧
        (∀ n, tableGet t.cur.sbox n =
          if n = j then tableGet s.cur.sbox s.cur.i
          else if n = s.cur.i then tableGet s.cur.sbox j else tableGet s.cur.sbox n) ∧
        (s.cur.i.toNat = 255 → t.cur.i = 0 ∧ t.cur.j = 0 ∧ t.cur.cphase = .ready) ∧
        (s.cur.i.toNat < 255 → t.cur.i.toNat = s.cur.i.toNat + 1 ∧ t.cur.j = j ∧ t.cur.cphase = .ksa) ∧
        t.cur.count = s.cur.count ∧ SameResult s.cur t.cur ∧ SameKey s.cur t.cur ∧ SameDecoder s.cur t.cur ∧
        SameBuffer s.cur t.cur ∧ SameCtrl s.cur t.cur ∧ SameError s.cur t.cur) ∧
    (s.cur.cphase ≠ .ksa → RejectsCommand .kstep .badPhase s)

/-- R116: KRUN in phase KSA performs the remaining 256 - i iterations, as that many KSTEPs do, and reaches READY; in any other
phase it is rejected with BAD_PHASE. -/
def Obligations.KrunFinishesTheSchedule : Prop :=
  ∀ s : State,
    (s.cur.cphase = .ksa → 1 ≤ s.cur.klen.toNat ∧ s.cur.klen.toNat ≤ 256 →
      ∃ t, exec .krun s = .next t ∧ execAll (List.replicate (256 - s.cur.i.toNat) .kstep) s = .next t ∧
        SameBut s.sel s t ∧ t.cur.cphase = .ready ∧ t.cur.i = 0 ∧ t.cur.j = 0 ∧ t.cur.count = s.cur.count ∧
        SameResult s.cur t.cur ∧ SameKey s.cur t.cur ∧ SameDecoder s.cur t.cur ∧ SameBuffer s.cur t.cur ∧
        SameCtrl s.cur t.cur ∧ SameError s.cur t.cur) ∧
    (s.cur.cphase ≠ .ksa → RejectsCommand .krun .badPhase s)

/-- 40_cipher.md section 3 ("Schedule length"): from a successful CINIT exactly 256 KSTEPs, or k KSTEPs and one KRUN, reach
READY, and no fewer do. -/
def Obligations.ScheduleTakes256Iterations : Prop :=
  ∀ s : State, 1 ≤ s.cur.klen.toNat ∧ s.cur.klen.toNat ≤ 256 →
    (∀ k, k < 256 → ∃ t, execAll (.cinit :: List.replicate k .kstep) s = .next t ∧ t.cur.cphase = .ksa ∧
      t.cur.i.toNat = k) ∧
    ∃ u, execAll (.cinit :: List.replicate 256 .kstep) s = .next u ∧ u.cur.cphase = .ready ∧ u.cur.i = 0 ∧ u.cur.j = 0 ∧
      u.cur.count = 0 ∧
      ∀ k, k < 256 → execAll (.cinit :: List.replicate k .kstep ++ [.krun]) s = .next u

/-- R113, R117: DEC in phase READY steps the generator once and leaves keystream byte and plaintext in RESULT; in any other
phase it is rejected with BAD_PHASE. -/
def Obligations.DecStepsTheGenerator : Prop :=
  ∀ (s : State) (d : Byte),
    (s.cur.cphase = .ready →
      ∃ t, exec (.dec d) s = .next t ∧ SameBut s.sel s t ∧
        t.cur.i.toNat = (s.cur.i.toNat + 1) % 256 ∧
        t.cur.j.toNat = (s.cur.j.toNat + (tableGet s.cur.sbox t.cur.i).toNat) % 256 ∧
        (∀ n, tableGet t.cur.sbox n =
          if n = t.cur.j then tableGet s.cur.sbox t.cur.i
          else if n = t.cur.i then tableGet s.cur.sbox t.cur.j else tableGet s.cur.sbox n) ∧
        t.cur.resultKs = tableGet t.cur.sbox
          (BitVec.ofNat 8 ((tableGet t.cur.sbox t.cur.i).toNat + (tableGet t.cur.sbox t.cur.j).toNat)) ∧
        t.cur.resultPt = d ^^^ t.cur.resultKs ∧ t.cur.count.toNat = (s.cur.count.toNat + 1) % 2 ^ 32 ∧
        t.cur.cphase = .ready ∧ SameKey s.cur t.cur ∧ SameDecoder s.cur t.cur ∧ SameBuffer s.cur t.cur ∧
        SameCtrl s.cur t.cur ∧ SameError s.cur t.cur) ∧
    (s.cur.cphase ≠ .ready → RejectsCommand (.dec d) .badPhase s)

/-- 40_cipher.md section 3 ("Stream position", "Which key is scheduled"): after a schedule the state (S, i, j) and the
keystream depend only on KEY[0..KLEN-1] and on the number of data bytes, not on the data, on other channels or on the earlier
state. -/
def Obligations.KeystreamDependsOnKeyAndPosition : Prop :=
  ∀ (s s' : State) (ds ds' : List Byte), 1 ≤ s.cur.klen.toNat ∧ s.cur.klen.toNat ≤ 256 → s'.cur.klen = s.cur.klen →
    (∀ n, n < s.cur.klen.toNat → tableGet s'.cur.key (BitVec.ofNat 8 n) = tableGet s.cur.key (BitVec.ofNat 8 n)) →
    ds'.length = ds.length →
    ∃ t t', execAll (.conn :: ds.map .dec) s = .next t ∧ execAll (.conn :: ds'.map .dec) s' = .next t' ∧
      SameStream t.cur t'.cur ∧ t.cur.cphase = .ready ∧ t.cur.count.toNat = ds.length % 2 ^ 32 ∧
      (ds ≠ [] → t'.cur.resultKs = t.cur.resultKs)

/-- 40_cipher.md section 3 ("Round trip"): what one channel encrypts after a schedule, a channel scheduled with the same key
decrypts. -/
def Obligations.EncryptThenDecryptIsIdentity : Prop :=
  ∀ (s s' t t' : State), 1 ≤ s.cur.klen.toNat ∧ s.cur.klen.toNat ≤ 256 → s'.cur.klen = s.cur.klen →
    (∀ n, n < s.cur.klen.toNat → tableGet s'.cur.key (BitVec.ofNat 8 n) = tableGet s.cur.key (BitVec.ofNat 8 n)) →
    exec .conn s = .next t → exec .conn s' = .next t' →
    ∀ ps : List Byte, ∃ cs u u', transformAll ps t = some (cs, u) ∧ transformAll cs t' = some (ps, u') ∧
      cs.length = ps.length

/-! ## Frame decoder -/

/-- R143, R145: FEED with no frame held gives the byte to the frame decoder and leaves the cipher, KEY and CTRL alone; with a
frame held it is rejected with FRAME_HELD. The premises are the invariant's. -/
def Obligations.FeedGivesTheByteToTheDecoder : Prop :=
  ∀ (s : State) (d : Byte),
    (s.params.wf = true → s.cur.Inv s.params → s.cur.fphase ≠ .held →
      ∃ t, exec (.feed d) s = .next t ∧ SameBut s.sel s t ∧ Accepts s.params d s.cur t.cur ∧ SameStream s.cur t.cur ∧
        SameResult s.cur t.cur ∧ SameKey s.cur t.cur ∧ SameCtrl s.cur t.cur) ∧
    (s.cur.fphase = .held → RejectsCommand (.feed d) .frameHeld s)

/-- R141, R142: the bytes of a header, fed to a decoder that stands before a frame, give the declared length, which fits the
length field's width: a length below HDR_SIZE or above MAX_FRAME is malformed (recorded with the type byte and the stream
offset of the header's first byte), every other is FLEN. -/
def Obligations.HeaderGivesTheDeclaredLength : Prop :=
  ∀ (s : State) (h : List Byte), s.params.wf = true → AtFrameStart s.cur → h.length = s.params.hdrSize →
    declaredLength s.params h < 256 ^ s.params.lenBytes ∧
    ∃ t, execAll (h.map .feed) s = .next t ∧
      (declaredLength s.params h < s.params.hdrSize ∨ s.params.maxFrame < declaredLength s.params h →
        t.cur.fphase = .discard ∧ t.cur.fcnt = 0 ∧ t.cur.flen = 0 ∧ t.cur.ftype = 0 ∧
          Recorded .malformedLen (BitVec.ofNat 32 (declaredLength s.params h)) s.cur.fpos (typeByte s.params h)
            s.cur t.cur) ∧
      (s.params.hdrSize ≤ declaredLength s.params h → declaredLength s.params h ≤ s.params.maxFrame →
        t.cur.flen.toNat = declaredLength s.params h ∧ t.cur.ftype = typeByte s.params h ∧ SameError s.cur t.cur ∧
          t.cur.fphase = if declaredLength s.params h = s.params.hdrSize then .held else .body)

/-- R144: the bytes of a well-formed frame, fed to a decoder that stands before it, leave exactly that frame held, with its type
byte, its length, FRAME_READY and the interrupt. -/
def Obligations.WholeFrameIsHeld : Prop :=
  ∀ (s : State) (f : List Byte), s.params.wf = true → AtFrameStart s.cur → s.cur.fbuf.wf = true →
    WellFormedFrame s.params f →
    ∃ t, execAll (f.map .feed) s = .next t ∧ t.cur.fphase = .held ∧ t.cur.flen.toNat = f.length ∧
      t.cur.ftype = typeByte s.params f ∧ bufferBytes t.cur f.length = f ∧ t.cur.fcnt.toNat = f.length ∧
      SameError s.cur t.cur ∧ (statusWord t.cur).getLsbD 4 = true ∧ (s.cur.ieFrame = true → irq t.cur = true)

/-- 41_frame.md section 4 ("No partial frame"): no command makes a frame held before its last byte: when FPHASE becomes HELD,
the declared length is valid and FCNT has reached it, in the step that took a byte. -/
def Obligations.NoPartialFrameIsHeld : Prop :=
  ∀ (i : Instr) (s t : State), s.Inv → exec i s = .next t → s.cur.fphase ≠ .held → t.cur.fphase = .held →
    (∃ d, i = .feed d ∨ i = .decf d) ∧ t.cur.fcnt.toNat = s.cur.fcnt.toNat + 1 ∧ t.cur.fcnt.toNat = t.cur.flen.toNat ∧
      s.params.hdrSize ≤ t.cur.flen.toNat ∧ t.cur.flen.toNat ≤ s.params.maxFrame

/-- 41_frame.md section 4 ("Chunk-boundary invariance", "Several frames per chunk"): a host that feeds a stream of
well-formed frames byte by byte, reads each held frame and releases it, gets exactly those frames in order. -/
def Obligations.StreamOfFramesIsSplitExactly : Prop :=
  ∀ (s : State) (fs : List (List Byte)), s.params.wf = true → AtFrameStart s.cur → s.cur.fbuf.wf = true →
    (∀ f ∈ fs, WellFormedFrame s.params f) →
    ∃ t, collectFrames fs.flatten s = some (fs, t) ∧ AtFrameStart t.cur

/-- R148: in DISCARD every byte FEED or DECF gives is counted in FPOS and dropped, however many, and nothing else changes but
that DECF advances the cipher as DEC does; FRST, CONN and CLOSE leave DISCARD for HDR, and no other command leaves it. -/
def Obligations.DiscardDropsEveryByte : Prop :=
  ∀ (s : State) (bs : List Byte), s.cur.fphase = .discard →
    (∃ t, execAll (bs.map .feed) s = .next t ∧ SameBut s.sel s t ∧ DropsBytes bs.length s.cur t.cur ∧
      SameStream s.cur t.cur ∧ SameResult s.cur t.cur ∧ SameKey s.cur t.cur ∧ SameCtrl s.cur t.cur) ∧
    (s.cur.cphase = .ready →
      ∃ t u, execAll (bs.map .decf) s = .next t ∧ execAll (bs.map .dec) s = .next u ∧ SameBut s.sel s t ∧
        DropsBytes bs.length s.cur t.cur ∧ SameStream u.cur t.cur ∧ SameResult u.cur t.cur ∧ SameKey s.cur t.cur ∧
        SameCtrl s.cur t.cur) ∧
    ∀ (i : Instr) (t : State), exec i s = .next t →
      t.cur.fphase = if i = .frst ∨ i = .conn ∨ i = .close then .hdr else .discard

/-- R146: FRST clears the frame decoder and its position, in every phase, and nothing else: not the buffer's bytes, the
cipher or the error state. -/
def Obligations.FrstClearsTheDecoder : Prop :=
  ∀ s : State, ∃ t, exec .frst s = .next t ∧ SameBut s.sel s t ∧ t.cur.fphase = .hdr ∧ t.cur.fcnt = 0 ∧ t.cur.flen = 0 ∧
    t.cur.ftype = 0 ∧ t.cur.fpos = 0 ∧ SameBuffer s.cur t.cur ∧ SameStream s.cur t.cur ∧ SameResult s.cur t.cur ∧
    SameKey s.cur t.cur ∧ SameCtrl s.cur t.cur ∧ SameError s.cur t.cur

/-- R147: FACK releases the held frame and keeps FPOS; with no frame held it is rejected with NO_FRAME. -/
def Obligations.FackReleasesTheHeldFrame : Prop :=
  ∀ s : State,
    (s.cur.fphase = .held →
      ∃ t, exec .fack s = .next t ∧ SameBut s.sel s t ∧ t.cur.fphase = .hdr ∧ t.cur.fcnt = 0 ∧ t.cur.flen = 0 ∧
        t.cur.ftype = 0 ∧ t.cur.fpos = s.cur.fpos ∧ SameBuffer s.cur t.cur ∧ SameStream s.cur t.cur ∧
        SameResult s.cur t.cur ∧ SameKey s.cur t.cur ∧ SameCtrl s.cur t.cur ∧ SameError s.cur t.cur ∧
        RejectsCommand .fack .noFrame t) ∧
    (s.cur.fphase ≠ .held → RejectsCommand .fack .noFrame s)

/-! ## Combined and lifecycle commands -/

/-- R170: NOP changes no state. -/
def Obligations.NopChangesNothing : Prop := ∀ s : State, exec .nop s = .next s

/-- R171: DECF in phase READY with no frame held is DEC, then FEED of the plaintext byte; BAD_PHASE is checked first, then
FRAME_HELD, and either rejection changes nothing else. -/
def Obligations.DecfIsDecThenFeedOfThePlaintext : Prop :=
  ∀ (s : State) (d : Byte),
    (s.cur.cphase = .ready → s.cur.fphase ≠ .held →
      ∃ u t, exec (.dec d) s = .next u ∧ exec (.feed u.cur.resultPt) u = .next t ∧ exec (.decf d) s = .next t ∧
        SameBut s.sel s t ∧ SameStream u.cur t.cur ∧ SameResult u.cur t.cur ∧ SameKey s.cur t.cur ∧
        SameCtrl s.cur t.cur ∧ u.cur.fphase ≠ .held) ∧
    (s.cur.cphase ≠ .ready → RejectsCommand (.decf d) .badPhase s) ∧
    (s.cur.cphase = .ready → s.cur.fphase = .held → RejectsCommand (.decf d) .frameHeld s)

/-- R172: CONN with a usable KLEN is CINIT, KRUN, FRST in one and leaves the cipher READY at position 0; with any other KLEN
it leaves the cipher UNKEYED with S as it was, records KEYLEN, and still clears the frame decoder. -/
def Obligations.ConnStartsAConnection : Prop :=
  ∀ s : State,
    (1 ≤ s.cur.klen.toNat ∧ s.cur.klen.toNat ≤ 256 →
      ∃ t, exec .conn s = .next t ∧ execAll [.cinit, .krun, .frst] s = .next t ∧ SameBut s.sel s t ∧
        t.cur.cphase = .ready ∧ t.cur.i = 0 ∧ t.cur.j = 0 ∧ t.cur.count = 0 ∧ AtFrameStart t.cur ∧ t.cur.fpos = 0 ∧
        SameBuffer s.cur t.cur ∧ SameResult s.cur t.cur ∧ SameKey s.cur t.cur ∧ SameCtrl s.cur t.cur ∧
        SameError s.cur t.cur) ∧
    (s.cur.klen.toNat < 1 ∨ 256 < s.cur.klen.toNat →
      ∃ t, exec .conn s = .next t ∧ SameBut s.sel s t ∧ t.cur.sbox = s.cur.sbox ∧ t.cur.cphase = .unkeyed ∧
        t.cur.i = 0 ∧ t.cur.j = 0 ∧ t.cur.count = 0 ∧ AtFrameStart t.cur ∧ t.cur.fpos = 0 ∧ SameBuffer s.cur t.cur ∧
        SameResult s.cur t.cur ∧ SameKey s.cur t.cur ∧ SameCtrl s.cur t.cur ∧
        Recorded .keylen (BitVec.ofNat 32 s.cur.klen.toNat) 0 0 s.cur t.cur)

/-- 42_connection.md section 1, an inference the spec marks as its own ("with a valid KLEN two CONN in a row leave the same
state as one"): nothing CONN writes depends on the state it overwrites; with any other KLEN the second CONN also records
KEYLEN, which sets ERR_OVF and changes nothing else. -/
def Obligations.SecondConnChangesNothing : Prop :=
  ∀ s t : State, exec .conn s = .next t →
    (1 ≤ s.cur.klen.toNat ∧ s.cur.klen.toNat ≤ 256 → exec .conn t = .next t) ∧
    (s.cur.klen.toNat < 1 ∨ 256 < s.cur.klen.toNat →
      ∃ u, exec .conn t = .next u ∧ SameBut s.sel t u ∧ SameButError t.cur u.cur ∧ u.cur.errOvf = true)

/-- R173: CLOSE leaves the cipher UNKEYED at position 0, S as it was, clears the frame decoder and keeps the rest; twice is
the same as once, and DEC and DECF are rejected after it. -/
def Obligations.CloseEndsTheConnection : Prop :=
  ∀ s : State, ∃ t, exec .close s = .next t ∧ SameBut s.sel s t ∧ t.cur.sbox = s.cur.sbox ∧ t.cur.cphase = .unkeyed ∧
    t.cur.i = 0 ∧ t.cur.j = 0 ∧ t.cur.count = 0 ∧ AtFrameStart t.cur ∧ t.cur.fpos = 0 ∧ SameBuffer s.cur t.cur ∧
    SameResult s.cur t.cur ∧ SameKey s.cur t.cur ∧ SameCtrl s.cur t.cur ∧ SameError s.cur t.cur ∧
    exec .close t = .next t ∧ ∀ d, RejectsCommand (.dec d) .badPhase t ∧ RejectsCommand (.decf d) .badPhase t

/-! ## Whole-machine rules over the commands -/

/-- 10_state.md section 1 (who writes S, RESULT, KEY, KLEN, the frame decoder, FBUF and CTRL): every command leaves everything
outside the addressed channel, KEY, KLEN and CTRL alone, and each other part alone but for the commands named. -/
def Obligations.CommandsLeaveTheRestAlone : Prop :=
  ∀ (i : Instr) (s t : State), exec i s = .next t →
    SameBut s.sel s t ∧ SameKey s.cur t.cur ∧ SameCtrl s.cur t.cur ∧
    (i = .nop ∨ (∃ d, i = .feed d) ∨ i = .frst ∨ i = .fack → SameStream s.cur t.cur) ∧
    (i = .close → t.cur.sbox = s.cur.sbox) ∧
    ((∀ d, i ≠ .dec d) → (∀ d, i ≠ .decf d) → SameResult s.cur t.cur) ∧
    (i = .nop ∨ i = .cinit ∨ i = .kstep ∨ i = .krun ∨ (∃ d, i = .dec d) → SameDecoder s.cur t.cur) ∧
    ((∀ d, i ≠ .decf d) → (∀ d, i ≠ .feed d) → SameBuffer s.cur t.cur) ∧
    (s.cur.fbuf.wf = true → SameBufferBut s.cur.fcnt.toNat s.cur t.cur) ∧
    (i = .nop ∨ i = .frst ∨ i = .close → SameError s.cur t.cur)

/-- 40_cipher.md section 3 ("Never rewound") and 10_state.md section 1 (COUNT, FPOS): a command leaves COUNT, adds one to it
(DEC, DECF only) or clears it (CINIT, CONN, CLOSE only), and likewise FPOS (FEED, DECF; FRST, CONN, CLOSE). -/
def Obligations.CountersMoveByOneOrAreCleared : Prop :=
  ∀ (i : Instr) (s t : State), exec i s = .next t →
    (t.cur.count = s.cur.count ∨
      (t.cur.count.toNat = (s.cur.count.toNat + 1) % 2 ^ 32 ∧ ∃ d, i = .dec d ∨ i = .decf d) ∨
      (t.cur.count = 0 ∧ (i = .cinit ∨ i = .conn ∨ i = .close))) ∧
    (t.cur.fpos = s.cur.fpos ∨
      (t.cur.fpos.toNat = (s.cur.fpos.toNat + 1) % 2 ^ 32 ∧ ∃ d, i = .feed d ∨ i = .decf d) ∨
      (t.cur.fpos = 0 ∧ (i = .frst ∨ i = .conn ∨ i = .close)))

/-- 60_exceptions.md section 2 ("Enable, pending, clear"): only FACK, FRST, CONN and CLOSE release a held frame, and every
other command leaves it as it is. -/
def Obligations.HeldFrameIsReleasedByFourCommands : Prop :=
  ∀ (i : Instr) (s t : State), exec i s = .next t → s.cur.fphase = .held →
    (i = .fack ∨ i = .frst ∨ i = .conn ∨ i = .close) ∧ t.cur.fphase = .hdr ∨
      SameDecoder s.cur t.cur ∧ SameBuffer s.cur t.cur

/-! ## Registers -/

/-- R38: the interrupt output is a level, a function of the channel's state, and STATUS shows it. -/
def Obligations.IrqIsALevelOfTheState : Prop :=
  ∀ ch : Channel,
    (irq ch = true ↔ (ch.ieFrame = true ∧ ch.fphase = .held) ∨ (ch.ieErr = true ∧ ch.err = true)) ∧
      (statusWord ch).getLsbD 7 = irq ch

/-- R41: CTRL, read, written and after reset. -/
def Obligations.CtrlRegister : Prop :=
  (∀ (s : State) (c : Chan) (rest : List HostEvent),
    ReadsAs s c rest 0x000 (BitVec.ofNat 32 ((s.chan c).ieFrame.toNat + 2 * (s.chan c).ieErr.toNat)) ∧
    ∀ v, WritesAs s c rest 0x000 v (fun a b =>
      b.ieFrame = v.getLsbD 0 ∧ b.ieErr = v.getLsbD 1 ∧ SameStream a b ∧ SameResult a b ∧ SameKey a b ∧ SameDecoder a b ∧
        SameBuffer a b ∧ SameError a b)) ∧
  ReadsZeroAfterReset 0x000

/-- R42: STATUS, field by field, with the numbers 10_state.md section 1 gives CPHASE and FPHASE and 60_exceptions.md section 1
gives ERRCODE; read-only; 0 after reset. -/
def Obligations.StatusRegister : Prop :=
  (CPhase.bits .unkeyed = 0 ∧ CPhase.bits .ksa = 1 ∧ CPhase.bits .ready = 2) ∧
  (FPhase.bits .hdr = 0 ∧ FPhase.bits .body = 1 ∧ FPhase.bits .held = 2 ∧ FPhase.bits .discard = 3) ∧
  (ErrCode.bits .none = 0x00 ∧ ErrCode.bits .illegalCmd = 0x01 ∧ ErrCode.bits .badPhase = 0x02 ∧
    ErrCode.bits .keylen = 0x03 ∧ ErrCode.bits .frameHeld = 0x04 ∧ ErrCode.bits .malformedLen = 0x05 ∧
    ErrCode.bits .keyLocked = 0x06 ∧ ErrCode.bits .badAddr = 0x07 ∧ ErrCode.bits .noFrame = 0x08) ∧
  (∀ (s : State) (c : Chan) (rest : List HostEvent),
    (Waiting s (.read (busAddr c 0x004)) rest →
      ∃ v, AnswersRead s c rest v ∧ v.extractLsb' 0 2 = (s.chan c).cphase.bits ∧
        v.extractLsb' 2 2 = (s.chan c).fphase.bits ∧ (v.getLsbD 4 = true ↔ (s.chan c).fphase = .held) ∧
        v.getLsbD 5 = (s.chan c).err ∧ v.getLsbD 6 = (s.chan c).errOvf ∧ v.getLsbD 7 = irq (s.chan c) ∧
        v.extractLsb' 8 8 = (s.chan c).errcode.bits ∧ v.extractLsb' 16 16 = 0) ∧
    RefusesWrites s c rest 0x004) ∧
  ReadsZeroAfterReset 0x004

/-- R43: a write of ERRCLR with bit 0 set clears the error state, with bit 0 clear it has no effect; a read returns 0. -/
def Obligations.ErrclrRegister : Prop :=
  ∀ (s : State) (c : Chan) (rest : List HostEvent),
    ReadsAs s c rest 0x008 0 ∧
    ∀ v, WritesAs s c rest 0x008 v (fun a b =>
      (v.getLsbD 0 = true → SameButError a b ∧ b.err = false ∧ b.errOvf = false ∧ b.errcode = .none ∧ b.errInfo = 0 ∧
        b.errPos = 0 ∧ b.errType = 0) ∧
      (v.getLsbD 0 = false → b = a))

/-- R44: KEYLEN stores all nine bits, and is refused with KEY_LOCKED in phase KSA; after reset it reads the length of the
channel's static key. -/
def Obligations.KeylenRegister : Prop :=
  (∀ (s : State) (c : Chan) (rest : List HostEvent),
    ReadsAs s c rest 0x00C (BitVec.ofNat 32 (s.chan c).klen.toNat) ∧
    ∀ v, WritesAs s c rest 0x00C v (fun a b =>
      (a.cphase = .ksa → Rejected .keyLocked 0x00C a b) ∧
      (a.cphase ≠ .ksa → b.klen.toNat = v.toNat % 512 ∧ b.key = a.key ∧ SameStream a b ∧ SameResult a b ∧
        SameDecoder a b ∧ SameBuffer a b ∧ SameCtrl a b ∧ SameError a b))) ∧
  ∀ c, ReadsAfterReset c 0x00C (fun p v => v = BitVec.ofNat 32 (p.keyInit c).length)

/-- R46 to R52: what the plain read-only registers read as, that they refuse writes, and that they read 0 after reset; and the
same of the three registers of the error information (10_state.md section 2), of which ERR_POS and ERR_TYPE read 0 for every
error but MALFORMED_LEN. -/
def Obligations.ReadOnlyRegisters : Prop :=
  (∀ (s : State) (c : Chan) (rest : List HostEvent),
    ReadsAs s c rest 0x014 (BitVec.ofNat 32 ((s.chan c).resultPt.toNat + 256 * (s.chan c).resultKs.toNat)) ∧
    ReadsAs s c rest 0x018 (BitVec.ofNat 32 ((s.chan c).i.toNat + 256 * (s.chan c).j.toNat)) ∧
    ReadsAs s c rest 0x01C (s.chan c).count ∧
    ReadsAs s c rest 0x020 (BitVec.ofNat 32 (s.chan c).ftype.toNat) ∧
    ReadsAs s c rest 0x024 (s.chan c).flen ∧
    ReadsAs s c rest 0x028 (BitVec.ofNat 32 (s.chan c).fcnt.toNat) ∧
    ReadsAs s c rest 0x02C (s.chan c).fpos ∧
    ReadsAs s c rest 0x030 (s.chan c).errInfo ∧
    ReadsAs s c rest 0x034 (s.chan c).errPos ∧
    ReadsAs s c rest 0x038 (BitVec.ofNat 32 (s.chan c).errType.toNat) ∧
    ((s.chan c).Inv s.params → (s.chan c).errcode ≠ .malformedLen →
      ReadsAs s c rest 0x034 0 ∧ ReadsAs s c rest 0x038 0)) ∧
  ∀ o : Offset, 0x014 ≤ o.toNat → o.toNat ≤ 0x038 → o.toNat % 4 = 0 →
    (∀ (s : State) (c : Chan) (rest : List HostEvent), RefusesWrites s c rest o) ∧ ReadsZeroAfterReset o

/-- R56, R57: PARAM and MAXFRAME give the parameters and refuse writes; with the default parameters MAXFRAME reads
0x0001_0000. -/
def Obligations.ParameterRegisters : Prop :=
  ∀ (s : State) (c : Chan) (rest : List HostEvent),
    (Waiting s (.read (busAddr c 0x03C)) rest →
      ∃ v, AnswersRead s c rest v ∧ ShowsParams s.params v) ∧
    ReadsAs s c rest 0x040 (BitVec.ofNat 32 s.params.maxFrame) ∧
    RefusesWrites s c rest 0x03C ∧ RefusesWrites s c rest 0x040 ∧
    (s.params = Params.default → ReadsAs s c rest 0x040 0x00010000)

/-! ## The bus -/

/-- R64: a misaligned read returns 0, a misaligned write changes nothing, and both record BAD_ADDR with the offset. -/
def Obligations.MisalignedTransactions : Prop :=
  ∀ (s : State) (c : Chan) (rest : List HostEvent) (o : Offset), o.toNat % 4 ≠ 0 →
    (Waiting s (.read (busAddr c o)) rest → AnswersBadRead s c rest (BitVec.ofNat 32 o.toNat)) ∧
    RefusesWrites s c rest o

/-- R65: an aligned read at an unmapped offset (R63) returns 0 and records BAD_ADDR with the offset. -/
def Obligations.UnmappedReads : Prop :=
  ∀ (s : State) (c : Chan) (rest : List HostEvent) (o : Offset), o.toNat % 4 = 0 →
    (0x44 ≤ o.toNat ∧ o.toNat ≤ 0x3FF) ∨ (0xC00 ≤ o.toNat ∧ o.toNat ≤ 0x7FFFF) ∨
      0x80000 + 4 * s.params.maxFrame ≤ o.toNat →
    Waiting s (.read (busAddr c o)) rest → AnswersBadRead s c rest (BitVec.ofNat 32 o.toNat)

/-- R66: an aligned write to a read-only register, to the SBOX or FBUF window or to an unmapped offset changes nothing but
that it records BAD_ADDR. -/
def Obligations.WritesToReadOnlyOffsets : Prop :=
  ∀ (s : State) (c : Chan) (rest : List HostEvent) (o : Offset), o.toNat % 4 = 0 →
    o.toNat = 0x004 ∨ (0x014 ≤ o.toNat ∧ o.toNat ≤ 0x3FF) ∨ 0x800 ≤ o.toNat →
    RefusesWrites s c rest o

/-- R67: the write-only registers ERRCLR and CMD read 0, execute nothing and record no error. -/
def Obligations.WriteOnlyRegistersReadZero : Prop :=
  ∀ (s : State) (c : Chan) (rest : List HostEvent), ReadsAs s c rest 0x008 0 ∧ ReadsAs s c rest 0x010 0

/-- R68: the KEY window, read and written, and its lock in phase KSA, which KEYLEN shares. A byte neither loaded nor written is whatever the store
holds, the same at every read, since a read returns the stored byte and changes nothing. -/
def Obligations.KeyWindow : Prop :=
  ∀ (s : State) (c : Chan) (rest : List HostEvent) (n : Nat), n < 256 →
    ReadsAs s c rest (BitVec.ofNat 20 (0x400 + 4 * n)) (zextByte (tableGet (s.chan c).key (BitVec.ofNat 8 n))) ∧
    (∀ v, WritesAs s c rest (BitVec.ofNat 20 (0x400 + 4 * n)) v (fun a b =>
      (a.cphase = .ksa → Rejected .keyLocked (BitVec.ofNat 32 (0x400 + 4 * n)) a b) ∧
      (a.cphase ≠ .ksa → (tableGet b.key (BitVec.ofNat 8 n)).toNat = v.toNat % 256 ∧
        (∀ m, m ≠ BitVec.ofNat 8 n → tableGet b.key m = tableGet a.key m) ∧ b.klen = a.klen ∧ SameStream a b ∧
        SameResult a b ∧ SameDecoder a b ∧ SameBuffer a b ∧ SameCtrl a b ∧ SameError a b))) ∧
    ∀ v, WritesAs s c rest 0x00C v (fun a b => a.cphase = .ksa → Rejected .keyLocked 0x00C a b)

/-- 20_memory.md section 2 (SBOX window): the window reads S, changes nothing and refuses writes. That a read before the first
schedule since reset, of which the spec says only that it returns some byte, returns the stored byte is the model's choice
(notes/assumptions/5.md). -/
def Obligations.SboxWindow : Prop :=
  ∀ (s : State) (c : Chan) (rest : List HostEvent) (n : Nat), n < 256 →
    ReadsAs s c rest (BitVec.ofNat 20 (0x800 + 4 * n)) (zextByte (tableGet (s.chan c).sbox (BitVec.ofNat 8 n))) ∧
    RefusesWrites s c rest (BitVec.ofNat 20 (0x800 + 4 * n))

/-- R70: the FBUF window reads the bytes below FCNT, so all FLEN bytes of a held frame; at and above FCNT it returns some byte,
zero-extended. A read changes neither channel, writes are refused, and of the commands only FACK, FRST, CONN and CLOSE release
a held frame. -/
def Obligations.FbufWindow : Prop :=
  ∀ (s : State) (c : Chan) (rest : List HostEvent) (n : Nat), n < s.params.maxFrame →
    (n < (s.chan c).fcnt.toNat →
      ReadsAs s c rest (BitVec.ofNat 20 (0x80000 + 4 * n)) (zextByte (Memory.read (s.chan c).fbuf n))) ∧
    ((s.chan c).fcnt.toNat ≤ n → Waiting s (.read (busAddr c (BitVec.ofNat 20 (0x80000 + 4 * n)))) rest →
      ∃ (t : State) (b : Byte), step s = .next t ∧ t.params = s.params ∧ (∀ d, t.chan d = s.chan d) ∧ t.sel = c ∧
        t.pending = rest ∧ t.replies = zextByte b :: s.replies) ∧
    ((s.chan c).fphase = .held → (s.chan c).Inv s.params → n < (s.chan c).flen.toNat →
      ReadsAs s c rest (BitVec.ofNat 20 (0x80000 + 4 * n)) (zextByte (Memory.read (s.chan c).fbuf n))) ∧
    RefusesWrites s c rest (BitVec.ofNat 20 (0x80000 + 4 * n)) ∧
    ∀ (i : Instr) (t : State), exec i s = .next t → s.cur.fphase = .held →
      t.cur.fphase = .held ∨ i = .fack ∨ i = .frst ∨ i = .conn ∨ i = .close

/-- 20_memory.md section 1 (Channel select) and section 4 ("Channels are independent", an inference the spec marks as its own):
bit 20 of an address selects the channel and the low 20 bits are the offset; what any interleaving of transactions leaves in a channel is decided by that channel's own state and by
the transactions addressed to it. -/
def Obligations.ChannelsAreIndependent : Prop :=
  (∀ a : Addr, (chanOf a = .c1 ↔ 0x100000 ≤ a.toNat) ∧ (offsetOf a).toNat = a.toNat % 0x100000) ∧
  ∀ (c : Chan) (s s' : State) (es es' : List HostEvent), s'.params = s.params → s'.chan c = s.chan c →
    (∀ e ∈ es, e.isTransaction = true) → (∀ e ∈ es', e.isTransaction = true) →
    es'.filter (HostEvent.addresses c) = es.filter (HostEvent.addresses c) →
    ∃ t t', performAll es s = .next t ∧ performAll es' s' = .next t' ∧ t'.chan c = t.chan c

/-- 60_exceptions.md section 3 ("Between transactions it is idle and holds its state"). That idleness is a step of its own is the
model's choice (notes/assumptions/2.md). -/
def Obligations.IdleCoreHoldsItsState : Prop :=
  ∀ s : State, s.params.wf = true → s.pending = [] → step s = .next s

/-! ## Errors -/

/-- R192: RecordError keeps the first error whole and lets a later one set ERR_OVF only, and touches nothing else; once an error
is recorded no transaction but a write of 1 to ERRCLR of that channel changes what is recorded. -/
def Obligations.FirstErrorIsKeptUntilErrclr : Prop :=
  (∀ (code : ErrCode) (info pos : Word) (type : Byte) (ch : Channel),
    SameButError ch (recordError code info pos type ch) ∧ Recorded code info pos type ch (recordError code info pos type ch)) ∧
  ∀ (s t : State) (e : HostEvent) (rest : List HostEvent) (c : Chan), Waiting s e rest → e.isTransaction = true →
    step s = .next t → (s.chan c).err = true → (∀ v, e = .write (busAddr c 0x008) v → v.getLsbD 0 = false) →
    (t.chan c).err = true ∧ (t.chan c).errcode = (s.chan c).errcode ∧ (t.chan c).errInfo = (s.chan c).errInfo ∧
      (t.chan c).errPos = (s.chan c).errPos ∧ (t.chan c).errType = (s.chan c).errType ∧
      ((s.chan c).errOvf = true → (t.chan c).errOvf = true)

/-- 60_exceptions.md section 1 ("A transaction records at most one error"): a step that starts with no error recorded never
sets ERR_OVF, which a second error would. -/
def Obligations.AtMostOneErrorPerTransaction : Prop :=
  ∀ (s t : State) (c : Chan), step s = .next t → (s.chan c).err = false → (s.chan c).errOvf = false →
    (t.chan c).errOvf = false

/-- 70_reset_and_hazards.md section 3 ("KSA-phase lock is not a hazard"): in phase KSA no transaction changes KEY or KLEN. -/
def Obligations.KeyIsLockedDuringTheSchedule : Prop :=
  ∀ (s t : State) (e : HostEvent) (rest : List HostEvent) (c : Chan), Waiting s e rest → e.isTransaction = true →
    step s = .next t → (s.chan c).cphase = .ksa → SameKey (s.chan c) (t.chan c)

/-- 60_exceptions.md section 1 ("No error stops a channel") and 00_scope.md section 3 ("a model refuses it"): a step of a
machine with legal parameters is a next state; with any other it is refused. -/
def Obligations.NothingStopsALegalCore : Prop :=
  ∀ s : State,
    (s.params.wf = true → ∃ t, step s = .next t) ∧ (s.params.wf = false → step s = .refused .notAConfiguration)

/-! ## Reset and invariants -/

/-- R220: what reset leaves in both channels, right after power-on and at every reset between transactions, one reset for both;
and what every register then reads. The bytes reset leaves unspecified are not constrained. -/
def Obligations.ResetLeavesTheResetValues : Prop :=
  (∀ p : Params, p.wf = true → ∀ c, IsReset p c ((State.resetWith p).chan c)) ∧
  (∀ (s : State) (rest : List HostEvent), Waiting s .reset rest →
    ∃ t, step s = .next t ∧ (∀ c, IsReset s.params c (t.chan c)) ∧ t.params = s.params) ∧
  (∀ o : Offset, o.toNat % 4 = 0 → o.toNat ≤ 0x038 → o ≠ 0x00C → ReadsZeroAfterReset o) ∧
  ∀ c, ReadsAfterReset c 0x00C (fun p v => v = BitVec.ofNat 32 (p.keyInit c).length) ∧
    ReadsAfterReset c 0x03C ShowsParams ∧ ReadsAfterReset c 0x040 (fun p v => v = BitVec.ofNat 32 p.maxFrame)

/-- The model's choices about reset, no rule of the spec: a reset leaves the host's side of the bus, the events still pending
(notes/assumptions/18.md), the values already returned (4.md) and the channel last addressed (3.md, 18.md); and the machine's
one reset state is that of the default parameters with empty keys (1.md). -/
def Obligations.ResetKeepsTheHostsSide : Prop :=
  State.reset = State.resetWith Params.default ∧
  ∀ (s : State) (rest : List HostEvent), Waiting s .reset rest →
    ∃ t, step s = .next t ∧ t.pending = rest ∧ t.replies = s.replies ∧ t.sel = s.sel

/-- 70_reset_and_hazards.md section 1, an inference the spec marks as its own: a reset during a transaction abandons it: the state after is a state after reset, and an abandoned read returns some
word, of which nothing is said. That the abandoned transaction is one event with the reset, and that the host's side stays, is
the model's choice (notes/assumptions/4.md, 8.md, 17.md, 18.md). -/
def Obligations.ResetAbandonsATransaction : Prop :=
  ∀ (s : State) (rest : List HostEvent) (a : Addr),
    (Waiting s (.resetInRead a) rest →
      ∃ (t : State) (v : Word), step s = .next t ∧ (∀ c, IsReset s.params c (t.chan c)) ∧ t.params = s.params ∧
        t.pending = rest ∧ t.replies = v :: s.replies) ∧
    ∀ v, Waiting s (.resetInWrite a v) rest →
      ∃ t, step s = .next t ∧ (∀ c, IsReset s.params c (t.chan c)) ∧ t.params = s.params ∧ t.pending = rest ∧
        t.replies = s.replies

/-- 10_state.md section 1 ("Invariants"): the machine after reset meets the invariant, for every legal configuration; and, an
inference 70_reset_and_hazards.md section 1 marks as its own, both interrupt outputs are low. -/
def Obligations.ResetMeetsTheInvariant : Prop :=
  ∀ p : Params, p.wf = true → (State.resetWith p).Inv ∧ ∀ c, irq ((State.resetWith p).chan c) = false

/-- 10_state.md section 1 ("Invariants"): every step keeps the invariant, from every state that meets it. The clauses on FBUF's
cells are about the model's own form of the buffer (notes/assumptions/7.md); the others are the spec's. -/
def Obligations.EveryStepKeepsTheInvariant : Prop := ∀ s t : State, s.Inv → step s = .next t → t.Inv
end

