-- ==== Sys2Proof/Laws/Errors.lean ====
section
/-! SUPPORT. Recording an error (60_exceptions.md R192): everything it can do, and that it touches nothing but the error state. -/

namespace Sys2Proof.Machine

@[simp] theorem recordError_sbox (code : ErrCode) (info pos : Word) (type : Byte) (ch : Channel) :
    (recordError code info pos type ch).sbox = ch.sbox := by unfold recordError; split <;> rfl
@[simp] theorem recordError_i (code : ErrCode) (info pos : Word) (type : Byte) (ch : Channel) :
    (recordError code info pos type ch).i = ch.i := by unfold recordError; split <;> rfl
@[simp] theorem recordError_j (code : ErrCode) (info pos : Word) (type : Byte) (ch : Channel) :
    (recordError code info pos type ch).j = ch.j := by unfold recordError; split <;> rfl
@[simp] theorem recordError_cphase (code : ErrCode) (info pos : Word) (type : Byte) (ch : Channel) :
    (recordError code info pos type ch).cphase = ch.cphase := by unfold recordError; split <;> rfl
@[simp] theorem recordError_count (code : ErrCode) (info pos : Word) (type : Byte) (ch : Channel) :
    (recordError code info pos type ch).count = ch.count := by unfold recordError; split <;> rfl
@[simp] theorem recordError_resultPt (code : ErrCode) (info pos : Word) (type : Byte) (ch : Channel) :
    (recordError code info pos type ch).resultPt = ch.resultPt := by unfold recordError; split <;> rfl
@[simp] theorem recordError_resultKs (code : ErrCode) (info pos : Word) (type : Byte) (ch : Channel) :
    (recordError code info pos type ch).resultKs = ch.resultKs := by unfold recordError; split <;> rfl
@[simp] theorem recordError_key (code : ErrCode) (info pos : Word) (type : Byte) (ch : Channel) :
    (recordError code info pos type ch).key = ch.key := by unfold recordError; split <;> rfl
@[simp] theorem recordError_klen (code : ErrCode) (info pos : Word) (type : Byte) (ch : Channel) :
    (recordError code info pos type ch).klen = ch.klen := by unfold recordError; split <;> rfl
@[simp] theorem recordError_fphase (code : ErrCode) (info pos : Word) (type : Byte) (ch : Channel) :
    (recordError code info pos type ch).fphase = ch.fphase := by unfold recordError; split <;> rfl
@[simp] theorem recordError_fcnt (code : ErrCode) (info pos : Word) (type : Byte) (ch : Channel) :
    (recordError code info pos type ch).fcnt = ch.fcnt := by unfold recordError; split <;> rfl
@[simp] theorem recordError_flen (code : ErrCode) (info pos : Word) (type : Byte) (ch : Channel) :
    (recordError code info pos type ch).flen = ch.flen := by unfold recordError; split <;> rfl
@[simp] theorem recordError_ftype (code : ErrCode) (info pos : Word) (type : Byte) (ch : Channel) :
    (recordError code info pos type ch).ftype = ch.ftype := by unfold recordError; split <;> rfl
@[simp] theorem recordError_fpos (code : ErrCode) (info pos : Word) (type : Byte) (ch : Channel) :
    (recordError code info pos type ch).fpos = ch.fpos := by unfold recordError; split <;> rfl
@[simp] theorem recordError_fbuf (code : ErrCode) (info pos : Word) (type : Byte) (ch : Channel) :
    (recordError code info pos type ch).fbuf = ch.fbuf := by unfold recordError; split <;> rfl
@[simp] theorem recordError_ieFrame (code : ErrCode) (info pos : Word) (type : Byte) (ch : Channel) :
    (recordError code info pos type ch).ieFrame = ch.ieFrame := by unfold recordError; split <;> rfl
@[simp] theorem recordError_ieErr (code : ErrCode) (info pos : Word) (type : Byte) (ch : Channel) :
    (recordError code info pos type ch).ieErr = ch.ieErr := by unfold recordError; split <;> rfl

/-- Recording an error changes the error state alone. -/
theorem recordError_sameButError (code : ErrCode) (info pos : Word) (type : Byte) (ch : Channel) :
    SameButError ch (recordError code info pos type ch) := by
  refine ⟨⟨?_, ?_, ?_, ?_, ?_⟩, ⟨?_, ?_⟩, ⟨?_, ?_⟩, ⟨?_, ?_, ?_, ?_, ?_⟩, ?_, ⟨?_, ?_⟩⟩ <;> simp

/-- What recording an error does to the error state. -/
theorem recordError_recorded (code : ErrCode) (info pos : Word) (type : Byte) (ch : Channel) :
    Recorded code info pos type ch (recordError code info pos type ch) := by
  unfold Recorded recordError
  cases ch.err <;> simp

/-- A rejection: nothing but the error state, which records the code and the word. -/
theorem reject_rejected (code : ErrCode) (info : Word) (ch : Channel) : Rejected code info ch (reject code info ch) :=
  ⟨recordError_sameButError .., recordError_recorded ..⟩

/-- Recording an error that has a code keeps ERRCODE = 0 iff ERR = 0, and ERR_OVF only with ERR (10_state.md R39 (e)). -/
theorem recordError_errorClause {code : ErrCode} (hc : code ≠ .none) (info pos : Word) (type : Byte) {ch : Channel}
    (h : (ch.errcode = .none ↔ ch.err = false) ∧ (ch.errOvf = true → ch.err = true)) :
    ((recordError code info pos type ch).errcode = .none ↔ (recordError code info pos type ch).err = false) ∧
      ((recordError code info pos type ch).errOvf = true → (recordError code info pos type ch).err = true) := by
  unfold recordError
  cases he : ch.err <;> simp_all

end Sys2Proof.Machine
end

