-- ==== Sys2Proof/Laws/State.lean ====
section
/-! SUPPORT. The state's accessors and updates, one lemma per field per update, so that no later proof unfolds a record update. -/

namespace Sys2Proof.Machine

/-! ## `setChan` -/

@[simp] theorem State.setChan_params (s : State) (c : Chan) (ch : Channel) : (s.setChan c ch).params = s.params := by
  cases c <;> rfl
@[simp] theorem State.setChan_sel (s : State) (c : Chan) (ch : Channel) : (s.setChan c ch).sel = s.sel := by cases c <;> rfl
@[simp] theorem State.setChan_pending (s : State) (c : Chan) (ch : Channel) : (s.setChan c ch).pending = s.pending := by
  cases c <;> rfl
@[simp] theorem State.setChan_replies (s : State) (c : Chan) (ch : Channel) : (s.setChan c ch).replies = s.replies := by
  cases c <;> rfl
@[simp] theorem State.setChan_draws (s : State) (c : Chan) (ch : Channel) : (s.setChan c ch).draws = s.draws := by
  cases c <;> rfl
@[simp] theorem State.chan_setChan_self (s : State) (c : Chan) (ch : Channel) : (s.setChan c ch).chan c = ch := by
  cases c <;> rfl
theorem State.chan_setChan_other (s : State) {c d : Chan} (ch : Channel) (h : d ≠ c) :
    (s.setChan c ch).chan d = s.chan d := by
  cases c <;> cases d <;> first | rfl | exact absurd rfl h
@[simp] theorem State.setChan_chan (s : State) (c : Chan) : s.setChan c (s.chan c) = s := by cases c <;> rfl
@[simp] theorem State.setChan_setChan (s : State) (c : Chan) (a b : Channel) :
    (s.setChan c a).setChan c b = s.setChan c b := by cases c <;> rfl

/-! ## `onCur` -/

@[simp] theorem State.onCur_params (s : State) (f : Channel → Channel) : (s.onCur f).params = s.params := by simp [State.onCur]
@[simp] theorem State.onCur_sel (s : State) (f : Channel → Channel) : (s.onCur f).sel = s.sel := by simp [State.onCur]
@[simp] theorem State.onCur_pending (s : State) (f : Channel → Channel) : (s.onCur f).pending = s.pending := by
  simp [State.onCur]
@[simp] theorem State.onCur_replies (s : State) (f : Channel → Channel) : (s.onCur f).replies = s.replies := by
  simp [State.onCur]
@[simp] theorem State.onCur_draws (s : State) (f : Channel → Channel) : (s.onCur f).draws = s.draws := by simp [State.onCur]
@[simp] theorem State.cur_onCur (s : State) (f : Channel → Channel) : (s.onCur f).cur = f s.cur := by
  simp [State.cur, State.onCur]
theorem State.chan_onCur_sel (s : State) (f : Channel → Channel) : (s.onCur f).chan s.sel = f s.cur := by
  simp [State.onCur]
theorem State.chan_onCur_other (s : State) (f : Channel → Channel) {d : Chan} (h : d ≠ s.sel) :
    (s.onCur f).chan d = s.chan d := State.chan_setChan_other s _ h
@[simp] theorem State.onCur_onCur (s : State) (f g : Channel → Channel) : (s.onCur f).onCur g = s.onCur (fun ch => g (f ch)) := by
  simp [State.onCur, State.cur]
@[simp] theorem State.onCur_id (s : State) : s.onCur (fun ch => ch) = s := by simp [State.onCur, State.cur]

/-- Changing the addressed channel changes nothing else. -/
theorem State.onCur_sameBut (s : State) (f : Channel → Channel) : SameBut s.sel s (s.onCur f) where
  params := s.onCur_params f
  other _ h := s.chan_onCur_other f h
  sel := s.onCur_sel f
  pending := s.onCur_pending f
  replies := s.onCur_replies f
  draws := s.onCur_draws f

/-! ## Selecting a channel, taking an event, returning a value -/

@[simp] theorem State.chan_withSel (s : State) (c d : Chan) : ({ s with sel := c } : State).chan d = s.chan d := by
  cases d <;> rfl
@[simp] theorem State.chan_withPending (s : State) (es : List HostEvent) (d : Chan) :
    ({ s with pending := es } : State).chan d = s.chan d := by cases d <;> rfl
@[simp] theorem State.cur_withSel (s : State) (c : Chan) : ({ s with sel := c } : State).cur = s.chan c := by
  simp [State.cur]
@[simp] theorem State.cur_withPending (s : State) (es : List HostEvent) : ({ s with pending := es } : State).cur = s.cur := by
  simp [State.cur]

@[simp] theorem State.reply_params (s : State) (v : Word) : (s.reply v).params = s.params := rfl
@[simp] theorem State.reply_chan (s : State) (v : Word) (c : Chan) : (s.reply v).chan c = s.chan c := by cases c <;> rfl
@[simp] theorem State.reply_sel (s : State) (v : Word) : (s.reply v).sel = s.sel := rfl
@[simp] theorem State.reply_pending (s : State) (v : Word) : (s.reply v).pending = s.pending := rfl
@[simp] theorem State.reply_replies (s : State) (v : Word) : (s.reply v).replies = v :: s.replies := rfl
@[simp] theorem State.reply_draws (s : State) (v : Word) : (s.reply v).draws = s.draws := rfl

@[simp] theorem State.replyStale_params (s : State) : s.replyStale.params = s.params := rfl
@[simp] theorem State.replyStale_chan (s : State) (c : Chan) : s.replyStale.chan c = s.chan c := by cases c <;> rfl
@[simp] theorem State.replyStale_sel (s : State) : s.replyStale.sel = s.sel := rfl
@[simp] theorem State.replyStale_pending (s : State) : s.replyStale.pending = s.pending := rfl
@[simp] theorem State.replyStale_replies (s : State) :
    s.replyStale.replies = zextByte (Config.staleByte s.draws) :: s.replies := rfl
@[simp] theorem State.replyStale_draws (s : State) : s.replyStale.draws = s.draws + 1 := rfl

@[simp] theorem State.replyAbandoned_params (s : State) : s.replyAbandoned.params = s.params := rfl
@[simp] theorem State.replyAbandoned_chan (s : State) (c : Chan) : s.replyAbandoned.chan c = s.chan c := by cases c <;> rfl
@[simp] theorem State.replyAbandoned_sel (s : State) : s.replyAbandoned.sel = s.sel := rfl
@[simp] theorem State.replyAbandoned_pending (s : State) : s.replyAbandoned.pending = s.pending := rfl
@[simp] theorem State.replyAbandoned_replies (s : State) :
    s.replyAbandoned.replies = Config.abandonedWord s.draws :: s.replies := rfl
@[simp] theorem State.replyAbandoned_draws (s : State) : s.replyAbandoned.draws = s.draws + 1 := rfl

/-! ## The hardware reset -/

@[simp] theorem State.hardwareReset_params (s : State) : s.hardwareReset.params = s.params := by simp only [State.hardwareReset]
@[simp] theorem State.hardwareReset_chan (s : State) (c : Chan) :
    s.hardwareReset.chan c = Channel.reset s.params s.draws c := by
  cases c <;> simp only [State.hardwareReset, State.chan]
@[simp] theorem State.hardwareReset_sel (s : State) : s.hardwareReset.sel = s.sel := by simp only [State.hardwareReset]
@[simp] theorem State.hardwareReset_pending (s : State) : s.hardwareReset.pending = s.pending := by simp only [State.hardwareReset]
@[simp] theorem State.hardwareReset_replies (s : State) : s.hardwareReset.replies = s.replies := by simp only [State.hardwareReset]
@[simp] theorem State.hardwareReset_draws (s : State) : s.hardwareReset.draws = s.draws + 1 := by simp only [State.hardwareReset]

@[simp] theorem State.resetWith_params (p : Params) : (State.resetWith p).params = p := by simp only [State.resetWith]
@[simp] theorem State.resetWith_chan (p : Params) (c : Chan) : (State.resetWith p).chan c = Channel.reset p 0 c := by
  cases c <;> simp only [State.resetWith, State.chan]

end Sys2Proof.Machine
end

