-- ==== Sys2Proof/Laws/Exec.lean ====
section
/-! SUPPORT. What a command can do, said once: `exec` changes the addressed channel by `commandEffect` and nothing else, and
always answers a next state. Later proofs split on the command with `exec_eq` and never unfold a meaning. -/

namespace Sys2Proof.Machine

/-- The effect of a command on the addressed channel. -/
def commandEffect (p : Params) (i : Instr) (ch : Channel) : Channel :=
  match i with
  | .nop => ch
  | .cinit => if klenUsable ch.klen then ksaInit ch else keylenFailure ch
  | .kstep => if ch.cphase = .ksa then ksaStep ch else reject .badPhase (encode .kstep) ch
  | .krun => if ch.cphase = .ksa then ksaRun ch else reject .badPhase (encode .krun) ch
  | .dec d => if ch.cphase = .ready then prgaStep d ch else reject .badPhase (encode (.dec d)) ch
  | .decf d =>
    if ch.cphase ≠ .ready then reject .badPhase (encode (.decf d)) ch
    else if ch.fphase = .held then reject .frameHeld (encode (.decf d)) ch
    else decryptAndFrame p d ch
  | .feed d => if ch.fphase = .held then reject .frameHeld (encode (.feed d)) ch else frameAccept p d ch
  | .frst => frameReset ch
  | .fack => if ch.fphase = .held then frameRelease ch else reject .noFrame (encode .fack) ch
  | .conn => frameReset (if klenUsable ch.klen then ksaRun (ksaInit ch) else keylenFailure ch)
  | .close => frameReset (cipherClear ch)

/-- Everything a command does. -/
theorem exec_eq (i : Instr) (s : State) : exec i s = .next (s.onCur (commandEffect s.params i)) := by
  cases i with
  | nop => exact congrArg Host.Outcome.next s.onCur_id.symm
  | _ => rfl

/-- The next state of a command, from the outcome. -/
theorem exec_next {i : Instr} {s t : State} (h : exec i s = .next t) : t = s.onCur (commandEffect s.params i) := by
  rw [exec_eq] at h
  exact (Host.Outcome.next.inj h).symm

/-- A command leaves everything but the addressed channel as it was. -/
theorem exec_sameBut {i : Instr} {s t : State} (h : exec i s = .next t) : SameBut s.sel s t :=
  exec_next h ▸ s.onCur_sameBut _

/-- The addressed channel after a command. -/
theorem exec_cur {i : Instr} {s t : State} (h : exec i s = .next t) : t.cur = commandEffect s.params i s.cur := by
  rw [exec_next h, State.cur_onCur]

/-- A run of commands is a fold of their effects on the addressed channel. -/
theorem execAll_eq (is : List Instr) :
    ∀ s : State, execAll is s = .next (s.onCur (fun ch => is.foldl (fun c i => commandEffect s.params i c) ch)) := by
  induction is with
  | nil => intro s; simp [execAll]
  | cons i is ih => intro s; simp only [execAll, exec_eq, ih]; simp

/-- A run of commands in two parts. -/
theorem execAll_append (is js : List Instr) (s t : State) (h : execAll is s = .next t) :
    execAll (is ++ js) s = execAll js t := by
  induction is generalizing s with
  | nil => simp only [execAll, Host.Outcome.next.injEq] at h; subst h; rfl
  | cons i is ih =>
    simp only [List.cons_append, execAll, exec_eq] at h ⊢
    exact ih _ h

end Sys2Proof.Machine
end

