-- ==== Sys2Proof/Laws/Bus.lean ====
section
/-! SUPPORT. What a step can do, said once: it is idle, it is refused for its parameters, or it performs the oldest event; an
event always answers a next state, and changes no channel but the one it addresses unless it is a reset. -/

namespace Sys2Proof.Machine

/-! ## Addresses -/

theorem toNat_busAddr (c : Chan) (o : Offset) : (busAddr c o).toNat = (if c = .c1 then 2 ^ 20 else 0) + o.toNat := by
  have := o.isLt
  cases c <;> simp [busAddr, baseAddr, BitVec.toNat_add] <;> omega

theorem chanOf_eq (a : Addr) : chanOf a = if 2 ^ 20 ≤ a.toNat then .c1 else .c0 := by
  have := a.isLt
  have h : a.getLsbD 20 = decide (2 ^ 20 ≤ a.toNat) := by
    simp only [BitVec.getLsbD, Nat.testBit_eq_decide_div_mod_eq]
    congr 1
    rw [eq_iff_iff]
    omega
  simp only [chanOf, h, decide_eq_true_eq]

theorem toNat_offsetOf (a : Addr) : (offsetOf a).toNat = a.toNat % 2 ^ 20 := by
  simp [offsetOf, BitVec.extractLsb'_toNat]

@[simp] theorem chanOf_busAddr (c : Chan) (o : Offset) : chanOf (busAddr c o) = c := by
  have := o.isLt
  cases c <;> simp [chanOf_eq, toNat_busAddr] <;> omega

@[simp] theorem offsetOf_busAddr (c : Chan) (o : Offset) : offsetOf (busAddr c o) = o := by
  have := o.isLt
  apply BitVec.eq_of_toNat_eq
  cases c <;> (simp [toNat_offsetOf, toNat_busAddr]; omega)

/-- Every address is an offset of a channel (20_memory.md R62). -/
theorem busAddr_chanOf_offsetOf (a : Addr) : busAddr (chanOf a) (offsetOf a) = a := by
  have := a.isLt
  apply BitVec.eq_of_toNat_eq
  rw [toNat_busAddr, toNat_offsetOf, chanOf_eq]
  split <;> simp <;> omega

/-- Where CMD is (10_state.md R40). -/
@[simp] theorem target_cmd (p : Params) : target p 0x010 = .reg .cmd := by
  simp [target, regAt]

/-! ## Steps -/

/-- Parameters that break 00_scope.md R7 are refused. -/
theorem step_refused {s : State} (h : s.params.wf = false) : step s = .refused .notAConfiguration := by
  simp [step, stepBus, h]

/-- With nothing pending the core is idle. -/
theorem step_idle {s : State} (hp : s.params.wf = true) (h : s.pending = []) : step s = .next s := by
  simp [step, stepBus, hp, h]

/-- With an event pending the step performs the oldest. -/
theorem step_pending {s : State} {e : HostEvent} {rest : List HostEvent} (hp : s.params.wf = true)
    (h : s.pending = e :: rest) : step s = perform e { s with pending := rest } := by
  simp [step, stepBus, hp, h]

/-- The three things a step can be. -/
theorem step_cases (s : State) :
    (s.params.wf = false ∧ step s = .refused .notAConfiguration) ∨
      (s.params.wf = true ∧ s.pending = [] ∧ step s = .next s) ∨
      (∃ e rest, s.params.wf = true ∧ s.pending = e :: rest ∧ step s = perform e { s with pending := rest }) := by
  cases hp : s.params.wf with
  | false => exact .inl ⟨rfl, step_refused hp⟩
  | true =>
    cases h : s.pending with
    | nil => exact .inr (.inl ⟨rfl, rfl, step_idle hp h⟩)
    | cons e rest => exact .inr (.inr ⟨e, rest, rfl, rfl, step_pending hp h⟩)

/-! ## Events -/

/-- What executing a command word does: one change of the addressed channel. -/
theorem execWord_eq (w : Word) (s : State) :
    execWord w s = .next (s.onCur (match decode w with
      | .ok i => commandEffect s.params i
      | .error _ => reject .illegalCmd w)) := by
  unfold execWord
  cases decode w with
  | ok i => exact exec_eq i s
  | error e => rfl

/-- What a write to a register does: one change of the addressed channel. -/
theorem writeReg_eq (r : Reg) (o : Offset) (v : Word) (s : State) :
    writeReg r o v s = .next (s.onCur (match r with
      | .ctrl => writeCtrl v
      | .errclr => writeErrclr v
      | .keylen => writeKeylen o v
      | .cmd => (match decode v with
        | .ok i => commandEffect s.params i
        | .error _ => reject .illegalCmd v)
      | _ => badAddress o)) := by
  cases r <;> first | exact execWord_eq v s | rfl

/-- The effect of a Write at offset `o` on the channel it addresses. -/
def writeEffect (p : Params) (o : Offset) (v : Word) : Channel → Channel :=
  match target p o with
  | .reg .ctrl => writeCtrl v
  | .reg .errclr => writeErrclr v
  | .reg .keylen => writeKeylen o v
  | .reg .cmd => (match decode v with
    | .ok i => commandEffect p i
    | .error _ => reject .illegalCmd v)
  | .key n => writeKey o n v
  | _ => badAddress o

/-- Everything a Write does. -/
theorem busWrite_eq (a : Addr) (v : Word) (s : State) :
    busWrite a v s = .next (({ s with sel := chanOf a } : State).onCur (writeEffect s.params (offsetOf a) v)) := by
  unfold busWrite writeTarget writeEffect
  cases target s.params (offsetOf a) with
  | reg r => simp only [writeReg_eq]; cases r <;> rfl
  | _ => rfl

/-- Everything a Read does to the channels. -/
theorem busRead_chan (a : Addr) (s : State) (c : Chan) :
    (busRead a s).chan c = s.chan c ∨
      (c = chanOf a ∧ (busRead a s).chan c = badAddress (offsetOf a) (s.chan c) ∧
        (target s.params (offsetOf a) = .misaligned ∨ target s.params (offsetOf a) = .unmapped)) := by
  have bad (x : State) (hx : x = { s with sel := chanOf a }) :
      ((x.onCur (badAddress (offsetOf a))).reply 0).chan c = s.chan c ∨
        (c = chanOf a ∧ ((x.onCur (badAddress (offsetOf a))).reply 0).chan c = badAddress (offsetOf a) (s.chan c)) := by
    subst hx
    rw [State.reply_chan]
    by_cases h : c = chanOf a
    · subst h
      exact .inr ⟨rfl, by simpa using State.chan_onCur_sel { s with sel := chanOf a } (badAddress (offsetOf a))⟩
    · exact .inl (by simpa using State.chan_onCur_other { s with sel := chanOf a } (badAddress (offsetOf a)) (d := c) h)
  unfold busRead readTarget
  cases ht : target s.params (offsetOf a) with
  | misaligned => exact (bad _ rfl).imp id (fun h => ⟨h.1, h.2, .inl rfl⟩)
  | unmapped => exact (bad _ rfl).imp id (fun h => ⟨h.1, h.2, .inr rfl⟩)
  | reg r => left; simp
  | key n => left; simp
  | sbox n => left; simp
  | fbuf n => left; simp only; split <;> simp

/-- A Read leaves the parameters and the pending events, and selects the channel it addresses. -/
theorem busRead_frame (a : Addr) (s : State) :
    (busRead a s).params = s.params ∧ (busRead a s).pending = s.pending ∧ (busRead a s).sel = chanOf a := by
  unfold busRead readTarget
  cases target s.params (offsetOf a) with
  | fbuf n => simp only; split <;> simp
  | _ => simp

/-- Every event answers a next state. -/
theorem perform_next (e : HostEvent) (s : State) : ∃ t, perform e s = .next t := by
  cases e with
  | write a v => exact ⟨_, busWrite_eq a v s⟩
  | _ => exact ⟨_, rfl⟩

/-- A step performs a Write whole. -/
theorem step_write {s : State} {a : Addr} {v : Word} {rest : List HostEvent} (hp : s.params.wf = true)
    (h : s.pending = .write a v :: rest) :
    step s = .next (({ s with pending := rest, sel := chanOf a } : State).onCur
      (writeEffect s.params (offsetOf a) v)) := by
  rw [step_pending hp h]
  exact busWrite_eq a v _

/-- A step performs a Read whole. -/
theorem step_read {s : State} {a : Addr} {rest : List HostEvent} (hp : s.params.wf = true)
    (h : s.pending = .read a :: rest) : step s = .next (busRead a { s with pending := rest }) := by
  rw [step_pending hp h]
  rfl

end Sys2Proof.Machine
end

