-- ==== Sys2Proof/Laws/Tables.lean ====
section
/-! SUPPORT. The 256-byte tables: a read after a write, a swap, the identity, and permutations (40_cipher.md R122). -/

namespace Sys2Proof.Machine

/-- Reading after a write. -/
theorem tableGet_tableSet (t : Table) (n m v : Byte) : tableGet (tableSet t n v) m = if m = n then v else tableGet t m := by
  by_cases h : m = n
  · subst h; simp [tableGet, tableSet]
  · have : n.toNat ≠ m.toNat := fun e => h (BitVec.eq_of_toNat_eq e.symm)
    simp [tableGet, tableSet, this, h]

/-- Reading after a swap: the two entries change places. -/
theorem tableGet_tableSwap (t : Table) (a b m : Byte) :
    tableGet (tableSwap t a b) m = if m = b then tableGet t a else if m = a then tableGet t b else tableGet t m := by
  simp only [tableSwap, tableGet_tableSet]

/-- Reading after a swap, as one permutation of the indices. -/
theorem tableGet_tableSwap_perm (t : Table) (a b m : Byte) : tableGet (tableSwap t a b) m = tableGet t (Equiv.swap a b m) := by
  rw [tableGet_tableSwap, Equiv.swap_apply_def]
  by_cases hb : m = b
  · subst hb; by_cases ha : m = a <;> simp [ha]
  · by_cases ha : m = a
    · subst ha; simp [hb]
    · simp [hb, ha]

/-- Every entry of the identity table is its index. -/
@[simp] theorem tableGet_tableIdentity (n : Byte) : tableGet tableIdentity n = n := by
  simp [tableGet, tableIdentity]

/-- Tables with equal entries are equal. -/
theorem table_ext {t u : Table} (h : ∀ n, tableGet t n = tableGet u n) : t = u := by
  apply Vector.ext
  intro n hn
  have := h (BitVec.ofNat 8 n)
  simpa [tableGet, Nat.mod_eq_of_lt hn] using this

/-- The identity is a permutation. -/
theorem isPermutation_identity : IsPermutation tableIdentity := by
  have : tableGet tableIdentity = id := funext tableGet_tableIdentity
  rw [IsPermutation, this]
  exact Function.bijective_id

/-- A swap keeps a permutation. -/
theorem IsPermutation.swap {t : Table} (h : IsPermutation t) (a b : Byte) : IsPermutation (tableSwap t a b) := by
  have : tableGet (tableSwap t a b) = tableGet t ∘ Equiv.swap a b := funext (tableGet_tableSwap_perm t a b)
  rw [IsPermutation, this]
  exact h.comp (Equiv.bijective _)

end Sys2Proof.Machine
end

