-- ==== Sys2Proof/Laws/Cipher.lean ====
section
/-! SUPPORT. The cipher's operations (40_cipher.md R111 to R113): what each does to the stream, once, and that none touches
KEY, KLEN, the frame decoder, CTRL or the error state. -/

namespace Sys2Proof.Machine

/-- The parts of a channel no cipher operation touches. -/
structure SameOutsideCipher (a b : Channel) : Prop where
  key : SameKey a b
  decoder : SameDecoder a b
  buffer : b.fbuf = a.fbuf
  ctrl : SameCtrl a b

/-- Each part stays as it is. -/
theorem SameKey.refl (a : Channel) : SameKey a a := ⟨rfl, rfl⟩
theorem SameResult.refl (a : Channel) : SameResult a a := ⟨rfl, rfl⟩
theorem SameCtrl.refl (a : Channel) : SameCtrl a a := ⟨rfl, rfl⟩
theorem SameError.refl (a : Channel) : SameError a a := ⟨rfl, rfl, rfl, rfl, rfl, rfl⟩
theorem SameStream.refl (a : Channel) : SameStream a a := ⟨rfl, rfl, rfl, rfl, rfl⟩
theorem SameDecoder.refl (a : Channel) : SameDecoder a a := ⟨rfl, rfl, rfl, rfl, rfl⟩
theorem SameBuffer.of_eq {a b : Channel} (h : b.fbuf = a.fbuf) : SameBuffer a b := fun _ => by rw [h]
theorem SameBuffer.but {a b : Channel} (h : SameBuffer a b) (m : Nat) : SameBufferBut m a b := fun n _ => h n
theorem SameOutsideCipher.refl (a : Channel) : SameOutsideCipher a a := ⟨.refl a, .refl a, rfl, .refl a⟩

theorem SameResult.trans {a b c : Channel} (h : SameResult a b) (k : SameResult b c) : SameResult a c :=
  ⟨k.pt.trans h.pt, k.ks.trans h.ks⟩
theorem SameError.trans {a b c : Channel} (h : SameError a b) (k : SameError b c) : SameError a c :=
  ⟨k.err.trans h.err, k.errOvf.trans h.errOvf, k.errcode.trans h.errcode, k.errInfo.trans h.errInfo,
    k.errPos.trans h.errPos, k.errType.trans h.errType⟩
theorem SameOutsideCipher.trans {a b c : Channel} (h : SameOutsideCipher a b) (k : SameOutsideCipher b c) :
    SameOutsideCipher a c :=
  ⟨⟨k.key.key.trans h.key.key, k.key.klen.trans h.key.klen⟩,
    ⟨k.decoder.fphase.trans h.decoder.fphase, k.decoder.fcnt.trans h.decoder.fcnt, k.decoder.flen.trans h.decoder.flen,
      k.decoder.ftype.trans h.decoder.ftype, k.decoder.fpos.trans h.decoder.fpos⟩,
    k.buffer.trans h.buffer, ⟨k.ctrl.ieFrame.trans h.ctrl.ieFrame, k.ctrl.ieErr.trans h.ctrl.ieErr⟩⟩

/-! ## KsaInit, KsaStep and the loop -/

/-- KsaInit touches the stream alone. -/
theorem ksaInit_frame (ch : Channel) :
    SameOutsideCipher ch (ksaInit ch) ∧ SameResult ch (ksaInit ch) ∧ SameError ch (ksaInit ch) := by
  unfold ksaInit
  exact ⟨⟨⟨rfl, rfl⟩, ⟨rfl, rfl, rfl, rfl, rfl⟩, rfl, ⟨rfl, rfl⟩⟩, ⟨rfl, rfl⟩, ⟨rfl, rfl, rfl, rfl, rfl, rfl⟩⟩

/-- KsaStep touches S, i, j and CPHASE alone. -/
theorem ksaStep_frame (ch : Channel) :
    SameOutsideCipher ch (ksaStep ch) ∧ SameResult ch (ksaStep ch) ∧ SameError ch (ksaStep ch) ∧
      (ksaStep ch).count = ch.count := by
  unfold ksaStep
  dsimp only
  split <;>
    exact ⟨⟨⟨rfl, rfl⟩, ⟨rfl, rfl, rfl, rfl, rfl⟩, rfl, ⟨rfl, rfl⟩⟩, ⟨rfl, rfl⟩, ⟨rfl, rfl, rfl, rfl, rfl, rfl⟩, rfl⟩

/-- KsaStep's table: entries i and the new j change places. -/
@[simp] theorem ksaStep_sbox (ch : Channel) : (ksaStep ch).sbox = tableSwap ch.sbox ch.i (ksaJ ch) := by
  unfold ksaStep
  dsimp only
  split <;> rfl

/-- The iteration with i = 255 ends the schedule. -/
theorem ksaStep_last {ch : Channel} (h : ch.i = 255) :
    (ksaStep ch).i = 0 ∧ (ksaStep ch).j = 0 ∧ (ksaStep ch).cphase = .ready := by
  simp [ksaStep, h]

/-- Every other iteration moves i by one. -/
theorem ksaStep_more {ch : Channel} (h : ch.i ≠ 255) :
    (ksaStep ch).i.toNat = ch.i.toNat + 1 ∧ (ksaStep ch).j = ksaJ ch ∧ (ksaStep ch).cphase = ch.cphase := by
  have h1 := ch.i.isLt
  have h2 : ch.i.toNat ≠ 255 := fun e => h (BitVec.eq_of_toNat_eq (by simpa using e))
  unfold ksaStep
  dsimp only
  rw [if_neg h]
  refine ⟨?_, rfl, rfl⟩
  simp only [BitVec.toNat_add]
  simp
  omega

/-- The j of an iteration, exactly formed and then reduced (40_cipher.md R121). -/
theorem toNat_ksaJ (ch : Channel) :
    (ksaJ ch).toNat = (ch.j.toNat + (tableGet ch.sbox ch.i).toNat + (keyByte ch.key ch.klen ch.i).toNat) % 256 := by
  simp [ksaJ, BitVec.toNat_add]

/-- Out of phase KSA the loop does nothing. -/
theorem ksaLoop_done {ch : Channel} (h : ch.cphase ≠ .ksa) : ∀ n, ksaLoop n ch = ch
  | 0 => rfl
  | n + 1 => by simp [ksaLoop, h]

/-- With enough iterations allowed, the loop is 256 - i iterations and reaches READY. -/
theorem ksaLoop_eq_iterate (n : Nat) :
    ∀ ch : Channel, ch.cphase = .ksa → 256 - ch.i.toNat ≤ n →
      ksaLoop n ch = ksaStep^[256 - ch.i.toNat] ch ∧ (ksaLoop n ch).cphase = .ready ∧ (ksaLoop n ch).i = 0 ∧
        (ksaLoop n ch).j = 0 := by
  induction n with
  | zero =>
    intro ch _ h
    have := ch.i.isLt
    omega
  | succ n ih =>
    intro ch hp h
    have hlt := ch.i.isLt
    simp only [ksaLoop, hp, if_true]
    by_cases hi : ch.i = 255
    · obtain ⟨h1, h2, h3⟩ := ksaStep_last hi
      rw [ksaLoop_done (by rw [h3]; decide)]
      refine ⟨?_, h3, h1, h2⟩
      rw [hi]
      rfl
    · obtain ⟨h1, -, h3⟩ := ksaStep_more hi
      have hi' : ch.i.toNat ≠ 255 := fun e => hi (BitVec.eq_of_toNat_eq (by simpa using e))
      obtain ⟨e, r⟩ := ih (ksaStep ch) (h3.trans hp) (by omega)
      refine ⟨?_, r⟩
      rw [e, h1, show 256 - ch.i.toNat = (256 - (ch.i.toNat + 1)) + 1 by omega, Function.iterate_succ_apply]

/-- `while CPHASE = KSA: KsaStep()` in phase KSA. -/
theorem ksaRun_eq_iterate {ch : Channel} (h : ch.cphase = .ksa) :
    ksaRun ch = ksaStep^[256 - ch.i.toNat] ch ∧ (ksaRun ch).cphase = .ready ∧ (ksaRun ch).i = 0 ∧ (ksaRun ch).j = 0 :=
  ksaLoop_eq_iterate 256 ch h (by omega)

/-- The loop touches S, i, j and CPHASE alone. -/
theorem ksaLoop_frame (n : Nat) : ∀ ch : Channel,
    SameOutsideCipher ch (ksaLoop n ch) ∧ SameResult ch (ksaLoop n ch) ∧ SameError ch (ksaLoop n ch) ∧
      (ksaLoop n ch).count = ch.count := by
  induction n with
  | zero => intro ch; exact ⟨.refl ch, .refl ch, .refl ch, rfl⟩
  | succ n ih =>
    intro ch
    simp only [ksaLoop]
    split
    · obtain ⟨a, b, c, d⟩ := ksaStep_frame ch
      obtain ⟨a', b', c', d'⟩ := ih (ksaStep ch)
      exact ⟨a.trans a', b.trans b', c.trans c', d'.trans d⟩
    · exact ⟨.refl ch, .refl ch, .refl ch, rfl⟩

/-- The loop keeps S a permutation (40_cipher.md R122). -/
theorem ksaLoop_permutation (n : Nat) : ∀ ch : Channel, IsPermutation ch.sbox → IsPermutation (ksaLoop n ch).sbox := by
  induction n with
  | zero => exact fun _ h => h
  | succ n ih =>
    intro ch h
    simp only [ksaLoop]
    split
    · exact ih _ (by rw [ksaStep_sbox]; exact h.swap _ _)
    · exact h

/-! ## PrgaStep -/

/-- PrgaStep touches S, i, j, COUNT and RESULT alone. -/
theorem prgaStep_frame (d : Byte) (ch : Channel) :
    SameOutsideCipher ch (prgaStep d ch) ∧ SameError ch (prgaStep d ch) ∧ (prgaStep d ch).cphase = ch.cphase :=
  ⟨⟨⟨rfl, rfl⟩, ⟨rfl, rfl, rfl, rfl, rfl⟩, rfl, ⟨rfl, rfl⟩⟩, ⟨rfl, rfl, rfl, rfl, rfl, rfl⟩, rfl⟩

@[simp] theorem prgaStep_i (d : Byte) (ch : Channel) : (prgaStep d ch).i = ch.i + 1 := rfl
@[simp] theorem prgaStep_j (d : Byte) (ch : Channel) : (prgaStep d ch).j = ch.j + tableGet ch.sbox (ch.i + 1) := rfl
@[simp] theorem prgaStep_count (d : Byte) (ch : Channel) : (prgaStep d ch).count = ch.count + 1 := rfl
@[simp] theorem prgaStep_sbox (d : Byte) (ch : Channel) :
    (prgaStep d ch).sbox = tableSwap ch.sbox (ch.i + 1) (ch.j + tableGet ch.sbox (ch.i + 1)) := rfl
@[simp] theorem prgaStep_resultPt (d : Byte) (ch : Channel) : (prgaStep d ch).resultPt = d ^^^ (prgaStep d ch).resultKs := rfl
theorem prgaStep_resultKs (d : Byte) (ch : Channel) :
    (prgaStep d ch).resultKs = tableGet (prgaStep d ch).sbox
      (tableGet (prgaStep d ch).sbox (prgaStep d ch).i + tableGet (prgaStep d ch).sbox (prgaStep d ch).j) := rfl

/-- The generator does not depend on the data byte (40_cipher.md R119). -/
theorem prgaStep_data (d d' : Byte) (ch : Channel) :
    SameStream (prgaStep d ch) (prgaStep d' ch) ∧ (prgaStep d' ch).resultKs = (prgaStep d ch).resultKs :=
  ⟨⟨rfl, rfl, rfl, rfl, rfl⟩, rfl⟩

/-! ## Clearing the cipher -/

/-- Clearing the cipher keeps S and everything outside the stream. -/
theorem cipherClear_frame (ch : Channel) :
    SameOutsideCipher ch (cipherClear ch) ∧ SameResult ch (cipherClear ch) ∧ SameError ch (cipherClear ch) ∧
      (cipherClear ch).sbox = ch.sbox :=
  ⟨⟨⟨rfl, rfl⟩, ⟨rfl, rfl, rfl, rfl, rfl⟩, rfl, ⟨rfl, rfl⟩⟩, ⟨rfl, rfl⟩, ⟨rfl, rfl, rfl, rfl, rfl, rfl⟩, rfl⟩

/-- A failed initialisation: the cipher cleared, S kept, KEYLEN recorded, nothing else. -/
theorem keylenFailure_spec (ch : Channel) :
    SameOutsideCipher ch (keylenFailure ch) ∧ SameResult ch (keylenFailure ch) ∧ (keylenFailure ch).sbox = ch.sbox ∧
      (keylenFailure ch).i = 0 ∧ (keylenFailure ch).j = 0 ∧ (keylenFailure ch).count = 0 ∧
      (keylenFailure ch).cphase = .unkeyed ∧ Recorded .keylen (ch.klen.setWidth 32) 0 0 ch (keylenFailure ch) := by
  have h := recordError_sameButError .keylen (ch.klen.setWidth 32) 0 0 (cipherClear ch)
  obtain ⟨c, r, -, -⟩ := cipherClear_frame ch
  exact ⟨c.trans ⟨h.key, h.decoder, h.buffer, h.ctrl⟩, r.trans h.result, by simp [keylenFailure, cipherClear],
    by simp [keylenFailure, cipherClear], by simp [keylenFailure, cipherClear], by simp [keylenFailure, cipherClear],
    by simp [keylenFailure, cipherClear], recordError_recorded .keylen (ch.klen.setWidth 32) 0 0 (cipherClear ch)⟩

end Sys2Proof.Machine
end

