-- ==== Sys2Proof/Laws/Fields.lean ====
section
/-! SUPPORT. The bits of a word put together from fields (00_scope.md R8): what a register's parts read as. -/

namespace Sys2Proof

/-- Bit `k` of a word that holds one field. -/
theorem getLsbD_placeField {n : Nat} (lo : Nat) (v : BitVec n) (k : Nat) :
    (placeField lo v).getLsbD k = (decide (k < 32) && decide (lo ≤ k) && v.getLsbD (k - lo)) := by
  by_cases h : k < lo
  · have : ¬ lo ≤ k := by omega
    simp [placeField, h, this]
  · by_cases h32 : k < 32
    · have : lo ≤ k := by omega
      have : k - lo < 32 := by omega
      simp [placeField, *]
    · simp [placeField, h32]

/-- A field read back. -/
theorem extractLsb'_placeField {n : Nat} (lo : Nat) (v : BitVec n) (h : lo + n ≤ 32) :
    (placeField lo v).extractLsb' lo n = v := by
  apply BitVec.eq_of_getLsbD_eq
  intro k hk
  have : lo + k < 32 := by omega
  rw [BitVec.getLsbD_extractLsb', getLsbD_placeField]
  simp [hk, this]

/-- Bits outside a field read 0. -/
theorem extractLsb'_placeField_other {n : Nat} (lo : Nat) (v : BitVec n) (at' m : Nat) (h : at' + m ≤ lo ∨ lo + n ≤ at') :
    (placeField lo v).extractLsb' at' m = 0 := by
  apply BitVec.eq_of_getLsbD_eq
  intro k hk
  have : lo ≤ at' + k → n ≤ at' + k - lo := by omega
  by_cases hl : lo ≤ at' + k
  · rw [BitVec.getLsbD_extractLsb', getLsbD_placeField, BitVec.getLsbD_of_ge v _ (this hl)]
    simp
  · rw [BitVec.getLsbD_extractLsb', getLsbD_placeField]
    simp [hl]

/-- Fields of words put together are put together. -/
theorem extractLsb'_or (a b : Word) (lo n : Nat) :
    (a ||| b).extractLsb' lo n = a.extractLsb' lo n ||| b.extractLsb' lo n := by
  apply BitVec.eq_of_getLsbD_eq
  intro k hk
  simp [hk]

end Sys2Proof
end

