-- ==== Sys2Proof/Laws/Memory.lean ====
section
/-! SUPPORT. The frame buffer's cells: a read after a write, the canonical form every operation keeps, and where the cells
of a written buffer lie. -/

namespace Sys2Proof.Machine

/-- A larger bound weakens the canonical form to a smaller one. -/
theorem Memory.wfFrom_mono {lo lo' : Nat} {m : Memory} (h : lo' ≤ lo) (w : m.wfFrom lo = true) : m.wfFrom lo' = true := by
  cases m with
  | nil => rfl
  | cons x m =>
    simp only [Memory.wfFrom, Bool.and_eq_true, decide_eq_true_eq] at w ⊢
    exact ⟨⟨by omega, w.1.2⟩, w.2⟩

/-- Below its bound a buffer in canonical form lists nothing. -/
theorem Memory.read_of_lt {m : Memory} : ∀ {lo a : Nat}, m.wfFrom lo = true → a < lo → m.read a = Memory.unlisted := by
  induction m with
  | nil => intros; rfl
  | cons x m ih =>
    intro lo a w h
    simp only [Memory.wfFrom, Bool.and_eq_true, decide_eq_true_eq] at w
    have ne : a ≠ x.1 := by omega
    simp only [Memory.read, if_neg ne]
    exact ih w.2 (by omega)

/-- A byte written is the byte read, and every other byte reads as before. -/
theorem Memory.read_write {m : Memory} :
    ∀ {lo : Nat}, m.wfFrom lo = true → ∀ a b n, (m.write a b).read n = if n = a then b else m.read n := by
  induction m with
  | nil =>
    intro lo _ a b n
    by_cases hb : b = Memory.unlisted <;> by_cases hn : n = a <;> simp [Memory.write, Memory.read, hb, hn]
  | cons x m ih =>
    intro lo w a b n
    simp only [Memory.wfFrom, Bool.and_eq_true, decide_eq_true_eq] at w
    obtain ⟨y, c⟩ := x
    simp only [Memory.write]
    split
    · rename_i hlt
      split
      · rename_i hb
        by_cases hn : n = a
        · have hny : n ≠ y := by omega
          simp only [hn, if_true, hb]
          have hay : a ≠ y := by omega
          simp only [Memory.read, if_neg hay]
          exact Memory.read_of_lt w.2 (by omega)
        · simp [hn]
      · by_cases hn : n = a <;> simp [Memory.read, hn]
    · split
      · rename_i _ heq
        subst heq
        split
        · rename_i hb
          by_cases hn : n = a
          · simp only [hn, if_true, hb]
            exact Memory.read_of_lt w.2 (by simp)
          · simp [Memory.read, hn]
        · by_cases hn : n = a <;> simp [Memory.read, hn]
      · rename_i hlt hne
        simp only [Memory.read]
        by_cases hn : n = y
        · have : n ≠ a := by rintro rfl; exact hne hn
          simp [hn] at this ⊢
          simp [this]
        · simp only [if_neg hn]
          exact ih w.2 a b n

/-- A write at or above the bound keeps the canonical form. -/
theorem Memory.wfFrom_write {m : Memory} :
    ∀ {lo : Nat}, m.wfFrom lo = true → ∀ a b, lo ≤ a → (m.write a b).wfFrom lo = true := by
  induction m with
  | nil =>
    intro lo _ a b h
    by_cases hb : b = Memory.unlisted <;> simp [Memory.write, Memory.wfFrom, hb, h]
  | cons x m ih =>
    intro lo w a b h
    obtain ⟨y, c⟩ := x
    have w' := w
    simp only [Memory.wfFrom, Bool.and_eq_true, decide_eq_true_eq] at w
    simp only [Memory.write]
    split
    · rename_i hlt
      split
      · exact w'
      · rename_i hb
        simp only [Memory.wfFrom, Bool.and_eq_true, decide_eq_true_eq]
        exact ⟨⟨h, hb⟩, ⟨by omega, w.1.2⟩, w.2⟩
    · split
      · rename_i _ heq
        subst heq
        split
        · exact Memory.wfFrom_mono (by omega) w.2
        · rename_i hb
          simp only [Memory.wfFrom, Bool.and_eq_true, decide_eq_true_eq]
          exact ⟨⟨h, hb⟩, w.2⟩
      · rename_i hlt hne
        simp only [Memory.wfFrom, Bool.and_eq_true, decide_eq_true_eq]
        exact ⟨w.1, ih w.2 a b (by omega)⟩

/-- Every memory operation keeps the canonical form: `write` is the only one. -/
theorem Memory.wf_write {m : Memory} (w : m.wf = true) (a : Nat) (b : Byte) : (m.write a b).wf = true :=
  Memory.wfFrom_write w a b (Nat.zero_le a)

/-- The byte just written. -/
theorem Memory.read_write_self {m : Memory} (w : m.wf = true) (a : Nat) (b : Byte) : (m.write a b).read a = b := by
  simp [Memory.read_write w]

/-- Every other byte. -/
theorem Memory.read_write_other {m : Memory} (w : m.wf = true) {a n : Nat} (b : Byte) (h : n ≠ a) :
    (m.write a b).read n = m.read n := by
  simp [Memory.read_write w, h]

/-- A cell of a written buffer is the written one or an old one. -/
theorem Memory.mem_write {m : Memory} {a : Nat} {b : Byte} : ∀ x ∈ m.write a b, x = (a, b) ∨ x ∈ m := by
  induction m with
  | nil => intro x; simp only [Memory.write]; split <;> simp
  | cons y m ih =>
    intro x
    simp only [Memory.write]
    split
    · split
      · exact .inr
      · intro hx; simpa using hx
    · split
      · split
        · exact fun hx => .inr (List.mem_cons_of_mem _ hx)
        · intro hx
          rcases List.mem_cons.mp hx with h | h
          · exact .inl h
          · exact .inr (List.mem_cons_of_mem _ h)
      · intro hx
        rcases List.mem_cons.mp hx with h | h
        · exact .inr (h ▸ List.mem_cons_self)
        · exact (ih x h).imp id (List.mem_cons_of_mem _)

/-- The buffer after reset is in canonical form. -/
theorem Memory.wf_nil : Memory.wf [] = true := rfl

end Sys2Proof.Machine
end

