-- ==== Sys2Proof/Laws/Frame.lean ====
section
/-! SUPPORT. The frame decoder's operations (41_frame.md R143, R146, R147): what each does, once, and that none touches the
cipher, KEY, KLEN or CTRL. -/

namespace Sys2Proof.Machine

/-- The parts of a channel no frame-decoder operation touches. -/
structure SameOutsideDecoder (a b : Channel) : Prop where
  stream : SameStream a b
  result : SameResult a b
  key : SameKey a b
  ctrl : SameCtrl a b

theorem SameOutsideDecoder.refl (a : Channel) : SameOutsideDecoder a a := ⟨.refl a, .refl a, .refl a, .refl a⟩

theorem SameOutsideDecoder.trans {a b c : Channel} (h : SameOutsideDecoder a b) (k : SameOutsideDecoder b c) :
    SameOutsideDecoder a c :=
  ⟨⟨k.stream.sbox.trans h.stream.sbox, k.stream.i.trans h.stream.i, k.stream.j.trans h.stream.j,
      k.stream.cphase.trans h.stream.cphase, k.stream.count.trans h.stream.count⟩,
    h.result.trans k.result, ⟨k.key.key.trans h.key.key, k.key.klen.trans h.key.klen⟩,
    ⟨k.ctrl.ieFrame.trans h.ctrl.ieFrame, k.ctrl.ieErr.trans h.ctrl.ieErr⟩⟩

/-- Two channels that differ in the decoder's fields and the error state alone. -/
theorem sameOutsideDecoder_of_error (code : ErrCode) (info pos : Word) (type : Byte) (ch : Channel) :
    SameOutsideDecoder ch (recordError code info pos type ch) :=
  let h := recordError_sameButError code info pos type ch
  ⟨h.stream, h.result, h.key, h.ctrl⟩

/-! ## Storing and header bytes -/

theorem storeFrameByte_frame (b : Byte) (ch : Channel) :
    SameOutsideDecoder ch (storeFrameByte b ch) ∧ SameError ch (storeFrameByte b ch) :=
  ⟨⟨⟨rfl, rfl, rfl, rfl, rfl⟩, ⟨rfl, rfl⟩, ⟨rfl, rfl⟩, ⟨rfl, rfl⟩⟩, ⟨rfl, rfl, rfl, rfl, rfl, rfl⟩⟩

theorem takeHeaderByte_frame (p : Params) (h : Nat) (b : Byte) (ch : Channel) :
    SameOutsideDecoder ch (takeHeaderByte p h b ch) ∧ SameError ch (takeHeaderByte p h b ch) := by
  unfold takeHeaderByte
  split <;>
    exact ⟨⟨⟨rfl, rfl, rfl, rfl, rfl⟩, ⟨rfl, rfl⟩, ⟨rfl, rfl⟩, ⟨rfl, rfl⟩⟩, ⟨rfl, rfl, rfl, rfl, rfl, rfl⟩⟩

@[simp] theorem takeHeaderByte_fbuf (p : Params) (h : Nat) (b : Byte) (ch : Channel) :
    (takeHeaderByte p h b ch).fbuf = ch.fbuf := by unfold takeHeaderByte; split <;> rfl
@[simp] theorem takeHeaderByte_fcnt (p : Params) (h : Nat) (b : Byte) (ch : Channel) :
    (takeHeaderByte p h b ch).fcnt = ch.fcnt := by unfold takeHeaderByte; split <;> rfl
@[simp] theorem takeHeaderByte_fpos (p : Params) (h : Nat) (b : Byte) (ch : Channel) :
    (takeHeaderByte p h b ch).fpos = ch.fpos := by unfold takeHeaderByte; split <;> rfl
@[simp] theorem takeHeaderByte_fphase (p : Params) (h : Nat) (b : Byte) (ch : Channel) :
    (takeHeaderByte p h b ch).fphase = ch.fphase := by unfold takeHeaderByte; split <;> rfl
theorem takeHeaderByte_ftype (p : Params) (h : Nat) (b : Byte) (ch : Channel) :
    (takeHeaderByte p h b ch).ftype = if h = typeIndex p then b else ch.ftype := by unfold takeHeaderByte; split <;> rfl
theorem takeHeaderByte_flen (p : Params) (h : Nat) (b : Byte) (ch : Channel) :
    (takeHeaderByte p h b ch).flen = if h = typeIndex p then ch.flen else lenAccumulate p h b ch.flen := by
  unfold takeHeaderByte; split <;> rfl

/-- A malformed header: the error recorded with FLEN, the header's position and type byte; the decoder in DISCARD. -/
theorem malformedHeader_spec (p : Params) (ch : Channel) :
    SameOutsideDecoder ch (malformedHeader p ch) ∧ (malformedHeader p ch).fphase = .discard ∧
      (malformedHeader p ch).fcnt = 0 ∧ (malformedHeader p ch).flen = 0 ∧ (malformedHeader p ch).ftype = 0 ∧
      (malformedHeader p ch).fpos = ch.fpos ∧ (malformedHeader p ch).fbuf = ch.fbuf ∧
      Recorded .malformedLen ch.flen (ch.fpos - BitVec.ofNat 32 p.hdrSize) ch.ftype ch (malformedHeader p ch) := by
  have o := sameOutsideDecoder_of_error .malformedLen ch.flen (ch.fpos - BitVec.ofNat 32 p.hdrSize) ch.ftype ch
  refine ⟨⟨⟨o.stream.sbox, o.stream.i, o.stream.j, o.stream.cphase, o.stream.count⟩, ⟨o.result.pt, o.result.ks⟩,
    ⟨o.key.key, o.key.klen⟩, ⟨o.ctrl.ieFrame, o.ctrl.ieErr⟩⟩, rfl, rfl, rfl, rfl, ?_, ?_, ?_⟩
  · simp [malformedHeader]
  · simp [malformedHeader]
  · exact recordError_recorded .malformedLen ch.flen (ch.fpos - BitVec.ofNat 32 p.hdrSize) ch.ftype ch

/-- What the header check can do. -/
theorem headerCheck_cases (p : Params) (ch : Channel) :
    (ch.fcnt.toNat ≠ p.hdrSize ∧ headerCheck p ch = ch) ∨
      (ch.fcnt.toNat = p.hdrSize ∧ malformedLength p ch.flen = true ∧ headerCheck p ch = malformedHeader p ch) ∨
      (ch.fcnt.toNat = p.hdrSize ∧ malformedLength p ch.flen = false ∧
        headerCheck p ch = { ch with fphase := if ch.flen.toNat = p.hdrSize then .held else .body }) := by
  unfold headerCheck
  by_cases h : ch.fcnt.toNat = p.hdrSize
  · cases hm : malformedLength p ch.flen with
    | true => exact .inr (.inl ⟨h, rfl, by simp [h]⟩)
    | false =>
      refine .inr (.inr ⟨h, rfl, ?_⟩)
      by_cases hf : ch.flen.toNat = p.hdrSize <;> simp [h, hf]
  · exact .inl ⟨h, by simp [h]⟩

/-- What the check after a body byte does. -/
theorem bodyCheck_eq (ch : Channel) :
    bodyCheck ch = { ch with fphase := if ch.fcnt.toNat = ch.flen.toNat then .held else ch.fphase } := by
  unfold bodyCheck
  split <;> rfl

/-! ## FrameAccept -/

/-- FrameAccept in DISCARD only counts the byte. -/
theorem frameAccept_discard {p : Params} {b : Byte} {ch : Channel} (h : ch.fphase = .discard) :
    frameAccept p b ch = { ch with fpos := ch.fpos + 1 } := by
  simp [frameAccept, h]

/-- FrameAccept in BODY. -/
theorem frameAccept_body {p : Params} {b : Byte} {ch : Channel} (h : ch.fphase = .body) :
    frameAccept p b ch = bodyCheck (storeFrameByte b { ch with fpos := ch.fpos + 1 }) := by
  simp [frameAccept, h]

/-- FrameAccept in HDR. -/
theorem frameAccept_hdr {p : Params} {b : Byte} {ch : Channel} (h : ch.fphase = .hdr) :
    frameAccept p b ch =
      headerCheck p (takeHeaderByte p ch.fcnt.toNat b (storeFrameByte b { ch with fpos := ch.fpos + 1 })) := by
  simp [frameAccept, h]

/-- FrameAccept in HELD, which no command calls for. -/
theorem frameAccept_held {p : Params} {b : Byte} {ch : Channel} (h : ch.fphase = .held) :
    frameAccept p b ch = bodyCheck (storeFrameByte b { ch with fpos := ch.fpos + 1 }) := by
  simp [frameAccept, h]

/-- The header check touches the decoder and the error state alone. -/
theorem headerCheck_frame (p : Params) (ch : Channel) : SameOutsideDecoder ch (headerCheck p ch) := by
  rcases headerCheck_cases p ch with ⟨-, e⟩ | ⟨-, -, e⟩ | ⟨-, -, e⟩ <;> rw [e]
  · exact .refl ch
  · exact (malformedHeader_spec p ch).1
  · exact ⟨⟨rfl, rfl, rfl, rfl, rfl⟩, ⟨rfl, rfl⟩, ⟨rfl, rfl⟩, ⟨rfl, rfl⟩⟩

/-- FrameAccept touches the decoder and the error state alone. -/
theorem frameAccept_frame (p : Params) (b : Byte) (ch : Channel) : SameOutsideDecoder ch (frameAccept p b ch) := by
  have count (x : Channel) : SameOutsideDecoder x { x with fpos := x.fpos + 1 } :=
    ⟨⟨rfl, rfl, rfl, rfl, rfl⟩, ⟨rfl, rfl⟩, ⟨rfl, rfl⟩, ⟨rfl, rfl⟩⟩
  have stored := (count ch).trans (storeFrameByte_frame b { ch with fpos := ch.fpos + 1 }).1
  have body : SameOutsideDecoder ch (bodyCheck (storeFrameByte b { ch with fpos := ch.fpos + 1 })) := by
    rw [bodyCheck_eq]
    exact stored.trans ⟨⟨rfl, rfl, rfl, rfl, rfl⟩, ⟨rfl, rfl⟩, ⟨rfl, rfl⟩, ⟨rfl, rfl⟩⟩
  cases h : ch.fphase with
  | discard => rw [frameAccept_discard h]; exact count ch
  | hdr => rw [frameAccept_hdr h]; exact (stored.trans (takeHeaderByte_frame ..).1).trans (headerCheck_frame ..)
  | body => rw [frameAccept_body h]; exact body
  | held => rw [frameAccept_held h]; exact body

/-- What the header check leaves of FPOS and the buffer. -/
theorem headerCheck_fpos_fbuf (p : Params) (ch : Channel) :
    (headerCheck p ch).fpos = ch.fpos ∧ (headerCheck p ch).fbuf = ch.fbuf := by
  rcases headerCheck_cases p ch with ⟨-, e⟩ | ⟨-, -, e⟩ | ⟨-, -, e⟩ <;> rw [e]
  · exact ⟨rfl, rfl⟩
  · exact ⟨(malformedHeader_spec p ch).2.2.2.2.2.1, (malformedHeader_spec p ch).2.2.2.2.2.2.1⟩
  · exact ⟨rfl, rfl⟩

/-- FrameAccept counts every byte. -/
theorem frameAccept_fpos (p : Params) (b : Byte) (ch : Channel) : (frameAccept p b ch).fpos = ch.fpos + 1 := by
  cases h : ch.fphase with
  | discard => rw [frameAccept_discard h]
  | hdr => rw [frameAccept_hdr h, (headerCheck_fpos_fbuf ..).1, takeHeaderByte_fpos]; rfl
  | body => rw [frameAccept_body h, bodyCheck_eq]; rfl
  | held => rw [frameAccept_held h, bodyCheck_eq]; rfl

/-- FrameAccept stores at index FCNT, or not at all in DISCARD. -/
theorem frameAccept_fbuf (p : Params) (b : Byte) (ch : Channel) :
    (frameAccept p b ch).fbuf = if ch.fphase = .discard then ch.fbuf else ch.fbuf.write ch.fcnt.toNat b := by
  cases h : ch.fphase with
  | discard => rw [frameAccept_discard h]; rfl
  | hdr => rw [frameAccept_hdr h, (headerCheck_fpos_fbuf ..).2, takeHeaderByte_fbuf]; rfl
  | body => rw [frameAccept_body h, bodyCheck_eq]; rfl
  | held => rw [frameAccept_held h, bodyCheck_eq]; rfl

/-! ## Release and reset -/

theorem frameRelease_frame (ch : Channel) :
    SameOutsideDecoder ch (frameRelease ch) ∧ SameError ch (frameRelease ch) ∧ (frameRelease ch).fbuf = ch.fbuf ∧
      (frameRelease ch).fpos = ch.fpos ∧ AtFrameStart (frameRelease ch) :=
  ⟨⟨⟨rfl, rfl, rfl, rfl, rfl⟩, ⟨rfl, rfl⟩, ⟨rfl, rfl⟩, ⟨rfl, rfl⟩⟩, ⟨rfl, rfl, rfl, rfl, rfl, rfl⟩, rfl, rfl,
    ⟨rfl, rfl, rfl, rfl⟩⟩

theorem frameReset_frame (ch : Channel) :
    SameOutsideDecoder ch (frameReset ch) ∧ SameError ch (frameReset ch) ∧ (frameReset ch).fbuf = ch.fbuf ∧
      (frameReset ch).fpos = 0 ∧ AtFrameStart (frameReset ch) :=
  ⟨⟨⟨rfl, rfl, rfl, rfl, rfl⟩, ⟨rfl, rfl⟩, ⟨rfl, rfl⟩, ⟨rfl, rfl⟩⟩, ⟨rfl, rfl, rfl, rfl, rfl, rfl⟩, rfl, rfl,
    ⟨rfl, rfl, rfl, rfl⟩⟩

end Sys2Proof.Machine
end

