-- ==== Sys2Proof/Laws/Header.lean ====
section
/-! SUPPORT. What a legal configuration bounds (00_scope.md R7), and that the length field's accumulation is exact while the
header arrives (41_frame.md R141, R143). -/

namespace Sys2Proof.Machine

/-- The bounds of a legal configuration. -/
theorem bounds_of_wf {p : Params} (h : p.wf = true) :
    1 ≤ p.lenBytes ∧ p.lenBytes ≤ 4 ∧ p.hdrSize = 1 + p.lenBytes ∧ p.hdrSize ≤ p.maxFrame ∧ p.maxFrame ≤ 131072 ∧
      ∀ c, (p.keyInit c).length ≤ 256 := by
  simp only [Params.wf, Params.lenBytesOk, Params.maxFrameOk, Params.keyInitOk, kMax, Bool.and_eq_true, decide_eq_true_eq] at h
  obtain ⟨⟨⟨⟨a, b⟩, c, d⟩, k0⟩, k1⟩ := h
  refine ⟨a, b, rfl, c, d, fun x => ?_⟩
  cases x
  · exact of_decide_eq_true k0
  · exact of_decide_eq_true k1

/-- A byte of the length field is below the field's width, and the next header byte is the next of the field. -/
theorem lenIndex_succ {p : Params} {h : Nat} (hh : h < p.hdrSize) (ht : h ≠ typeIndex p) :
    lenIndex p h < p.lenBytes ∧ lenIndex p (h + 1) = lenIndex p h + 1 := by
  unfold Params.hdrSize at hh
  unfold typeIndex at ht
  unfold lenIndex
  cases hx : p.typePos <;> rw [hx] at ht <;> simp_all <;> omega

/-- The accumulated length stays below 256 to the number of bytes taken, in either byte order, and within 32 bits. -/
theorem length_lt {p : Params} (hp : p.wf = true) {h : Nat} (hh : h < p.hdrSize) (ht : h ≠ typeIndex p) (b : Byte) {n : Nat}
    (hn : n < 256 ^ lenIndex p h) :
    n * 256 + b.toNat < 256 ^ lenIndex p (h + 1) ∧ n + b.toNat * 256 ^ lenIndex p h < 256 ^ lenIndex p (h + 1) ∧
      256 ^ lenIndex p (h + 1) ≤ 2 ^ 32 := by
  have hb := b.isLt
  obtain ⟨h1, h2⟩ := lenIndex_succ hh ht
  have w := bounds_of_wf hp
  refine ⟨?_, ?_, ?_⟩
  · rw [h2, pow_succ]; omega
  · rw [h2, pow_succ]; nlinarith [Nat.one_le_pow (lenIndex p h) 256 (by norm_num)]
  · calc 256 ^ lenIndex p (h + 1) ≤ 256 ^ 4 := Nat.pow_le_pow_right (by norm_num) (by omega)
      _ = 2 ^ 32 := by norm_num

/-- FLEN after a header byte is the exact length. -/
theorem toNat_flen_after {p : Params} (hp : p.wf = true) {a : Channel} (b : Byte) (hh : a.fcnt.toNat < p.hdrSize)
    (hl : a.flen.toNat < 256 ^ lenIndex p a.fcnt.toNat) :
    (if a.fcnt.toNat = typeIndex p then a.flen else lenAccumulate p a.fcnt.toNat b a.flen).toNat = lengthAfter p b a := by
  unfold lengthAfter
  split
  · rfl
  · rename_i ht
    obtain ⟨x, y, z⟩ := length_lt hp hh ht b hl
    unfold lenAccumulate
    cases p.lenOrder <;> simp only [BitVec.toNat_ofNat] <;> apply Nat.mod_eq_of_lt <;> omega

/-- The next index of a fill that is not full. -/
theorem toNat_fcnt_succ {n : BitVec 18} (h : n.toNat < 131072) : (n + 1).toNat = n.toNat + 1 := by
  rw [BitVec.toNat_add]
  exact Nat.mod_eq_of_lt (by simp; omega)

end Sys2Proof.Machine
end

