-- ==== Sys2Proof/Laws/Map.lean ====
section
/-! SUPPORT. The address map (20_memory.md R63, R64), one lemma per area, and what a step's Read or Write of an offset does once
its target is known. -/

namespace Sys2Proof.Machine

/-! ## The areas of the map -/

/-- Each register stands at its offset. -/
theorem target_reg (p : Params) (r : Reg) : target p r.offset = .reg r := by
  cases r <;> simp [target, regAt, Reg.offset]

/-- Each byte of KEY stands in its window. -/
theorem target_key (p : Params) {n : Nat} (h : n < 256) : target p (BitVec.ofNat 20 (0x400 + 4 * n)) = .key (BitVec.ofNat 8 n) := by
  have e : (BitVec.ofNat 20 (0x400 + 4 * n)).toNat = 0x400 + 4 * n := by
    rw [BitVec.toNat_ofNat]; exact Nat.mod_eq_of_lt (by omega)
  unfold target
  simp only [e]
  rw [if_neg (by omega), if_neg (by omega), if_pos (by omega), show (0x400 + 4 * n - 0x400) / 4 = n by omega]

/-- Each byte of S stands in its window. -/
theorem target_sbox (p : Params) {n : Nat} (h : n < 256) : target p (BitVec.ofNat 20 (0x800 + 4 * n)) = .sbox (BitVec.ofNat 8 n) := by
  have e : (BitVec.ofNat 20 (0x800 + 4 * n)).toNat = 0x800 + 4 * n := by
    rw [BitVec.toNat_ofNat]; exact Nat.mod_eq_of_lt (by omega)
  unfold target
  simp only [e]
  rw [if_neg (by omega), if_neg (by omega), if_neg (by omega), if_pos (by omega),
    show (0x800 + 4 * n - 0x800) / 4 = n by omega]

/-- Each byte of FBUF stands in its window. -/
theorem target_fbuf {p : Params} (hp : p.maxFrame ≤ 131072) {n : Nat} (h : n < p.maxFrame) :
    target p (BitVec.ofNat 20 (0x80000 + 4 * n)) = .fbuf n := by
  have e : (BitVec.ofNat 20 (0x80000 + 4 * n)).toNat = 0x80000 + 4 * n := by
    rw [BitVec.toNat_ofNat]; exact Nat.mod_eq_of_lt (by omega)
  unfold target
  simp only [e]
  rw [if_neg (by omega), if_neg (by omega), if_neg (by omega), if_neg (by omega), if_pos (by omega),
    show (0x80000 + 4 * n - 0x80000) / 4 = n by omega]

/-- An offset that is no multiple of 4 is misaligned. -/
theorem target_misaligned (p : Params) {o : Offset} (h : o.toNat % 4 ≠ 0) : target p o = .misaligned := by
  unfold target
  rw [if_pos h]

/-- The words of the register block above MAXFRAME are unmapped. -/
theorem target_hole (p : Params) {o : Offset} (h : o.toNat % 4 = 0) (h1 : 0x44 ≤ o.toNat) (h2 : o.toNat < 0x400) :
    target p o = .unmapped := by
  have none (k : Nat) (hk : 17 ≤ k) : regAt k = Option.none := by
    unfold regAt
    split <;> first | omega | rfl
  unfold target
  rw [if_neg (by omega), if_pos h2]
  simp only [none (o.toNat / 4) (by omega)]

/-- Everything outside the register block and the three windows is unmapped. -/
theorem target_outside {p : Params} {o : Offset} (h : o.toNat % 4 = 0)
    (k : (0xC00 ≤ o.toNat ∧ o.toNat < 0x80000) ∨ (0xC00 ≤ o.toNat ∧ 0x80000 + 4 * p.maxFrame ≤ o.toNat)) :
    target p o = .unmapped := by
  unfold target
  simp only
  rw [if_neg (by omega), if_neg (by omega), if_neg (by omega), if_neg (by omega), if_neg (by omega)]

/-! ## Steps, once the target is known -/

/-- A Read answered from the channel without touching it. -/
theorem answersRead_of {s : State} {c : Chan} {rest : List HostEvent} {o : Offset} {v : Word}
    (h : Waiting s (.read (busAddr c o)) rest)
    (e : ∀ x : State, x.params = s.params → x.cur = s.chan c → readTarget (target s.params o) o x = x.reply v) :
    AnswersRead s c rest v := by
  refine ⟨_, step_read h.params h.pending, ?_⟩
  simp only [busRead, chanOf_busAddr, offsetOf_busAddr]
  rw [e { s with pending := rest, sel := c } rfl (by cases c <;> rfl)]
  refine ⟨rfl, fun d => ?_, rfl, rfl, rfl, rfl⟩
  cases d <;> rfl

/-- A Read of a register. -/
theorem readsAs_reg {s : State} {c : Chan} {rest : List HostEvent} (r : Reg) :
    ReadsAs s c rest r.offset (readReg s.params (s.chan c) r) := fun h =>
  answersRead_of h (fun x hp hc => by rw [target_reg, ← hp, ← hc]; rfl)

/-- What a register reads after every reset, from what it reads of a channel just reset. -/
theorem readsAfterReset_reg {c : Chan} {r : Reg} {value : Params → Word → Prop}
    (h : ∀ p draw, p.wf = true → value p (readReg p (Channel.reset p draw c) r)) : ReadsAfterReset c r.offset value := by
  refine ⟨fun p rest hp => ⟨_, readsAs_reg r ⟨hp, rfl⟩, ?_⟩, fun s later rest hs => ?_⟩
  · rw [State.chan_withPending, State.resetWith_chan]
    exact h p 0 hp
  · have reads (y : State) (hy : y.params.wf = true) :
        AnswersRead { y with pending := .read (busAddr c r.offset) :: rest } c rest (readReg y.params (y.chan c) r) := by
      have := readsAs_reg (s := { y with pending := .read (busAddr c r.offset) :: rest }) (c := c) (rest := rest) r ⟨hy, rfl⟩
      rwa [State.chan_withPending] at this
    refine ⟨_, _, step_pending hs.params hs.pending, reads (State.hardwareReset { s with pending := later }) ?_, ?_⟩
    · rw [State.hardwareReset_params]
      exact hs.params
    · rw [State.hardwareReset_params, State.hardwareReset_chan]
      exact h s.params s.draws hs.params

/-- A Read that finds no element. -/
theorem answersBadRead_of {s : State} {c : Chan} {rest : List HostEvent} {o : Offset}
    (h : Waiting s (.read (busAddr c o)) rest)
    (e : target s.params o = .misaligned ∨ target s.params o = .unmapped) :
    AnswersBadRead s c rest (BitVec.ofNat 32 o.toNat) := by
  have info : zextOffset o = BitVec.ofNat 32 o.toNat := by
    apply BitVec.eq_of_toNat_eq
    simp [zextOffset]
  have cur : State.cur { s with pending := rest, sel := c } = s.chan c := by cases c <;> rfl
  have next : step s = .next ((({ s with pending := rest, sel := c } : State).onCur (badAddress o)).reply 0) := by
    rw [step_read h.params h.pending]
    simp only [busRead, chanOf_busAddr, offsetOf_busAddr]
    rcases e with e | e <;> rw [e] <;> rfl
  refine ⟨_, next, by simp, fun d hd => ?_, by simp, by simp, by simp, by simp, ?_⟩
  · rw [State.reply_chan, State.chan_onCur_other _ _ hd]
    cases d <;> rfl
  · have := State.chan_onCur_sel ({ s with pending := rest, sel := c }) (badAddress o)
    rw [State.reply_chan, this, cur, ← info]
    exact reject_rejected .badAddr (zextOffset o) (s.chan c)

/-- A Write, from its effect on the channel. -/
theorem performsWrite_of {s : State} {c : Chan} {rest : List HostEvent} {o : Offset} {v : Word}
    {effect : Channel → Channel → Prop} (h : Waiting s (.write (busAddr c o) v) rest)
    (e : effect (s.chan c) (writeEffect s.params o v (s.chan c))) : PerformsWrite s c rest effect := by
  have cur : State.cur { s with pending := rest, sel := c } = s.chan c := by cases c <;> rfl
  refine ⟨_, step_write h.params h.pending, ?_⟩
  simp only [chanOf_busAddr, offsetOf_busAddr]
  refine ⟨by simp, fun d hd => ?_, by simp, by simp, by simp, by simp, ?_⟩
  · rw [State.chan_onCur_other _ _ hd]
    cases d <;> rfl
  · have := State.chan_onCur_sel ({ s with pending := rest, sel := c }) (writeEffect s.params o v)
    rwa [this, cur]

/-- A Write whose target takes none. -/
theorem refusesWrites_of {s : State} {c : Chan} {rest : List HostEvent} {o : Offset}
    (e : ∀ v, writeEffect s.params o v = badAddress o) : RefusesWrites s c rest o := by
  intro v h
  have info : zextOffset o = BitVec.ofNat 32 o.toNat := by
    apply BitVec.eq_of_toNat_eq
    simp [zextOffset]
  refine performsWrite_of h ?_
  rw [e v, ← info]
  exact reject_rejected .badAddr (zextOffset o) (s.chan c)

end Sys2Proof.Machine
end

