-- ==== Sys2Proof/Laws/PerInstr.lean ====
section
/-! SUPPORT. Statements for all instructions, one lemma per constructor. The family `RowMatch`: the word of a command matches
its own row of 30_encoding.md R93, `(w & mask) = match`, and has RSV 0 (R91). -/

namespace Sys2Proof.Laws

/-- The `match` column of 30_encoding.md R93. -/
def rowMatch : Instr → Word
  | .nop => 0x00000000
  | .cinit => 0x10000000
  | .kstep => 0x20000000
  | .krun => 0x30000000
  | .dec _ => 0x40000000
  | .decf _ => 0x50000000
  | .feed _ => 0x60000000
  | .frst => 0x70000000
  | .fack => 0x80000000
  | .conn => 0x90000000
  | .close => 0xA0000000

/-- The `mask` column of 30_encoding.md R93. -/
def rowMask : Instr → Word
  | .dec _ => 0xFFFFFF00
  | .decf _ => 0xFFFFFF00
  | .feed _ => 0xFFFFFF00
  | .nop => 0xFFFFFFFF
  | .cinit => 0xFFFFFFFF
  | .kstep => 0xFFFFFFFF
  | .krun => 0xFFFFFFFF
  | .frst => 0xFFFFFFFF
  | .fack => 0xFFFFFFFF
  | .conn => 0xFFFFFFFF
  | .close => 0xFFFFFFFF

/-- The word of a command matches the command's row, carries its D, and has RSV 0. -/
def RowMatch.Statement (i : Instr) : Prop :=
  encode i &&& rowMask i = rowMatch i ∧ dataField (encode i) = i.data ∧ rsvField (encode i) = 0

/-- The fields of any word of an opcode and a data byte. -/
theorem fields_of_word (op : BitVec 4) (d : Byte) :
    (placeField 28 op ||| placeField 0 d) &&& 0xFFFFFF00 = placeField 28 op ∧
      dataField (placeField 28 op ||| placeField 0 d) = d ∧ rsvField (placeField 28 op ||| placeField 0 d) = 0 ∧
      opField (placeField 28 op ||| placeField 0 d) = op := by
  refine ⟨?_, ?_, ?_, ?_⟩ <;> apply BitVec.eq_of_getLsbD_eq <;> intro n hn
  · have mask : ∀ k, k < 32 → (0xFFFFFF00 : Word).getLsbD k = decide (8 ≤ k) := by decide
    rw [BitVec.getLsbD_and, mask n hn]
    by_cases h : n < 8
    · have : ¬ 8 ≤ n := by omega
      have h28 : n < 28 := by omega
      simp [placeField, this, h28, hn]
    · have h8 : 8 ≤ n := by omega
      simp [placeField, h8, hn]
  · have h28 : n < 28 := by omega
    have h32 : n < 32 := by omega
    simp [dataField, placeField, hn, h28, h32]
  · have h28 : 8 + n < 28 := by omega
    have h32 : 8 + n < 32 := by omega
    simp [rsvField, placeField, hn, h28, h32]
  · have h32 : 28 + n < 32 := by omega
    have hd : d.getLsbD (28 + n) = false := BitVec.getLsbD_of_ge _ _ (by omega)
    simp [opField, placeField, hn, h32, hd]

theorem RowMatch.nop : RowMatch.Statement .nop := by unfold RowMatch.Statement; decide
theorem RowMatch.cinit : RowMatch.Statement .cinit := by unfold RowMatch.Statement; decide
theorem RowMatch.kstep : RowMatch.Statement .kstep := by unfold RowMatch.Statement; decide
theorem RowMatch.krun : RowMatch.Statement .krun := by unfold RowMatch.Statement; decide
theorem RowMatch.dec (d : Byte) : RowMatch.Statement (.dec d) :=
  let h := fields_of_word 0x4 d; ⟨h.1.trans (show placeField 28 0x4#4 = 0x40000000 by decide), h.2.1, h.2.2.1⟩
theorem RowMatch.decf (d : Byte) : RowMatch.Statement (.decf d) :=
  let h := fields_of_word 0x5 d; ⟨h.1.trans (show placeField 28 0x5#4 = 0x50000000 by decide), h.2.1, h.2.2.1⟩
theorem RowMatch.feed (d : Byte) : RowMatch.Statement (.feed d) :=
  let h := fields_of_word 0x6 d; ⟨h.1.trans (show placeField 28 0x6#4 = 0x60000000 by decide), h.2.1, h.2.2.1⟩
theorem RowMatch.frst : RowMatch.Statement .frst := by unfold RowMatch.Statement; decide
theorem RowMatch.fack : RowMatch.Statement .fack := by unfold RowMatch.Statement; decide
theorem RowMatch.conn : RowMatch.Statement .conn := by unfold RowMatch.Statement; decide
theorem RowMatch.close : RowMatch.Statement .close := by unfold RowMatch.Statement; decide

end Sys2Proof.Laws
end

