-- ==== Sys2Proof/Tests/Slice0.lean ====
section
/-! SUPPORT. Tests on fixed values: the checks of WellFormed.lean, words written out from 30_encoding.md, one step per command
with results taken from 95_test_vectors.md (named C, F, X, B) or worked by hand from the rules, and for each statement with
hypotheses a witness that meets them. -/

namespace Sys2Proof.Tests

open Sys2Proof.Machine

/-! ## WellFormed: an ill-formed term for each check -/

/-- 00_scope.md R7: LEN_BYTES is 1 to 4. -/
theorem test_len_bytes :
    ({ Params.default with lenBytes := 0 } : Params).wf = false ∧ ({ Params.default with lenBytes := 5 } : Params).wf = false ∧
      ({ Params.default with lenBytes := 1 } : Params).wf = true ∧ ({ Params.default with lenBytes := 4 } : Params).wf = true := by
  decide

/-- 00_scope.md R7: MAX_FRAME is HDR_SIZE to 131072. -/
theorem test_max_frame :
    ({ Params.default with maxFrame := 3 } : Params).wf = false ∧
      ({ Params.default with maxFrame := 131073 } : Params).wf = false ∧
      ({ Params.default with maxFrame := 4 } : Params).wf = true ∧
      ({ Params.default with maxFrame := 131072 } : Params).wf = true := by
  decide

/-- 00_scope.md R7: a static key has at most 256 bytes. -/
theorem test_key_init :
    ({ Params.default with keyInit0 := List.replicate 257 0 } : Params).wf = false ∧
      ({ Params.default with keyInit1 := List.replicate 257 0 } : Params).wf = false ∧
      ({ Params.default with keyInit0 := List.replicate 256 0 } : Params).wf = true := by
  decide +kernel

/-- 30_encoding.md R97: a data byte is 0 to 255, alone or in a list. -/
theorem test_data_byte :
    (AsmCommand.dec 256).wf = false ∧ (AsmCommand.decf 256).wf = false ∧ (AsmCommand.feed 256).wf = false ∧
      (AsmCommand.enc 256).wf = false ∧ (AsmCommand.decs [1, 256]).wf = false ∧ (AsmCommand.decfs [256]).wf = false ∧
      (AsmCommand.feeds [0, 256]).wf = false ∧ (AsmCommand.dec 255).wf = true := by
  decide

/-- 30_encoding.md R98: the numbers of a bus transaction line fit. -/
theorem test_line :
    Line.wf ⟨.c0, .wr (.key 256) 0⟩ = false ∧ Line.wf ⟨.c0, .rd (.sbox 256)⟩ = false ∧
      Line.wf ⟨.c0, .rd (.fbuf 131072)⟩ = false ∧ Line.wf ⟨.c0, .rd (.numeric 0x100000)⟩ = false ∧
      Line.wf ⟨.c0, .wr (.reg .ctrl) 0x100000000⟩ = false ∧ Line.wf ⟨.c1, .wr (.key 255) 0xFFFFFFFF⟩ = true ∧
      Line.wf ⟨.c1, .command (.dec 256)⟩ = false := by
  decide

/-! ## Decoding: words written out from 30_encoding.md R91, R93, R94 -/

/-- One word of every row of R93. -/
theorem test_decode_rows :
    decode 0x00000000 = .ok .nop ∧ decode 0x10000000 = .ok .cinit ∧ decode 0x20000000 = .ok .kstep ∧
      decode 0x30000000 = .ok .krun ∧ decode 0x40000041 = .ok (.dec 0x41) ∧ decode 0x500000AE = .ok (.decf 0xAE) ∧
      decode 0x60000080 = .ok (.feed 0x80) ∧ decode 0x70000000 = .ok .frst ∧ decode 0x80000000 = .ok .fack ∧
      decode 0x90000000 = .ok .conn ∧ decode 0xA0000000 = .ok .close := by
  decide

/-- R94 (a), (b), (c): the unused opcodes, the lowest and the highest reserved bit, D in a command that has none. -/
theorem test_decode_illegal :
    decode 0xB0000000 = .error .opcode ∧ decode 0xFFFFFFFF = .error .opcode ∧ decode 0x40000141 = .error .reserved ∧
      decode 0x68000000 = .error .reserved ∧ decode 0x00000001 = .error .data ∧ decode 0xA0000080 = .error .data := by
  decide

/-- The table's numbering is the word's: a command is one 32-bit word. -/
theorem test_decode_table_word :
    decodeTableWord 32 0x40000041 = some (.dec 0x41) ∧ decodeTableWord 32 0xB0000000 = none := by
  decide

/-- The encoder gives the words of 95_test_vectors.md L3. -/
theorem test_encode :
    encode .conn = 0x90000000 ∧ encode (.dec 0xC2) = 0x400000C2 ∧ encode (.decf 0x05) = 0x50000005 ∧
      encode (.feed 0x42) = 0x60000042 ∧ encode .close = 0xA0000000 := by
  decide

/-! ## Host program text -/

/-- L3.1: `c1: CONN` is W 100010 <- 90000000, and `DEC 0x41 ; n` goes to channel 0. -/
theorem test_assemble_commands :
    assemble [['c', '1', ':', ' ', 'C', 'O', 'N', 'N'], ['D', 'E', 'C', ' ', '0', 'x', '4', '1', ' ', ';', ' ', 'n']] =
      some [.write 0x100010 0x90000000, .write 0x000010 0x40000041] := by
  decide

/-- L3.1, L3.2: `c1: WR KEY[0], 'x'`, `FEEDS 0x06, 'A'` and `RD FBUF[4] -> 0x41`. -/
theorem test_assemble_lines :
    assemble [['c', '1', ':', ' ', 'W', 'R', ' ', 'K', 'E', 'Y', '[', '0', ']', ',', ' ', '\'', 'x', '\''],
        ['F', 'E', 'E', 'D', 'S', ' ', '0', 'x', '0', '6', ',', ' ', '\'', 'A', '\''],
        ['R', 'D', ' ', 'F', 'B', 'U', 'F', '[', '4', ']', ' ', '-', '>', ' ', '0', 'x', '4', '1']] =
      some [.write 0x100400 0x78, .write 0x000010 0x60000006, .write 0x000010 0x60000041, .read 0x080010] := by
  decide

/-- R97 and notes/assumptions/25.md: a quoted character is its code, up to 255. -/
theorem test_quoted_character :
    parseLine ['D', 'E', 'C', ' ', '\'', 'A', '\''] = some [⟨.c0, .command (.dec 0x41)⟩] ∧
      parseLine ['D', 'E', 'C', ' ', '\'', Char.ofNat 255, '\''] = some [⟨.c0, .command (.dec 0xFF)⟩] ∧
      parseLine ['D', 'E', 'C', ' ', '\'', Char.ofNat 256, '\''] = none := by
  decide

/-- notes/assumptions/26.md and 27.md: a quoted index, and an arrow's value wider than any register. -/
theorem test_quoted_index_and_arrow :
    parseLine ['R', 'D', ' ', 'K', 'E', 'Y', '[', '\'', 'A', '\'', ']'] = some [⟨.c0, .rd (.key 65)⟩] ∧
      parseLine ['R', 'D', ' ', 'C', 'M', 'D', ' ', '-', '>', ' ', '4', '2', '9', '4', '9', '6', '7', '2', '9', '6'] =
        some [⟨.c0, .rd (.reg .cmd)⟩] := by
  decide

/-! ## One step -/

/-- The machine after reset with channel 0 changed by `f`. -/
def start (f : Channel → Channel) : State := { State.reset with ch0 := f State.reset.ch0 }

/-- The machine `s` with the host's event `e` waiting. -/
def waiting (e : HostEvent) (s : State) : State := { s with pending := [e] }

/-- The state one step leaves. -/
def after (s : State) : State :=
  match step s with
  | .next t => t
  | .fault _ => s
  | .refused _ => s

/-- The state after the word `w` is written to CMD of channel 0. -/
def command (w : Word) (s : State) : State := after (waiting (.write 0x000010 w) s)

/-- A register of channel 0. -/
def reg (r : Reg) (s : State) : Word := readReg s.params s.ch0 r

/-- The value of the newest Read. -/
def answer (s : State) : Option Word := s.replies.head?

/-- X12, X13: NOP leaves FPOS and COUNT, and NOP with D = 1 is illegal. -/
theorem test_nop :
    reg .fpos (command 0x00000000 (start fun ch => { ch with fpos := 7, count := 9 })) = 7 ∧
      reg .count (command 0x00000000 (start fun ch => { ch with fpos := 7, count := 9 })) = 9 ∧
      reg .status (command 0x00000001 (start id)) = 0x120 ∧ reg .errInfo (command 0x00000001 (start id)) = 1 := by
  decide +kernel

/-- C1: CINIT with KLEN 1. -/
theorem test_cinit :
    let t := command 0x10000000 (start fun ch => { ch with klen := 1, i := 3, j := 4, count := 5 })
    reg .status t = 1 ∧ reg .index t = 0 ∧ reg .count t = 0 ∧ tableGet t.ch0.sbox 0 = 0 ∧ tableGet t.ch0.sbox 0x9C = 0x9C ∧
      tableGet t.ch0.sbox 0xFF = 0xFF := by
  decide +kernel

/-- C15, C16: CINIT with KLEN 0 and 0x1FF. -/
theorem test_cinit_keylen :
    reg .status (command 0x10000000 (start id)) = 0x320 ∧ reg .errInfo (command 0x10000000 (start id)) = 0 ∧
      reg .errInfo (command 0x10000000 (start fun ch => { ch with klen := 0x1FF })) = 0x1FF := by
  decide +kernel

/-- Channel 0 as after C1: key 78, KLEN 1, CINIT done. -/
def afterC1 (ch : Channel) : Channel :=
  { ch with key := tableSet tableIdentity 0 0x78, klen := 1, sbox := tableIdentity, cphase := .ksa }

/-- C2: the first KSTEP. -/
theorem test_kstep :
    let t := command 0x20000000 (start afterC1)
    reg .index t = 0x7801 ∧ reg .status t = 1 ∧ tableGet t.ch0.sbox 0 = 120 ∧ tableGet t.ch0.sbox 120 = 0 := by
  decide +kernel

/-- C7, C8: the KSTEP with i = 255 reaches READY; a KSTEP in READY is rejected. -/
theorem test_kstep_end :
    let t := command 0x20000000 (start fun ch => { afterC1 ch with i := 0xFF, j := 0xEC })
    reg .status t = 2 ∧ reg .index t = 0 ∧
      reg .status (command 0x20000000 (start fun ch => { ch with cphase := .ready })) = 0x222 ∧
      reg .errInfo (command 0x20000000 (start fun ch => { ch with cphase := .ready })) = 0x20000000 := by
  decide +kernel

/-- By hand from R112: KRUN from i = 254, j = 0 over the identity with KEY[0] = 0: j = 254, then 253. -/
theorem test_krun :
    let t := command 0x30000000 (start fun ch => { afterC1 ch with key := tableIdentity, i := 254 })
    reg .status t = 2 ∧ reg .index t = 0 ∧ tableGet t.ch0.sbox 255 = 253 ∧ tableGet t.ch0.sbox 253 = 255 ∧
      tableGet t.ch0.sbox 254 = 254 := by
  decide +kernel

/-- C23: KRUN in READY. -/
theorem test_krun_rejected :
    reg .status (command 0x30000000 (start fun ch => { ch with cphase := .ready })) = 0x222 ∧
      reg .errInfo (command 0x30000000 (start fun ch => { ch with cphase := .ready })) = 0x30000000 := by
  decide +kernel

/-- Channel 0 READY over the identity table. -/
def readyIdentity (ch : Channel) : Channel := { ch with cphase := .ready, sbox := tableIdentity }

/-- By hand from R113, and C17: over the identity i = j = 1, K = S[2] = 2, and COUNT wraps. -/
theorem test_dec :
    let t := command 0x40000005 (start fun ch => { readyIdentity ch with count := 0xFFFFFFFF })
    reg .result t = 0x0207 ∧ reg .index t = 0x0101 ∧ reg .count t = 0 ∧ reg .status t = 2 := by
  decide +kernel

/-- C18: DEC in UNKEYED. -/
theorem test_dec_rejected :
    let t := command 0x40000041 (start id)
    reg .status t = 0x220 ∧ reg .errInfo t = 0x40000041 ∧ reg .count t = 0 ∧ reg .result t = 0 := by
  decide +kernel

/-- By hand from R171: K = 2 as in `test_dec`, so the plaintext 1 becomes the type byte. -/
theorem test_decf :
    let t := command 0x50000003 (start readyIdentity)
    reg .result t = 0x0201 ∧ reg .count t = 1 ∧ reg .fpos t = 1 ∧ reg .frameType t = 1 ∧ reg .fill t = 1 ∧
      t.ch0.fbuf = [(0, 1)] := by
  decide +kernel

/-- X5: BAD_PHASE wins over FRAME_HELD; X3: FRAME_HELD in READY. -/
theorem test_decf_rejected :
    reg .status (command 0x50000033 (start fun ch => { ch with fphase := .held })) = 0x238 ∧
      reg .errInfo (command 0x50000033 (start fun ch => { ch with fphase := .held })) = 0x50000033 ∧
      reg .status (command 0x50000051 (start fun ch => { readyIdentity ch with fphase := .held, ieFrame := true })) = 0x4BA := by
  decide +kernel

/-- Channel 0 with the header bytes 09 00 00 taken. -/
def threeBytes (ch : Channel) : Channel := { ch with fcnt := 3, ftype := 9, fpos := 3, fbuf := [(0, 9)] }

/-- F7, F8: the last header byte of an empty frame, and of a malformed one. -/
theorem test_feed_header :
    reg .status (command 0x60000004 (start threeBytes)) = 0x18 ∧ reg .frameLen (command 0x60000004 (start threeBytes)) = 4 ∧
      reg .status (command 0x60000003 (start threeBytes)) = 0x52C ∧
      reg .errInfo (command 0x60000003 (start threeBytes)) = 3 ∧ reg .errPos (command 0x60000003 (start threeBytes)) = 0 ∧
      reg .errType (command 0x60000003 (start threeBytes)) = 9 ∧ reg .fill (command 0x60000003 (start threeBytes)) = 0 := by
  decide +kernel

/-- F2, F3: the last byte of a frame, and one byte more. -/
theorem test_feed_held :
    let body := start fun ch => { ch with fphase := .body, fcnt := 5, flen := 6, ftype := 1, fpos := 5 }
    reg .status (command 0x60000042 body) = 0x18 ∧ reg .fill (command 0x60000042 body) = 6 ∧
      Memory.read (command 0x60000042 body).ch0.fbuf 5 = 0x42 ∧
      reg .status (command 0x60000002 (start fun ch => { ch with fphase := .held, fpos := 6 })) = 0x438 ∧
      reg .fpos (command 0x60000002 (start fun ch => { ch with fphase := .held, fpos := 6 })) = 6 := by
  decide +kernel

/-- Channel 0 with the frame 01 00 00 05 09 held. -/
def heldFrame (ch : Channel) : Channel :=
  { ch with fphase := .held, fcnt := 5, flen := 5, ftype := 1, fpos := 5, fbuf := [(0, 1), (3, 5), (4, 9)] }

/-- F23: FRST drops a held frame. -/
theorem test_frst :
    reg .status (command 0x70000000 (start heldFrame)) = 0 ∧ reg .fpos (command 0x70000000 (start heldFrame)) = 0 ∧
      reg .fill (command 0x70000000 (start heldFrame)) = 0 := by
  decide +kernel

/-- F4, F6: FACK releases a held frame and keeps FPOS; with none held it is rejected. -/
theorem test_fack :
    reg .status (command 0x80000000 (start heldFrame)) = 0 ∧ reg .fpos (command 0x80000000 (start heldFrame)) = 5 ∧
      reg .frameLen (command 0x80000000 (start heldFrame)) = 0 ∧ reg .status (command 0x80000000 (start id)) = 0x820 ∧
      reg .errInfo (command 0x80000000 (start id)) = 0x80000000 := by
  decide +kernel

/-- X8: CONN with KLEN 257, with a frame held. -/
theorem test_conn_keylen :
    let t := command 0x90000000 (start fun ch => { heldFrame ch with klen := 257 })
    reg .status t = 0x320 ∧ reg .errInfo t = 0x101 ∧ reg .fpos t = 0 ∧ reg .fill t = 0 := by
  decide +kernel

/-- C4, X1: CONN with the key 78 leaves S[0..15] as the vector has it. The kernel runs the whole schedule. -/
theorem test_conn :
    (command 0x90000000 (start afterC1)).ch0.sbox.toList.take 16 =
      [0x13, 0x02, 0x29, 0x74, 0xC2, 0x39, 0xB3, 0x50, 0x8D, 0x11, 0x5F, 0xE2, 0x0A, 0xEB, 0x8E, 0x64] := by
  decide +kernel

/-- X10: CLOSE keeps RESULT and S, and clears the rest. -/
theorem test_close :
    let t := command 0xA0000000 (start fun ch => { readyIdentity ch with i := 11, j := 0x95, count := 11, resultPt := 0x43 })
    reg .status t = 0 ∧ reg .index t = 0 ∧ reg .count t = 0 ∧ reg .result t = 0x43 ∧ tableGet t.ch0.sbox 7 = 7 := by
  decide +kernel

/-! ## The bus -/

/-- B1, B3, B11: reads that find no element. -/
theorem test_bad_reads :
    answer (after (waiting (.read 0x044) (start id))) = some 0 ∧
      reg .status (after (waiting (.read 0x044) (start id))) = 0x720 ∧
      reg .errInfo (after (waiting (.read 0x002) (start id))) = 2 ∧
      reg .errInfo (after (waiting (.read 0xC00) (start id))) = 0xC00 ∧
      reg .errInfo (after (waiting (.read 0x0C0000) (start id))) = 0xC0000 := by
  decide +kernel

/-- B2, B4, B9: writes that are refused, a misaligned CONN among them. -/
theorem test_refused_writes :
    reg .errInfo (after (waiting (.write 0x004 5) (start id))) = 4 ∧
      reg .errInfo (after (waiting (.write 0x011 0x90000000) (start afterC1))) = 0x11 ∧
      reg .status (after (waiting (.write 0x011 0x90000000) (start afterC1))) = 0x721 ∧
      reg .errInfo (after (waiting (.write 0x800 1) (start id))) = 0x800 := by
  decide +kernel

/-- B5, B6, B7, B8: CTRL keeps two bits; an illegal command raises the interrupt; ERRCLR ends it when bit 0 is set. -/
theorem test_ctrl_irq_errclr :
    let failed := start fun ch => { ch with ieErr := true, err := true, errcode := .illegalCmd, errInfo := 0xB0000000 }
    reg .ctrl (after (waiting (.write 0x000 0xFFFFFFFF) (start id))) = 3 ∧
      reg .status (command 0xB0000000 (start fun ch => { ch with ieErr := true })) = 0x1A0 ∧
      reg .status (after (waiting (.write 0x008 1) failed)) = 0 ∧ irq (after (waiting (.write 0x008 1) failed)).ch0 = false ∧
      reg .status (after (waiting (.write 0x008 0) failed)) = 0x1A0 := by
  decide +kernel

/-- B12, B14: CMD and ERRCLR read 0; a command to channel 1 leaves channel 0. -/
theorem test_channels :
    answer (after (waiting (.read 0x010) (start id))) = some 0 ∧ answer (after (waiting (.read 0x008) (start id))) = some 0 ∧
      reg .status (after (waiting (.read 0x010) (start id))) = 0 ∧
      (after (waiting (.write 0x100010 0x80000000) (start heldFrame))).ch1.errcode = .noFrame ∧
      (after (waiting (.write 0x100010 0x80000000) (start heldFrame))).ch0.fphase = .held := by
  decide +kernel

/-- B13, C21, C22: KEY and KEYLEN, read, and locked in phase KSA. -/
theorem test_key :
    answer (after (waiting (.read 0x400) (start afterC1))) = some 0x78 ∧
      reg .status (after (waiting (.write 0x400 0) (start afterC1))) = 0x621 ∧
      tableGet (after (waiting (.write 0x400 0) (start afterC1))).ch0.key 0 = 0x78 ∧
      reg .errInfo (after (waiting (.write 0x00C 5) (start afterC1))) = 0xC ∧
      reg .keylen (after (waiting (.write 0x00C 0x3FF) (start id))) = 0x1FF := by
  decide +kernel

/-- F16, F17, F18: PARAM of other header layouts. -/
theorem test_param :
    paramWord Params.default = 0x403 ∧ paramWord { Params.default with typePos := .last, lenBytes := 4 } = 0x514 ∧
      paramWord { Params.default with typePos := .last, lenBytes := 2, lenOrder := .le } = 0x31A ∧
      paramWord { Params.default with lenBytes := 1 } = 0x201 := by
  decide

/-- What `withFetchWord` places is what the next step runs: DEC 41 in UNKEYED, as C18. -/
theorem test_with_fetch_word :
    reg .status (after (State.reset.withFetchWord 32 0x40000041)) = 0x220 ∧
      reg .errInfo (after (State.reset.withFetchWord 32 0x40000041)) = 0x40000041 := by
  decide +kernel

/-! ## Witnesses: for each statement with hypotheses, states and operands that meet them, each clause at its boundary -/

/-- An event put before the machine after reset, changed in channel 0 as one likes, is waiting. -/
theorem waiting_waiting (e : HostEvent) (f : Channel → Channel) : Waiting (waiting e (start f)) e [] :=
  ⟨show Params.default.wf = true by decide, rfl⟩

/-- A step of such a machine answers a next state. -/
theorem waiting_next (e : HostEvent) (f : Channel → Channel) : ∃ t, step (waiting e (start f)) = .next t := by
  rw [step_pending (waiting_waiting e f).params (waiting_waiting e f).pending]
  exact perform_next _ _

/-- The frame decoder of a channel set as given. -/
def frameAt (phase : FPhase) (fcnt : BitVec 18) (flen : Word) (ftype : Byte) (ch : Channel) : Channel :=
  { ch with fphase := phase, fcnt := fcnt, flen := flen, ftype := ftype }

/-- A channel after reset with such a decoder meets the invariant when the decoder's own clauses hold. -/
theorem frameAt_inv (c : Chan) (phase : FPhase) (fcnt : BitVec 18) (flen : Word) (ftype : Byte)
    (header : phase = .hdr → fcnt.toNat < 4 ∧ flen.toNat < 256 ^ (fcnt.toNat - 1) ∧ (fcnt.toNat ≤ 0 → ftype = 0))
    (body : phase = .body → 4 ≤ fcnt.toNat ∧ fcnt.toNat < flen.toNat ∧ flen.toNat ≤ 65536)
    (held : phase = .held → 4 ≤ fcnt.toNat ∧ fcnt.toNat = flen.toNat ∧ flen.toNat ≤ 65536)
    (discard : phase = .discard → fcnt = 0 ∧ flen = 0 ∧ ftype = 0) :
    Channel.Inv Params.default (frameAt phase fcnt flen ftype (Channel.reset Params.default 0 c)) where
  permutation h := absurd rfl h
  unkeyed _ := ⟨rfl, rfl, rfl⟩
  header h := (header h).1
  body := body
  held := held
  discard := discard
  error := ⟨⟨fun _ => rfl, fun _ => rfl⟩, fun h => nomatch h⟩
  errorDetail _ := ⟨rfl, rfl⟩
  lengthSoFar h := (header h).2.1
  typeSoFar h := (header h).2.2
  schedule h := nomatch h
  bufferForm := rfl
  bufferSize _ h := nomatch h

/-- The machine after reset with channel 0 changed meets the invariant when channel 0 does. -/
theorem start_inv {f : Channel → Channel} (h : Channel.Inv Params.default (f (Channel.reset Params.default 0 .c0))) :
    (start f).Inv where
  params := show Params.default.wf = true by decide
  channel c := by
    cases c
    · exact h
    · exact frameAt_inv .c1 .hdr 0 0 0 (by decide) (by decide) (by decide) (by decide)

theorem witness_LegalWordIsTheEncoding :
    decode 0x00000000 = .ok .nop ∧ decode 0x600000FF = .ok (.feed 0xFF) ∧ decode 0xA0000000 = .ok .close := by decide

theorem witness_IllegalWordsAreRejected :
    (∃ e, decode 0xB0000000 = .error e) ∧ (∃ e, decode 0x40000100 = .error e) ∧ (∃ e, decode 0x48000000 = .error e) ∧
      (∃ e, decode 0x30000001 = .error e) ∧
      Waiting (waiting (.write (busAddr .c1 0x010) 0xB0000000) (start id)) (.write (busAddr .c1 0x010) 0xB0000000) [] :=
  ⟨⟨.opcode, by decide⟩, ⟨.reserved, by decide⟩, ⟨.reserved, by decide⟩, ⟨.data, by decide⟩, waiting_waiting _ _⟩

theorem witness_StepRunsTheCommandWritten :
    (Waiting (waiting (.write (busAddr .c1 0x010) 0x90000000) (start id)) (.write (busAddr .c1 0x010) 0x90000000) [] ∧
      decode 0x90000000 = .ok .conn) ∧
    (Waiting (waiting (.write (busAddr .c0 0x010) 0x00000001) (start id)) (.write (busAddr .c0 0x010) 0x00000001) [] ∧
      decode 0x00000001 = .error .data) ∧
    Waiting (waiting (.read (busAddr .c0 0x010)) (start id)) (.read (busAddr .c0 0x010)) [] :=
  ⟨⟨waiting_waiting _ _, by decide⟩, ⟨waiting_waiting _ _, by decide⟩, waiting_waiting _ _⟩

theorem witness_CommandLineExecutesItsCommands :
    (AsmCommand.decs [0x41]).expand ≠ [] ∧ AsmCommand.kinit.expand ≠ [] ∧ AsmCommand.nop.expand ≠ [] ∧
      ([0xFF] : List Byte) ≠ [] := by decide

/-- Channel 0 with KLEN `n`. -/
def withKlen (n : BitVec 9) : State := start fun ch => { ch with klen := n }

theorem witness_CinitStartsTheSchedule :
    (1 ≤ (withKlen 1).cur.klen.toNat ∧ (withKlen 1).cur.klen.toNat ≤ 256) ∧
      (1 ≤ (withKlen 256).cur.klen.toNat ∧ (withKlen 256).cur.klen.toNat ≤ 256) ∧
      ((withKlen 0).cur.klen.toNat < 1 ∨ 256 < (withKlen 0).cur.klen.toNat) ∧
      ((withKlen 257).cur.klen.toNat < 1 ∨ 256 < (withKlen 257).cur.klen.toNat) := by decide

/-- Channel 0 in phase KSA with KLEN 1, at iteration `n`. -/
def inSchedule (n : Byte) : State := start fun ch => { ch with cphase := .ksa, klen := 1, i := n }

theorem witness_KstepDoesOneIteration :
    ((inSchedule 255).cur.cphase = .ksa ∧ 1 ≤ (inSchedule 255).cur.klen.toNat ∧ (inSchedule 255).cur.klen.toNat ≤ 256 ∧
        (inSchedule 255).cur.i.toNat = 255) ∧
      ((inSchedule 254).cur.cphase = .ksa ∧ 1 ≤ (inSchedule 254).cur.klen.toNat ∧ (inSchedule 254).cur.klen.toNat ≤ 256 ∧
        (inSchedule 254).cur.i.toNat < 255) ∧
      (start id).cur.cphase ≠ .ksa ∧ (start readyIdentity).cur.cphase ≠ .ksa := by decide

theorem witness_KrunFinishesTheSchedule :
    ((inSchedule 0).cur.cphase = .ksa ∧ 1 ≤ (inSchedule 0).cur.klen.toNat ∧ (inSchedule 0).cur.klen.toNat ≤ 256) ∧
      (start id).cur.cphase ≠ .ksa := by decide

theorem witness_ScheduleTakes256Iterations :
    (1 ≤ (withKlen 1).cur.klen.toNat ∧ (withKlen 1).cur.klen.toNat ≤ 256) ∧
      (1 ≤ (withKlen 256).cur.klen.toNat ∧ (withKlen 256).cur.klen.toNat ≤ 256) := by decide

theorem witness_DecStepsTheGenerator :
    (start readyIdentity).cur.cphase = .ready ∧ (start id).cur.cphase ≠ .ready ∧ (inSchedule 0).cur.cphase ≠ .ready := by
  decide

/-- Two channels whose keys agree in the byte KLEN = 1 selects and differ above it, and two data strings of one length. -/
theorem witness_KeystreamDependsOnKeyAndPosition :
    let s := start fun ch => { ch with klen := 1, key := tableIdentity }
    let s' := start fun ch => { ch with klen := 1, key := tableSet tableIdentity 1 0x55 }
    (1 ≤ s.cur.klen.toNat ∧ s.cur.klen.toNat ≤ 256) ∧ s'.cur.klen = s.cur.klen ∧ s'.cur.key ≠ s.cur.key ∧
      (∀ n, n < s.cur.klen.toNat → tableGet s'.cur.key (BitVec.ofNat 8 n) = tableGet s.cur.key (BitVec.ofNat 8 n)) ∧
      ([1, 2] : List Byte).length = ([3, 4] : List Byte).length ∧ ([3, 4] : List Byte) ≠ [] := by
  decide +kernel

theorem witness_EncryptThenDecryptIsIdentity :
    (1 ≤ (withKlen 1).cur.klen.toNat ∧ (withKlen 1).cur.klen.toNat ≤ 256) ∧ (withKlen 1).cur.klen = (withKlen 1).cur.klen ∧
      (∀ n, n < (withKlen 1).cur.klen.toNat →
        tableGet (withKlen 1).cur.key (BitVec.ofNat 8 n) = tableGet (withKlen 1).cur.key (BitVec.ofNat 8 n)) ∧
      (∃ t, exec .conn (withKlen 1) = .next t) ∧ ∃ t', exec .conn (withKlen 1) = .next t' :=
  ⟨by decide, rfl, fun _ _ => rfl, ⟨_, exec_eq _ _⟩, ⟨_, exec_eq _ _⟩⟩

/-- The states of FEED and of the invariant: a header with one byte to come (malformed with 03, an empty frame with 04, a body
with FF), one with more to come, a body's last byte, DISCARD, a frame held. -/
theorem witness_FeedGivesTheByteToTheDecoder :
    Params.default.wf = true ∧
      (Channel.Inv Params.default (start (frameAt .hdr 3 0 9)).cur ∧ (start (frameAt .hdr 3 0 9)).cur.fphase ≠ .held ∧
        lengthAfter Params.default 3 (start (frameAt .hdr 3 0 9)).cur < 4 ∧
        lengthAfter Params.default 4 (start (frameAt .hdr 3 0 9)).cur = 4 ∧
        4 ≤ lengthAfter Params.default 0xFF (start (frameAt .hdr 3 0 9)).cur) ∧
      (Channel.Inv Params.default (start (frameAt .hdr 2 0 9)).cur ∧ (start (frameAt .hdr 2 0 9)).cur.fphase ≠ .held) ∧
      (Channel.Inv Params.default (start (frameAt .body 5 6 1)).cur ∧ (start (frameAt .body 5 6 1)).cur.fphase ≠ .held) ∧
      (Channel.Inv Params.default (start (frameAt .discard 0 0 0)).cur ∧
        (start (frameAt .discard 0 0 0)).cur.fphase ≠ .held) ∧
      (start (frameAt .held 4 4 1)).cur.fphase = .held :=
  ⟨by decide,
    ⟨frameAt_inv .c0 _ _ _ _ (by decide) (by decide) (by decide) (by decide), by decide, by decide, by decide, by decide⟩,
    ⟨frameAt_inv .c0 _ _ _ _ (by decide) (by decide) (by decide) (by decide), by decide⟩,
    ⟨frameAt_inv .c0 _ _ _ _ (by decide) (by decide) (by decide) (by decide), by decide⟩,
    ⟨frameAt_inv .c0 _ _ _ _ (by decide) (by decide) (by decide) (by decide), by decide⟩, by decide⟩

/-- Headers of declared length 3, 65537 (malformed), 4 and 65536 (valid, both ends of the range). -/
theorem witness_HeaderGivesTheDeclaredLength :
    Params.default.wf = true ∧ AtFrameStart (start id).cur ∧ ([9, 0, 0, 3] : List Byte).length = Params.default.hdrSize ∧
      declaredLength Params.default [9, 0, 0, 3] < Params.default.hdrSize ∧
      Params.default.maxFrame < declaredLength Params.default [3, 1, 0, 1] ∧
      Params.default.hdrSize ≤ declaredLength Params.default [1, 0, 0, 4] ∧
      declaredLength Params.default [7, 1, 0, 0] = Params.default.maxFrame :=
  ⟨by decide, ⟨rfl, rfl, rfl, rfl⟩, by decide, by decide, by decide, by decide, by decide⟩

theorem witness_WholeFrameIsHeld :
    Params.default.wf = true ∧ AtFrameStart (start id).cur ∧ (start id).cur.fbuf.wf = true ∧
      (start fun ch => { ch with ieFrame := true }).cur.ieFrame = true ∧ WellFormedFrame Params.default [1, 0, 0, 4] ∧
      WellFormedFrame Params.default [1, 0, 0, 6, 0x41, 0x42] ∧ 5 < ([1, 0, 0, 6, 0x41, 0x42] : List Byte).length :=
  ⟨by decide, ⟨rfl, rfl, rfl, rfl⟩, rfl, rfl, ⟨by decide, by decide, by decide⟩, ⟨by decide, by decide, by decide⟩, by decide⟩

theorem witness_StreamOfFramesIsSplitExactly :
    Params.default.wf = true ∧ AtFrameStart (start id).cur ∧ (start id).cur.fbuf.wf = true ∧
      ∀ f ∈ ([[1, 0, 0, 6, 0x41, 0x42], [2, 0, 0, 5, 0x43]] : List (List Byte)), WellFormedFrame Params.default f :=
  ⟨by decide, ⟨rfl, rfl, rfl, rfl⟩, rfl, by unfold WellFormedFrame; decide⟩

/-- In every state that meets the invariant, a body's last byte and the last byte of an empty frame's header. -/
theorem witness_NoPartialFrameIsHeld :
    ((start (frameAt .body 5 6 1)).Inv ∧ (start (frameAt .body 5 6 1)).cur.fphase ≠ .held ∧
      ∃ t, exec (.feed 0x42) (start (frameAt .body 5 6 1)) = .next t ∧ t.cur.fphase = .held) ∧
    (start (frameAt .hdr 3 0 1)).Inv ∧ (start (frameAt .hdr 3 0 1)).cur.fphase ≠ .held ∧
      ∃ t, exec (.feed 4) (start (frameAt .hdr 3 0 1)) = .next t ∧ t.cur.fphase = .held :=
  ⟨⟨start_inv (frameAt_inv .c0 _ _ _ _ (by decide) (by decide) (by decide) (by decide)), by decide, _, exec_eq _ _,
      by decide +kernel⟩,
    start_inv (frameAt_inv .c0 _ _ _ _ (by decide) (by decide) (by decide) (by decide)), by decide, _, exec_eq _ _,
      by decide +kernel⟩

/-- DISCARD, with the cipher UNKEYED and READY; FRST leaves it. -/
theorem witness_DiscardDropsEveryByte :
    (start (frameAt .discard 0 0 0)).cur.fphase = .discard ∧ (∃ t, exec .frst (start (frameAt .discard 0 0 0)) = .next t) ∧
      (start fun ch => readyIdentity (frameAt .discard 0 0 0 ch)).cur.fphase = .discard ∧
      (start fun ch => readyIdentity (frameAt .discard 0 0 0 ch)).cur.cphase = .ready :=
  ⟨rfl, ⟨_, exec_eq _ _⟩, rfl, rfl⟩

theorem witness_FackReleasesTheHeldFrame :
    (start heldFrame).cur.fphase = .held ∧ (start id).cur.fphase ≠ .held := by decide

theorem witness_DecfIsDecThenFeedOfThePlaintext :
    ((start readyIdentity).cur.cphase = .ready ∧ (start readyIdentity).cur.fphase ≠ .held) ∧
      (start heldFrame).cur.cphase ≠ .ready ∧
      ((start fun ch => heldFrame (readyIdentity ch)).cur.cphase = .ready ∧
        (start fun ch => heldFrame (readyIdentity ch)).cur.fphase = .held) := by decide

theorem witness_ConnStartsAConnection :
    (1 ≤ (withKlen 1).cur.klen.toNat ∧ (withKlen 1).cur.klen.toNat ≤ 256) ∧
      (1 ≤ (withKlen 256).cur.klen.toNat ∧ (withKlen 256).cur.klen.toNat ≤ 256) ∧
      ((withKlen 0).cur.klen.toNat < 1 ∨ 256 < (withKlen 0).cur.klen.toNat) ∧
      ((withKlen 257).cur.klen.toNat < 1 ∨ 256 < (withKlen 257).cur.klen.toNat) := by decide

theorem witness_SecondConnChangesNothing :
    (∃ t, exec .conn (withKlen 256) = .next t) ∧
      (1 ≤ (withKlen 256).cur.klen.toNat ∧ (withKlen 256).cur.klen.toNat ≤ 256) ∧
      (∃ t, exec .conn (withKlen 257) = .next t) ∧
      ((withKlen 257).cur.klen.toNat < 1 ∨ 256 < (withKlen 257).cur.klen.toNat) :=
  ⟨⟨_, exec_eq _ _⟩, by decide, ⟨_, exec_eq _ _⟩, by decide⟩

/-- Every command answers a next state from the machine after reset, whose buffer is in canonical form. -/
theorem witness_CommandsLeaveTheRestAlone (i : Instr) :
    (∃ t, exec i (start id) = .next t) ∧ (start id).cur.fbuf.wf = true := ⟨⟨_, exec_eq _ _⟩, rfl⟩

theorem witness_CountersMoveByOneOrAreCleared :
    ∃ t, exec (.decf 3) (start fun ch => { readyIdentity ch with count := 0xFFFFFFFF, fpos := 0xFFFFFFFF }) = .next t :=
  ⟨_, exec_eq _ _⟩

theorem witness_HeldFrameIsReleasedByFourCommands :
    (start heldFrame).cur.fphase = .held ∧ (∃ t, exec .fack (start heldFrame) = .next t) ∧
      ∃ t, exec (.feed 2) (start heldFrame) = .next t := ⟨rfl, ⟨_, exec_eq _ _⟩, ⟨_, exec_eq _ _⟩⟩

theorem witness_CtrlRegister :
    Waiting (waiting (.read (busAddr .c0 0x000)) (start id)) (.read (busAddr .c0 0x000)) [] ∧
      Waiting (waiting (.write (busAddr .c1 0x000) 0xFFFFFFFF) (start id)) (.write (busAddr .c1 0x000) 0xFFFFFFFF) [] ∧
      Params.default.wf = true := ⟨waiting_waiting _ _, waiting_waiting _ _, by decide⟩

theorem witness_StatusRegister :
    Waiting (waiting (.read (busAddr .c0 0x004)) (start heldFrame)) (.read (busAddr .c0 0x004)) [] ∧
      Waiting (waiting (.write (busAddr .c0 0x004) 0) (start id)) (.write (busAddr .c0 0x004) 0) [] ∧
      Params.default.wf = true := ⟨waiting_waiting _ _, waiting_waiting _ _, by decide⟩

theorem witness_ErrclrRegister :
    Waiting (waiting (.read (busAddr .c0 0x008)) (start id)) (.read (busAddr .c0 0x008)) [] ∧
      (Waiting (waiting (.write (busAddr .c0 0x008) 1) (start id)) (.write (busAddr .c0 0x008) 1) [] ∧
        (1 : Word).getLsbD 0 = true) ∧
      (Waiting (waiting (.write (busAddr .c0 0x008) 0xFFFFFFFE) (start id)) (.write (busAddr .c0 0x008) 0xFFFFFFFE) [] ∧
        (0xFFFFFFFE : Word).getLsbD 0 = false) :=
  ⟨waiting_waiting _ _, ⟨waiting_waiting _ _, by decide⟩, waiting_waiting _ _, by decide⟩

theorem witness_KeylenRegister :
    Waiting (waiting (.read (busAddr .c0 0x00C)) (start id)) (.read (busAddr .c0 0x00C)) [] ∧
      (Waiting (waiting (.write (busAddr .c0 0x00C) 5) (start afterC1)) (.write (busAddr .c0 0x00C) 5) [] ∧
        ((waiting (.write (busAddr .c0 0x00C) 5) (start afterC1)).chan .c0).cphase = .ksa) ∧
      (Waiting (waiting (.write (busAddr .c0 0x00C) 0x3FF) (start id)) (.write (busAddr .c0 0x00C) 0x3FF) [] ∧
        ((waiting (.write (busAddr .c0 0x00C) 0x3FF) (start id)).chan .c0).cphase ≠ .ksa) ∧
      Params.default.wf = true :=
  ⟨waiting_waiting _ _, ⟨waiting_waiting _ _, rfl⟩, ⟨waiting_waiting _ _, by decide⟩, by decide⟩

theorem witness_ReadOnlyRegisters :
    Waiting (waiting (.read (busAddr .c1 0x014)) (start id)) (.read (busAddr .c1 0x014)) [] ∧
      (0x014 ≤ (0x014 : Offset).toNat ∧ (0x014 : Offset).toNat ≤ 0x038 ∧ (0x014 : Offset).toNat % 4 = 0) ∧
      (0x014 ≤ (0x038 : Offset).toNat ∧ (0x038 : Offset).toNat ≤ 0x038 ∧ (0x038 : Offset).toNat % 4 = 0) ∧
      Waiting (waiting (.write (busAddr .c0 0x038) 1) (start id)) (.write (busAddr .c0 0x038) 1) [] ∧
      (Waiting (waiting (.read (busAddr .c0 0x034)) (start (frameAt .hdr 2 0 9))) (.read (busAddr .c0 0x034)) [] ∧
        Channel.Inv Params.default ((start (frameAt .hdr 2 0 9)).chan .c0) ∧
        ((start (frameAt .hdr 2 0 9)).chan .c0).errcode ≠ .malformedLen) ∧
      Params.default.wf = true :=
  ⟨waiting_waiting _ _, by decide, by decide, waiting_waiting _ _,
    ⟨waiting_waiting _ _, frameAt_inv .c0 _ _ _ _ (by decide) (by decide) (by decide) (by decide), by decide⟩, by decide⟩

theorem witness_ParameterRegisters :
    Waiting (waiting (.read (busAddr .c0 0x03C)) (start id)) (.read (busAddr .c0 0x03C)) [] ∧
      Waiting (waiting (.read (busAddr .c0 0x040)) (start id)) (.read (busAddr .c0 0x040)) [] ∧
      Waiting (waiting (.write (busAddr .c0 0x040) 1) (start id)) (.write (busAddr .c0 0x040) 1) [] ∧
      (waiting (.read (busAddr .c0 0x03C)) (start id)).params = Params.default :=
  ⟨waiting_waiting _ _, waiting_waiting _ _, waiting_waiting _ _, rfl⟩

theorem witness_MisalignedTransactions :
    (0x00001 : Offset).toNat % 4 ≠ 0 ∧ (0xFFFFF : Offset).toNat % 4 ≠ 0 ∧ (0x00012 : Offset).toNat % 4 ≠ 0 ∧
      Waiting (waiting (.read (busAddr .c1 0xFFFFF)) (start id)) (.read (busAddr .c1 0xFFFFF)) [] ∧
      Waiting (waiting (.write (busAddr .c0 0x00012) 0) (start id)) (.write (busAddr .c0 0x00012) 0) [] :=
  ⟨by decide, by decide, by decide, waiting_waiting _ _, waiting_waiting _ _⟩

theorem witness_UnmappedReads :
    let unmapped (o : Offset) := o.toNat % 4 = 0 ∧ ((0x44 ≤ o.toNat ∧ o.toNat ≤ 0x3FF) ∨
      (0xC00 ≤ o.toNat ∧ o.toNat ≤ 0x7FFFF) ∨ 0x80000 + 4 * Params.default.maxFrame ≤ o.toNat)
    unmapped 0x00044 ∧ unmapped 0x003FC ∧ unmapped 0x00C00 ∧ unmapped 0x7FFFC ∧ unmapped 0xC0000 ∧ unmapped 0xFFFFC ∧
      Waiting (waiting (.read (busAddr .c0 0xC0000)) (start id)) (.read (busAddr .c0 0xC0000)) [] :=
  ⟨by decide, by decide, by decide, by decide, by decide, by decide, waiting_waiting _ _⟩

theorem witness_WritesToReadOnlyOffsets :
    let refused (o : Offset) := o.toNat % 4 = 0 ∧ (o.toNat = 0x004 ∨ (0x014 ≤ o.toNat ∧ o.toNat ≤ 0x3FF) ∨ 0x800 ≤ o.toNat)
    refused 0x00004 ∧ refused 0x00014 ∧ refused 0x003FC ∧ refused 0x00800 ∧ refused 0x80000 ∧ refused 0xFFFFC ∧
      Waiting (waiting (.write (busAddr .c0 0x80000) 1) (start id)) (.write (busAddr .c0 0x80000) 1) [] :=
  ⟨by decide, by decide, by decide, by decide, by decide, by decide, waiting_waiting _ _⟩

theorem witness_WriteOnlyRegistersReadZero :
    Waiting (waiting (.read (busAddr .c0 0x008)) (start id)) (.read (busAddr .c0 0x008)) [] ∧
      Waiting (waiting (.read (busAddr .c0 0x010)) (start id)) (.read (busAddr .c0 0x010)) [] :=
  ⟨waiting_waiting _ _, waiting_waiting _ _⟩

theorem witness_KeyWindow :
    (0 < 256 ∧ 255 < 256) ∧
      Waiting (waiting (.read (busAddr .c0 (BitVec.ofNat 20 (0x400 + 4 * 255)))) (start id))
        (.read (busAddr .c0 (BitVec.ofNat 20 (0x400 + 4 * 255)))) [] ∧
      (Waiting (waiting (.write (busAddr .c0 (BitVec.ofNat 20 (0x400 + 4 * 0))) 0) (start afterC1))
        (.write (busAddr .c0 (BitVec.ofNat 20 (0x400 + 4 * 0))) 0) [] ∧ ((start afterC1).chan .c0).cphase = .ksa) ∧
      (Waiting (waiting (.write (busAddr .c0 (BitVec.ofNat 20 (0x400 + 4 * 255))) 0x1FF) (start id))
        (.write (busAddr .c0 (BitVec.ofNat 20 (0x400 + 4 * 255))) 0x1FF) [] ∧ ((start id).chan .c0).cphase ≠ .ksa) ∧
      (Waiting (waiting (.write (busAddr .c0 0x00C) 5) (start afterC1)) (.write (busAddr .c0 0x00C) 5) [] ∧
        ((start afterC1).chan .c0).cphase = .ksa) :=
  ⟨by decide, waiting_waiting _ _, ⟨waiting_waiting _ _, rfl⟩, ⟨waiting_waiting _ _, by decide⟩, waiting_waiting _ _, rfl⟩

theorem witness_SboxWindow :
    (0 < 256 ∧ 255 < 256) ∧
      Waiting (waiting (.read (busAddr .c0 (BitVec.ofNat 20 (0x800 + 4 * 255)))) (start id))
        (.read (busAddr .c0 (BitVec.ofNat 20 (0x800 + 4 * 255)))) [] ∧
      Waiting (waiting (.write (busAddr .c0 (BitVec.ofNat 20 (0x800 + 4 * 0))) 1) (start id))
        (.write (busAddr .c0 (BitVec.ofNat 20 (0x800 + 4 * 0))) 1) [] :=
  ⟨by decide, waiting_waiting _ _, waiting_waiting _ _⟩

/-- FCNT is 5: index 4 is below it, 5 is not, and 65535 is the last of the window. -/
theorem witness_FbufWindow :
    (4 < Params.default.maxFrame ∧ 4 < ((start heldFrame).chan .c0).fcnt.toNat) ∧
      (5 < Params.default.maxFrame ∧ ((start heldFrame).chan .c0).fcnt.toNat ≤ 5) ∧
      (65535 < Params.default.maxFrame ∧ ((start heldFrame).chan .c0).fcnt.toNat ≤ 65535) ∧
      Waiting (waiting (.read (busAddr .c0 (BitVec.ofNat 20 (0x80000 + 4 * 65535)))) (start heldFrame))
        (.read (busAddr .c0 (BitVec.ofNat 20 (0x80000 + 4 * 65535)))) [] ∧
      Waiting (waiting (.write (busAddr .c0 (BitVec.ofNat 20 (0x80000 + 4 * 4))) 1) (start heldFrame))
        (.write (busAddr .c0 (BitVec.ofNat 20 (0x80000 + 4 * 4))) 1) [] ∧
      (((start (frameAt .held 5 5 1)).chan .c0).fphase = .held ∧
        Channel.Inv Params.default ((start (frameAt .held 5 5 1)).chan .c0) ∧
        4 < ((start (frameAt .held 5 5 1)).chan .c0).flen.toNat ∧
        ∃ t, exec (.feed 2) (start (frameAt .held 5 5 1)) = .next t) :=
  ⟨by decide, by decide, by decide, waiting_waiting _ _, waiting_waiting _ _, rfl,
    frameAt_inv .c0 _ _ _ _ (by decide) (by decide) (by decide) (by decide), by decide, ⟨_, exec_eq _ _⟩⟩

/-- Two machines that differ in channel 1, and two runs that differ in what they do to it. -/
theorem witness_ChannelsAreIndependent :
    let es : List HostEvent := [.write 0x000010 0x60000001, .write 0x100010 0x90000000, .read 0x000028]
    let es' : List HostEvent := [.read 0x100044, .write 0x000010 0x60000001, .read 0x000028]
    let s := start id
    let s' := { s with ch1 := heldFrame s.ch1 }
    s'.params = s.params ∧ s'.chan .c0 = s.chan .c0 ∧ (∀ e ∈ es, e.isTransaction = true) ∧
      (∀ e ∈ es', e.isTransaction = true) ∧
      es'.filter (HostEvent.addresses .c0) = es.filter (HostEvent.addresses .c0) :=
  ⟨rfl, rfl, by decide, by decide, by decide⟩

theorem witness_IdleCoreHoldsItsState : (start id).params.wf = true ∧ (start id).pending = [] :=
  ⟨show Params.default.wf = true by decide, rfl⟩

/-- A channel with an error recorded and ERR_OVF set; a read that finds no element, and a write of 2 to ERRCLR. -/
theorem witness_FirstErrorIsKeptUntilErrclr :
    let failed (ch : Channel) : Channel := { ch with err := true, errOvf := true, errcode := .badPhase }
    let clear : HostEvent := .write (busAddr .c0 0x008) 2
    (Waiting (waiting (.read 0x044) (start failed)) (.read 0x044) [] ∧
      (∃ t, step (waiting (.read 0x044) (start failed)) = .next t) ∧
      ((waiting (.read 0x044) (start failed)).chan .c0).err = true ∧
      ((waiting (.read 0x044) (start failed)).chan .c0).errOvf = true ∧
      ∀ v, HostEvent.read 0x044 = .write (busAddr .c0 0x008) v → v.getLsbD 0 = false) ∧
    (Waiting (waiting clear (start failed)) clear [] ∧ (∃ t, step (waiting clear (start failed)) = .next t) ∧
      ((waiting clear (start failed)).chan .c0).err = true ∧
      ∀ v, clear = .write (busAddr .c0 0x008) v → v.getLsbD 0 = false) :=
  ⟨⟨waiting_waiting _ _, waiting_next _ _, rfl, rfl, fun _ h => nomatch h⟩, waiting_waiting _ _, waiting_next _ _, rfl,
    fun _ h => by cases h; decide⟩

theorem witness_AtMostOneErrorPerTransaction :
    let s := waiting (.write 0x000010 0x50000033) (start heldFrame)
    (∃ t, step s = .next t) ∧ (s.chan .c0).err = false ∧ (s.chan .c0).errOvf = false := ⟨waiting_next _ _, rfl, rfl⟩

theorem witness_KeyIsLockedDuringTheSchedule :
    let e : HostEvent := .write 0x000400 0
    Waiting (waiting e (start afterC1)) e [] ∧ e.isTransaction = true ∧ (∃ t, step (waiting e (start afterC1)) = .next t) ∧
      ((waiting e (start afterC1)).chan .c0).cphase = .ksa := ⟨waiting_waiting _ _, rfl, waiting_next _ _, rfl⟩

theorem witness_NothingStopsALegalCore :
    (start id).params.wf = true ∧
      ({ start id with params := { Params.default with lenBytes := 5 } } : State).params.wf = false :=
  ⟨show Params.default.wf = true by decide,
    show ({ Params.default with lenBytes := 5 } : Params).wf = false by decide⟩

theorem witness_ResetLeavesTheResetValues :
    Params.default.wf = true ∧ ({ Params.default with keyInit0 := [0x4B, 0x65, 0x79] } : Params).wf = true ∧
      Waiting (waiting .reset (start heldFrame)) .reset [] ∧
      ((0x000 : Offset).toNat % 4 = 0 ∧ (0x000 : Offset).toNat ≤ 0x038 ∧ (0x000 : Offset) ≠ 0x00C) ∧
      ((0x038 : Offset).toNat % 4 = 0 ∧ (0x038 : Offset).toNat ≤ 0x038 ∧ (0x038 : Offset) ≠ 0x00C) :=
  ⟨by decide, by decide, waiting_waiting _ _, by decide, by decide⟩

theorem witness_ResetKeepsTheHostsSide : Waiting (waiting .reset (start heldFrame)) .reset [] := waiting_waiting _ _

theorem witness_ResetAbandonsATransaction :
    Waiting (waiting (.resetInRead 0x000014) (start heldFrame)) (.resetInRead 0x000014) [] ∧
      Waiting (waiting (.resetInWrite 0x000010 0x90000000) (start heldFrame)) (.resetInWrite 0x000010 0x90000000) [] :=
  ⟨waiting_waiting _ _, waiting_waiting _ _⟩

theorem witness_ResetMeetsTheInvariant : Params.default.wf = true := by decide

/-- A machine with a frame about to be complete in channel 0, and the byte that completes it waiting. -/
theorem witness_EveryStepKeepsTheInvariant :
    (waiting (.write 0x000010 0x60000042) (start (frameAt .body 5 6 1))).Inv ∧
      ∃ t, step (waiting (.write 0x000010 0x60000042) (start (frameAt .body 5 6 1))) = .next t := by
  have h := start_inv (frameAt_inv .c0 .body 5 6 1 (by decide) (by decide) (by decide) (by decide))
  exact ⟨⟨h.params, fun c => by cases c; exacts [h.channel .c0, h.channel .c1]⟩, waiting_next _ _⟩

end Sys2Proof.Tests
end

/-! # The registers

What each register of 10_state.md section 2 reads as and what a write to it does, field by field. -/

/-! ## Words put together from fields -/

namespace Sys2Proof

/-- Two adjacent fields at the low end of a word, read as a number. -/
theorem placeField_or_placeField {n m : Nat} (lo : BitVec n) (hi : BitVec m) (h : n + m ≤ 32) :
    placeField 0 lo ||| placeField n hi = BitVec.ofNat 32 (lo.toNat + 2 ^ n * hi.toNat) := by
  have hlo : lo.toNat < 2 ^ n := lo.isLt
  have fits : lo.toNat + 2 ^ n * hi.toNat < 2 ^ 32 := calc
    lo.toNat + 2 ^ n * hi.toNat < 2 ^ n * (hi.toNat + 1) := by rw [Nat.mul_succ]; omega
    _ ≤ 2 ^ n * 2 ^ m := Nat.mul_le_mul_left _ hi.isLt
    _ = 2 ^ (n + m) := (Nat.pow_add ..).symm
    _ ≤ 2 ^ 32 := Nat.pow_le_pow_right (by decide) h
  apply BitVec.eq_of_toNat_eq
  have hlo32 : lo.toNat < 2 ^ 32 := by omega
  have hhi32 : 2 ^ n * hi.toNat < 2 ^ 32 := by omega
  have hi32 : hi.toNat < 2 ^ 32 := lt_of_le_of_lt (Nat.le_mul_of_pos_left _ (Nat.two_pow_pos n)) hhi32
  simp only [placeField, BitVec.toNat_or, BitVec.toNat_shiftLeft, BitVec.toNat_setWidth, BitVec.toNat_ofNat,
    Nat.shiftLeft_eq, Nat.pow_zero, Nat.mul_one, Nat.mod_eq_of_lt hlo32, Nat.mod_eq_of_lt hi32, Nat.mod_eq_of_lt fits]
  rw [Nat.mul_comm, Nat.mod_eq_of_lt hhi32, Nat.or_comm, ← Nat.two_pow_add_eq_or_of_lt hlo, Nat.add_comm]

@[simp] theorem placeField_zero {n : Nat} (lo : Nat) : placeField lo (0#n) = 0#32 := by
  simp [placeField]

theorem getElem_placeField {n : Nat} (lo : Nat) (v : BitVec n) {k : Nat} (hk : k < 32) :
    (placeField lo v)[k] = (decide (lo ≤ k) && v.getLsbD (k - lo)) := by
  rw [← BitVec.getLsbD_eq_getElem, getLsbD_placeField, decide_eq_true hk, Bool.true_and]

/-! ## A legal word is the encoding of its command -/

/-- A command word is its three fields (30_encoding.md R91). -/
theorem word_eq_fields (w : Word) :
    w = placeField 28 (opField w) ||| placeField 8 (rsvField w) ||| placeField 0 (dataField w) := by
  apply BitVec.eq_of_getLsbD_eq
  intro n hn
  simp only [BitVec.getLsbD_or, getLsbD_placeField, opField, rsvField, dataField, BitVec.getLsbD_extractLsb']
  rcases (by omega : n < 8 ∨ (8 ≤ n ∧ n < 28) ∨ 28 ≤ n) with h | ⟨h, h'⟩ | h
  · grind
  · grind
  · grind

/-- The row of an opcode names the command of that opcode, with D where the opcode uses it (30_encoding.md R93). -/
theorem opcode_data_of_opcodeRow {op : BitVec 4} {d : Byte} {i : Instr} (h : opcodeRow op d = some i) :
    i.opcode = op ∧ i.data = if usesData op then d else 0 := by
  unfold opcodeRow at h
  split at h
  case h_12 => cases h
  all_goals
    rename_i hop
    cases h
    have hop := congrArg (BitVec.ofNat 4) hop
    rw [BitVec.ofNat_toNat, BitVec.setWidth_eq] at hop
    subst hop
    exact ⟨rfl, rfl⟩

/-- What a legal word satisfies (30_encoding.md R94, R96). -/
theorem fields_of_decode {w : Word} {i : Instr} (h : decode w = .ok i) :
    opcodeRow (opField w) (dataField w) = some i ∧ rsvField w = 0#20 ∧
      (usesData (opField w) = false → dataField w = 0#8) := by
  unfold decode at h
  split at h
  · cases h
  rename_i row hrow
  split at h
  · cases h
  rename_i hrsv
  split at h
  · cases h
  rename_i hunused
  cases h
  exact ⟨hrow, not_not.mp hrsv, fun hu => by simpa [hu] using hunused⟩

/-- Decoding drops no bit of a word (30_encoding.md R96). -/
theorem encode_of_decode {w : Word} {i : Instr} (h : decode w = .ok i) : encode i = w := by
  obtain ⟨hrow, hrsv, hunused⟩ := fields_of_decode h
  obtain ⟨hop, hdata⟩ := opcode_data_of_opcodeRow hrow
  have hdata : i.data = dataField w := by
    rw [hdata]
    split
    case isTrue => rfl
    case isFalse hu => exact (hunused (Bool.eq_false_iff.mpr hu)).symm
  conv_rhs => rw [word_eq_fields w, hrsv, placeField_zero, BitVec.or_zero]
  rw [encode, hop, hdata]

end Sys2Proof

namespace Sys2Proof.Machine

/-! ## Writes to the registers -/

theorem writeEffect_ctrl (p : Params) (v : Word) : writeEffect p 0x000 v = writeCtrl v := by
  rw [writeEffect, show (0x000 : Offset) = Reg.offset .ctrl from rfl, target_reg]

theorem writeEffect_errclr (p : Params) (v : Word) : writeEffect p 0x008 v = writeErrclr v := by
  rw [writeEffect, show (0x008 : Offset) = Reg.offset .errclr from rfl, target_reg]

theorem writeEffect_keylen (p : Params) (v : Word) : writeEffect p 0x00C v = writeKeylen 0x00C v := by
  rw [writeEffect, show (0x00C : Offset) = Reg.offset .keylen from rfl, target_reg]

theorem writeEffect_cmd_ok (p : Params) {w : Word} {i : Instr} (h : decode w = .ok i) :
    writeEffect p 0x010 w = commandEffect p i := by
  rw [writeEffect, target_cmd]
  simp only [h]

theorem writeEffect_cmd_error (p : Params) {w : Word} {e : IllegalWord} (h : decode w = .error e) :
    writeEffect p 0x010 w = reject .illegalCmd w := by
  rw [writeEffect, target_cmd]
  simp only [h]

/-- The registers a host cannot write (10_state.md R40, 20_memory.md R66). -/
def readOnlyRegs : List Reg :=
  [.status, .result, .index, .count, .frameType, .frameLen, .fill, .fpos, .errInfo, .errPos, .errType, .param, .maxframe]

theorem refusesWrites_reg {r : Reg} (h : r ∈ readOnlyRegs) (s : State) (c : Chan) (rest : List HostEvent) :
    RefusesWrites s c rest r.offset := by
  refine refusesWrites_of fun v => ?_
  rw [writeEffect, target_reg]
  cases r with
  | ctrl | errclr | keylen | cmd => simp [readOnlyRegs] at h
  | _ => rfl

/-- A write to CTRL sets the two enables and nothing else (10_state.md R41). -/
theorem writeCtrl_spec (v : Word) (a : Channel) :
    (writeCtrl v a).ieFrame = v.getLsbD 0 ∧ (writeCtrl v a).ieErr = v.getLsbD 1 ∧ SameStream a (writeCtrl v a) ∧
      SameResult a (writeCtrl v a) ∧ SameKey a (writeCtrl v a) ∧ SameDecoder a (writeCtrl v a) ∧
      SameBuffer a (writeCtrl v a) ∧ SameError a (writeCtrl v a) :=
  ⟨rfl, rfl, ⟨rfl, rfl, rfl, rfl, rfl⟩, ⟨rfl, rfl⟩, ⟨rfl, rfl⟩, ⟨rfl, rfl, rfl, rfl, rfl⟩, fun _ => rfl,
    ⟨rfl, rfl, rfl, rfl, rfl, rfl⟩⟩

/-- Clearing an error clears the error state and nothing else (10_state.md R43). -/
theorem clearError_sameButError (ch : Channel) : SameButError ch (clearError ch) :=
  ⟨⟨rfl, rfl, rfl, rfl, rfl⟩, ⟨rfl, rfl⟩, ⟨rfl, rfl⟩, ⟨rfl, rfl, rfl, rfl, rfl⟩, rfl, ⟨rfl, rfl⟩⟩

theorem writeKeylen_locked {a : Channel} (h : a.cphase = .ksa) (o : Offset) (v : Word) :
    Rejected .keyLocked (zextOffset o) a (writeKeylen o v a) := by
  rw [writeKeylen, if_pos h]
  exact reject_rejected ..

theorem writeKeylen_unlocked {a : Channel} (h : a.cphase ≠ .ksa) (o : Offset) (v : Word) :
    (writeKeylen o v a).klen.toNat = v.toNat % 512 ∧ (writeKeylen o v a).key = a.key ∧ SameStream a (writeKeylen o v a) ∧
      SameResult a (writeKeylen o v a) ∧ SameDecoder a (writeKeylen o v a) ∧ SameBuffer a (writeKeylen o v a) ∧
      SameCtrl a (writeKeylen o v a) ∧ SameError a (writeKeylen o v a) := by
  rw [writeKeylen, if_neg h]
  exact ⟨BitVec.extractLsb'_toNat .., rfl, ⟨rfl, rfl, rfl, rfl, rfl⟩, ⟨rfl, rfl⟩, ⟨rfl, rfl, rfl, rfl, rfl⟩, fun _ => rfl,
    ⟨rfl, rfl⟩, ⟨rfl, rfl, rfl, rfl, rfl, rfl⟩⟩

/-! ## Reads of the registers -/

/-- Every aligned offset up to MAXFRAME is a register's (10_state.md R40). -/
theorem exists_reg_of_offset {o : Offset} (h4 : o.toNat % 4 = 0) (h : o.toNat ≤ 0x040) : ∃ r : Reg, o = r.offset := by
  have table : ∀ k < 17, (regAt k).map Reg.offset = some (BitVec.ofNat 20 (4 * k)) := by decide
  obtain ⟨r, -, hr⟩ := Option.map_eq_some_iff.mp (table (o.toNat / 4) (by omega))
  refine ⟨r, ?_⟩
  rw [hr, Nat.mul_div_cancel' (Nat.dvd_of_mod_eq_zero h4)]
  rw [BitVec.ofNat_toNat, BitVec.setWidth_eq]

theorem readReg_ctrl (p : Params) (ch : Channel) :
    readReg p ch .ctrl = BitVec.ofNat 32 (ch.ieFrame.toNat + 2 * ch.ieErr.toNat) := by
  rw [readReg, placeField_or_placeField _ _ (by decide), BitVec.toNat_ofBool, BitVec.toNat_ofBool, Nat.pow_one]

theorem readReg_result (p : Params) (ch : Channel) :
    readReg p ch .result = BitVec.ofNat 32 (ch.resultPt.toNat + 256 * ch.resultKs.toNat) :=
  placeField_or_placeField _ _ (by decide)

theorem readReg_index (p : Params) (ch : Channel) :
    readReg p ch .index = BitVec.ofNat 32 (ch.i.toNat + 256 * ch.j.toNat) :=
  placeField_or_placeField _ _ (by decide)

/-- A channel just reset shows 0 in every register but KEYLEN and the two that show parameters. -/
theorem readReg_reset_eq_zero {r : Reg} (h : r ∉ [Reg.keylen, .param, .maxframe]) (p : Params) (draw : Nat) (c : Chan) :
    readReg p (Channel.reset p draw c) r = 0 := by
  cases r with
  | keylen | param | maxframe => simp at h
  | ctrl | status | result | index =>
    simp [readReg, Channel.reset, statusWord, irq, frameReady, CPhase.bits, FPhase.bits, ErrCode.bits]
  | _ => rfl

theorem readsZeroAfterReset_reg {r : Reg} (h : r ∉ [Reg.keylen, .param, .maxframe]) : ReadsZeroAfterReset r.offset :=
  fun c => readsAfterReset_reg fun p draw _ => readReg_reset_eq_zero h p draw c

theorem readReg_keylen_reset {p : Params} (hp : p.wf = true) (draw : Nat) (c : Chan) :
    readReg p (Channel.reset p draw c) .keylen = BitVec.ofNat 32 (p.keyInit c).length := by
  obtain ⟨-, -, -, -, -, hkey⟩ := bounds_of_wf hp
  have := hkey c
  apply BitVec.eq_of_toNat_eq
  simp only [readReg, Channel.reset, BitVec.toNat_setWidth, BitVec.toNat_ofNat]
  omega

theorem irq_eq_true_iff (ch : Channel) :
    irq ch = true ↔ (ch.ieFrame = true ∧ ch.fphase = .held) ∨ (ch.ieErr = true ∧ ch.err = true) := by
  simp [irq, frameReady]

/-- The one-bit fields of STATUS (10_state.md R42). -/
theorem statusWord_flags (ch : Channel) :
    (statusWord ch).getLsbD 4 = frameReady ch ∧ (statusWord ch).getLsbD 5 = ch.err ∧
      (statusWord ch).getLsbD 6 = ch.errOvf ∧ (statusWord ch).getLsbD 7 = irq ch := by
  simp [statusWord, getElem_placeField]

/-- The wider fields of STATUS, and its reserved bits (10_state.md R42). -/
theorem statusWord_fields (ch : Channel) :
    (statusWord ch).extractLsb' 0 2 = ch.cphase.bits ∧ (statusWord ch).extractLsb' 2 2 = ch.fphase.bits ∧
      (statusWord ch).extractLsb' 8 8 = ch.errcode.bits ∧ (statusWord ch).extractLsb' 16 16 = 0 := by
  simp [statusWord, extractLsb'_or, extractLsb'_placeField, extractLsb'_placeField_other]

/-- The two numbers in PARAM (10_state.md R56). -/
theorem paramWord_numbers (p : Params) :
    (paramWord p).extractLsb' 0 3 = BitVec.ofNat 3 p.lenBytes ∧
      (paramWord p).extractLsb' 8 3 = BitVec.ofNat 3 p.hdrSize := by
  simp [paramWord, extractLsb'_or, extractLsb'_placeField, extractLsb'_placeField_other]

/-- PARAM shows a legal configuration's numbers exactly, since R7 keeps each within its three bits. -/
theorem paramWord_showsParams {p : Params} (hp : p.wf = true) : ShowsParams p (paramWord p) := by
  obtain ⟨-, hlen, hhdr, -⟩ := bounds_of_wf hp
  obtain ⟨len, size⟩ := paramWord_numbers p
  constructor
  case lenBytes => rw [len, BitVec.toNat_ofNat]; omega
  case hdrSize => rw [size, BitVec.toNat_ofNat]; omega
  case lenOrder => cases h : p.lenOrder <;> simp [paramWord, getElem_placeField, h]
  case typePos => cases h : p.typePos <;> simp [paramWord, getElem_placeField, h]
  case reserved => simp [paramWord, extractLsb'_or, extractLsb'_placeField_other]

/-! ## The obligations -/

/-- Settles O6: a Write to CMD has the effect `writeEffect` gives the decoded command, and decoding drops no bit of the word. -/
theorem stepRunsTheCommandWritten : Obligations.StepRunsTheCommandWritten := by
  unfold Obligations.StepRunsTheCommandWritten
  refine fun s c rest => ⟨fun w hs => ⟨fun i hi => ⟨?_, encode_of_decode hi⟩, fun e he => ?_⟩, readsAs_reg .cmd⟩
  · rw [step_write hs.params hs.pending, exec_eq, chanOf_busAddr, offsetOf_busAddr, writeEffect_cmd_ok _ hi]
  · refine performsWrite_of hs ?_
    rw [writeEffect_cmd_error _ he]
    exact reject_rejected ..

/-- Settles O31, by the definition of the line and the place of its bit in STATUS. -/
theorem irqIsALevelOfTheState : Obligations.IrqIsALevelOfTheState := by
  unfold Obligations.IrqIsALevelOfTheState
  intro ch
  obtain ⟨-, -, -, hirq⟩ := statusWord_flags ch
  exact ⟨irq_eq_true_iff ch, hirq⟩

/-- Settles O32, from what CTRL reads as, what a write to it does, and the reset column. -/
theorem ctrlRegister : Obligations.CtrlRegister := by
  unfold Obligations.CtrlRegister
  refine ⟨fun s c rest => ⟨?_, fun v hs => performsWrite_of hs ?_⟩, readsZeroAfterReset_reg (r := .ctrl) (by decide)⟩
  · rw [← readReg_ctrl s.params]
    exact readsAs_reg .ctrl
  · rw [writeEffect_ctrl]
    exact writeCtrl_spec v (s.chan c)

/-- Settles O33: the fields of STATUS lie apart, so each reads back as it was placed. -/
theorem statusRegister : Obligations.StatusRegister := by
  unfold Obligations.StatusRegister
  refine ⟨by decide, by decide, by decide, fun s c rest => ⟨fun hs => ?_, refusesWrites_reg (r := .status) (by decide) s c rest⟩,
    readsZeroAfterReset_reg (r := .status) (by decide)⟩
  obtain ⟨hready, herr, hovf, hirq⟩ := statusWord_flags (s.chan c)
  obtain ⟨hcphase, hfphase, hcode, hreserved⟩ := statusWord_fields (s.chan c)
  refine ⟨_, readsAs_reg .status hs, hcphase, hfphase, ?_, herr, hovf, hirq, hcode, hreserved⟩
  exact hready ▸ decide_eq_true_iff

/-- Settles O34, by the value of bit 0. -/
theorem errclrRegister : Obligations.ErrclrRegister := by
  unfold Obligations.ErrclrRegister
  refine fun s c rest => ⟨readsAs_reg .errclr, fun v hs => performsWrite_of hs ?_⟩
  rw [writeEffect_errclr, writeErrclr]
  refine ⟨fun hset => ?_, fun hclear => if_neg (Bool.eq_false_iff.mp hclear)⟩
  rw [if_pos hset]
  exact ⟨clearError_sameButError _, rfl, rfl, rfl, rfl, rfl, rfl⟩

/-- Settles O35, by whether the channel is in phase KSA; the length of a legal static key fits KLEN's nine bits. -/
theorem keylenRegister : Obligations.KeylenRegister := by
  unfold Obligations.KeylenRegister
  refine ⟨fun s c rest => ⟨?_, fun v hs => performsWrite_of hs ?_⟩,
    fun c => readsAfterReset_reg (r := .keylen) fun p draw hp => readReg_keylen_reset hp draw c⟩
  · rw [BitVec.ofNat_toNat]
    exact readsAs_reg .keylen
  · rw [writeEffect_keylen]
    exact ⟨fun hksa => writeKeylen_locked hksa 0x00C v, fun hfree => writeKeylen_unlocked hfree 0x00C v⟩

/-- Settles O36: ten registers read as their fields; the offsets from RESULT to ERR_TYPE are registers, none of them writable
and none showing a parameter; ERR_POS and ERR_TYPE by the invariant's clause on the error's detail. -/
theorem readOnlyRegisters : Obligations.ReadOnlyRegisters := by
  unfold Obligations.ReadOnlyRegisters
  refine ⟨fun s c rest => ?_, fun o hlo hhi h4 => ?_⟩
  · have reads (r : Reg) : ReadsAs s c rest r.offset (readReg s.params (s.chan c) r) := readsAs_reg r
    rw [← readReg_result s.params, ← readReg_index s.params]
    simp only [BitVec.ofNat_toNat]
    refine ⟨reads .result, reads .index, reads .count, reads .frameType, reads .frameLen, reads .fill, reads .fpos, reads .errInfo,
      reads .errPos, reads .errType, fun hinv hcode => ?_⟩
    obtain ⟨hpos, htype⟩ := hinv.errorDetail hcode
    have pos := reads .errPos
    have type := reads .errType
    rw [readReg, hpos] at pos
    rw [readReg, htype] at type
    exact ⟨pos, type⟩
  · obtain ⟨r, rfl⟩ := exists_reg_of_offset h4 (by omega)
    have plain : r ∈ readOnlyRegs ∧ r ∉ [Reg.keylen, .param, .maxframe] := by
      cases r <;> revert hlo hhi <;> decide
    exact ⟨refusesWrites_reg plain.1, readsZeroAfterReset_reg plain.2⟩

/-- Settles O37, from the fields of PARAM for a legal configuration. -/
theorem parameterRegisters : Obligations.ParameterRegisters := by
  unfold Obligations.ParameterRegisters
  refine fun s c rest => ⟨fun hs => ⟨_, readsAs_reg .param hs, paramWord_showsParams hs.params⟩, readsAs_reg .maxframe,
    refusesWrites_reg (r := .param) (by decide) s c rest, refusesWrites_reg (r := .maxframe) (by decide) s c rest, fun hdefault => ?_⟩
  have hread := readsAs_reg (s := s) (c := c) (rest := rest) .maxframe
  rw [readReg, hdefault] at hread
  exact hread

end Sys2Proof.Machine

/-! # The bus

What a transaction does at each offset of the address map of 20_memory.md section 2. -/

namespace Sys2Proof.Machine

/-! ## Offsets that take no write -/

theorem refusesWrites_of_target {s : State} {c : Chan} {rest : List HostEvent} {o : Offset}
    (noReg : ∀ r, target s.params o ≠ .reg r) (noKey : ∀ n, target s.params o ≠ .key n) : RefusesWrites s c rest o := by
  refine refusesWrites_of fun v => ?_
  unfold writeEffect
  cases h : target s.params o with
  | reg r => exact absurd h (noReg r)
  | key n => exact absurd h (noKey n)
  | misaligned | sbox | fbuf | unmapped => rfl

/-- The registers and the KEY window, the only elements a host can write, lie below 0x800 (20_memory.md R63). -/
theorem target_above_key {p : Params} {o : Offset} (h : 0x800 ≤ o.toNat) :
    (∀ r, target p o ≠ .reg r) ∧ ∀ n, target p o ≠ .key n := by
  unfold target
  dsimp only
  rw [if_neg (by omega : ¬ o.toNat < 0x400), if_neg (by omega : ¬ o.toNat < 0x800)]
  refine ⟨fun r => ?_, fun n => ?_⟩ <;> split_ifs <;> exact Target.noConfusion

/-! ## The KEY window -/

theorem readsAs_key {s : State} {c : Chan} {rest : List HostEvent} {n : Nat} (h : n < 256) :
    ReadsAs s c rest (BitVec.ofNat 20 (0x400 + 4 * n)) (zextByte (tableGet (s.chan c).key (BitVec.ofNat 8 n))) := fun hs =>
  answersRead_of hs fun x _ hcur => by rw [target_key _ h, readTarget, hcur]

theorem writeEffect_key (p : Params) {n : Nat} (h : n < 256) (v : Word) :
    writeEffect p (BitVec.ofNat 20 (0x400 + 4 * n)) v = writeKey (BitVec.ofNat 20 (0x400 + 4 * n)) (BitVec.ofNat 8 n) v := by
  rw [writeEffect, target_key p h]

theorem zextOffset_ofNat {k : Nat} (h : k < 2 ^ 20) : zextOffset (BitVec.ofNat 20 k) = BitVec.ofNat 32 k :=
  BitVec.setWidth_ofNat_of_le_of_lt (by decide) h

theorem writeKey_locked {a : Channel} (h : a.cphase = .ksa) (o : Offset) (n : Byte) (v : Word) :
    Rejected .keyLocked (zextOffset o) a (writeKey o n v a) := by
  rw [writeKey, if_pos h]
  exact reject_rejected ..

theorem writeKey_unlocked {a : Channel} (h : a.cphase ≠ .ksa) (o : Offset) (n : Byte) (v : Word) :
    (tableGet (writeKey o n v a).key n).toNat = v.toNat % 256 ∧
      (∀ m, m ≠ n → tableGet (writeKey o n v a).key m = tableGet a.key m) ∧ (writeKey o n v a).klen = a.klen ∧
      SameStream a (writeKey o n v a) ∧ SameResult a (writeKey o n v a) ∧ SameDecoder a (writeKey o n v a) ∧
      SameBuffer a (writeKey o n v a) ∧ SameCtrl a (writeKey o n v a) ∧ SameError a (writeKey o n v a) := by
  rw [writeKey, if_neg h]
  refine ⟨?_, fun m hm => ?_, rfl, ⟨rfl, rfl, rfl, rfl, rfl⟩, ⟨rfl, rfl⟩, ⟨rfl, rfl, rfl, rfl, rfl⟩, fun _ => rfl,
    ⟨rfl, rfl⟩, ⟨rfl, rfl, rfl, rfl, rfl, rfl⟩⟩
  · rw [tableGet_tableSet, if_pos rfl]
    exact BitVec.extractLsb'_toNat ..
  · rw [tableGet_tableSet, if_neg hm]

/-! ## The FBUF window -/

/-- A read of the filled part of the window, of a legal configuration (20_memory.md R70). -/
theorem readsAs_fbuf {s : State} {c : Chan} {rest : List HostEvent} {n : Nat} (h : n < s.params.maxFrame)
    (filled : n < (s.chan c).fcnt.toNat) :
    ReadsAs s c rest (BitVec.ofNat 20 (0x80000 + 4 * n)) (zextByte (Memory.read (s.chan c).fbuf n)) := fun hs => by
  obtain ⟨-, -, -, -, hmax, -⟩ := bounds_of_wf hs.params
  refine answersRead_of hs fun x _ hcur => ?_
  rw [target_fbuf hmax h, readTarget, hcur, if_pos filled]

/-- A read at or above FCNT returns a free byte (20_memory.md R70). -/
theorem step_read_fbuf_stale {s : State} {c : Chan} {rest : List HostEvent} {n : Nat} (h : n < s.params.maxFrame)
    (stale : (s.chan c).fcnt.toNat ≤ n) (hs : Waiting s (.read (busAddr c (BitVec.ofNat 20 (0x80000 + 4 * n)))) rest) :
    step s = .next ({ s with pending := rest, sel := c } : State).replyStale := by
  obtain ⟨-, -, -, -, hmax, -⟩ := bounds_of_wf hs.params
  rw [step_read hs.params hs.pending, busRead, chanOf_busAddr, offsetOf_busAddr, target_fbuf hmax h, readTarget, if_neg]
  rw [State.cur_withSel, State.chan_withPending]
  exact Nat.not_lt.mpr stale

/-! ## Commands while a frame is held -/

/-- The commands that release a held frame (20_memory.md R70). -/
def releasingCommands : List Instr := [.fack, .frst, .conn, .close]

theorem reject_sameOutsideCipher (code : ErrCode) (info : Word) (ch : Channel) : SameOutsideCipher ch (reject code info ch) :=
  have h := (reject_rejected code info ch).1
  ⟨h.key, h.decoder, h.buffer, h.ctrl⟩

/-- While a frame is held, every command but the four that release it acts on the cipher and the error state alone. -/
theorem commandEffect_sameOutsideCipher_of_held (p : Params) {i : Instr} {ch : Channel} (held : ch.fphase = .held)
    (keeps : i ∉ releasingCommands) : SameOutsideCipher ch (commandEffect p i ch) := by
  cases i with
  | fack | frst | conn | close => simp [releasingCommands] at keeps
  | nop => exact .refl ch
  | cinit =>
    dsimp only [commandEffect]
    split
    · exact (ksaInit_frame ch).1
    · exact (keylenFailure_spec ch).1
  | kstep =>
    dsimp only [commandEffect]
    split
    · exact (ksaStep_frame ch).1
    · exact reject_sameOutsideCipher ..
  | krun =>
    dsimp only [commandEffect]
    split
    · exact (ksaLoop_frame 256 ch).1
    · exact reject_sameOutsideCipher ..
  | dec d =>
    dsimp only [commandEffect]
    split
    · exact (prgaStep_frame d ch).1
    · exact reject_sameOutsideCipher ..
  | decf d =>
    dsimp only [commandEffect]
    rw [if_pos held]
    split <;> exact reject_sameOutsideCipher ..
  | feed d =>
    dsimp only [commandEffect]
    rw [if_pos held]
    exact reject_sameOutsideCipher ..

/-! ## The obligations -/

/-- Settles O38: a misaligned offset reaches no element, whatever the map. -/
theorem misalignedTransactions : Obligations.MisalignedTransactions := by
  unfold Obligations.MisalignedTransactions
  intro s c rest o hmis
  have htarget := target_misaligned s.params hmis
  exact ⟨fun hs => answersBadRead_of hs (.inl htarget), refusesWrites_of_target (by simp [htarget]) (by simp [htarget])⟩

/-- Settles O39, by the three unmapped ranges of the map. -/
theorem unmappedReads : Obligations.UnmappedReads := by
  unfold Obligations.UnmappedReads
  intro s c rest o h4 hrange hs
  refine answersBadRead_of hs (.inr ?_)
  rcases hrange with ⟨hlo, hhi⟩ | ⟨hlo, hhi⟩ | hend
  · exact target_hole _ h4 hlo (by omega)
  · exact target_outside h4 (.inl ⟨hlo, by omega⟩)
  · exact target_outside h4 (.inr ⟨by omega, hend⟩)

/-- Settles O40: below 0x044 the offset is a read-only register's, from there to 0x3FF it is unmapped, and from 0x800 on no
element takes a write. -/
theorem writesToReadOnlyOffsets : Obligations.WritesToReadOnlyOffsets := by
  unfold Obligations.WritesToReadOnlyOffsets
  intro s c rest o h4 hrange
  by_cases hkey : 0x800 ≤ o.toNat
  · exact refusesWrites_of_target (target_above_key hkey).1 (target_above_key hkey).2
  by_cases hreg : o.toNat ≤ 0x040
  · obtain ⟨r, rfl⟩ := exists_reg_of_offset h4 hreg
    have readOnly : r ∈ readOnlyRegs := by
      cases r <;> revert hrange <;> decide
    exact refusesWrites_reg readOnly s c rest
  · have htarget := target_hole s.params h4 (by omega) (by omega)
    exact refusesWrites_of_target (by simp [htarget]) (by simp [htarget])

/-- Settles O41: the two write-only registers read as 0. -/
theorem writeOnlyRegistersReadZero : Obligations.WriteOnlyRegistersReadZero := by
  unfold Obligations.WriteOnlyRegistersReadZero
  exact fun s c rest => ⟨readsAs_reg .errclr, readsAs_reg .cmd⟩

/-- Settles O42, by whether the channel is in phase KSA. -/
theorem keyWindow : Obligations.KeyWindow := by
  unfold Obligations.KeyWindow
  refine fun s c rest n hn => ⟨readsAs_key hn, fun v hs => performsWrite_of hs ?_, fun v hs => performsWrite_of hs ?_⟩
  · rw [writeEffect_key _ hn, ← zextOffset_ofNat (by omega : 0x400 + 4 * n < 2 ^ 20)]
    exact ⟨fun hksa => writeKey_locked hksa .., fun hfree => writeKey_unlocked hfree ..⟩
  · rw [writeEffect_keylen]
    exact fun hksa => writeKeylen_locked hksa 0x00C v

/-- Settles O44: FCNT divides the window into stored and free bytes, a held frame has FCNT = FLEN by the invariant, and a
command that does not release it leaves the decoder alone. -/
theorem fbufWindow : Obligations.FbufWindow := by
  unfold Obligations.FbufWindow
  refine fun s c rest n hn => ⟨readsAs_fbuf hn, fun hstale hs => ?_, fun hheld hinv hlen => ?_, fun v hs => ?_,
    fun i t ht hheld => ?_⟩
  · exact ⟨_, _, step_read_fbuf_stale hn hstale hs, rfl, fun d => by cases d <;> rfl, rfl, rfl, rfl⟩
  · obtain ⟨-, hfull, -⟩ := hinv.held hheld
    exact readsAs_fbuf hn (hfull ▸ hlen)
  · obtain ⟨-, -, -, -, hmax, -⟩ := bounds_of_wf hs.params
    have htarget := target_fbuf hmax hn
    exact refusesWrites_of_target (by simp [htarget]) (by simp [htarget]) v hs
  · by_cases hi : i ∈ releasingCommands
    · exact .inr (by simpa [releasingCommands] using hi)
    · rw [exec_cur ht, (commandEffect_sameOutsideCipher_of_held _ hheld hi).decoder.fphase]
      exact .inl hheld

end Sys2Proof.Machine

/-! # The encoding

Which words decode to which command (30_encoding.md R93) and which to none (R94). -/

namespace Sys2Proof

/-! ## A word decodes to a command exactly when it is its encoding -/

/-- The decoder reads every command back from its word (30_encoding.md R93, R96). -/
theorem decode_encode (i : Instr) : decode (encode i) = .ok i := by
  obtain ⟨-, hdata, hrsv, hop⟩ := Laws.fields_of_word i.opcode i.data
  rw [decode, encode, hdata, hrsv, hop]
  cases i <;> rfl

theorem decode_eq_ok_iff {w : Word} {i : Instr} : decode w = .ok i ↔ encode i = w :=
  ⟨encode_of_decode, fun h => h ▸ decode_encode i⟩

/-! ## Match and mask -/

theorem dataField_eq_ofNat (w : Word) : dataField w = BitVec.ofNat 8 w.toNat := rfl

/-- The mask of a row that uses D cuts off D and nothing else. -/
theorem masked_or_dataField (w : Word) : w &&& 0xFFFFFF00 ||| placeField 0 (dataField w) = w := by
  have mask : ∀ k < 32, (0xFFFFFF00 : Word).getLsbD k = decide (8 ≤ k) := by decide
  apply BitVec.eq_of_getLsbD_eq
  intro n hn
  rw [BitVec.getLsbD_or, BitVec.getLsbD_and, mask n hn, getLsbD_placeField, dataField, BitVec.getLsbD_extractLsb']
  by_cases h : n < 8
  · simp [h, hn]
  · simp [h, Nat.le_of_not_lt h]

/-- A word is that of an opcode and a data byte when the rest of it matches the opcode and its D is the byte. -/
theorem fields_eq_word_iff {op : BitVec 4} {d : Byte} {w : Word} :
    placeField 28 op ||| placeField 0 d = w ↔ w &&& 0xFFFFFF00 = placeField 28 op ∧ d = dataField w := by
  constructor
  · rintro rfl
    obtain ⟨hmatch, hdata, -, -⟩ := Laws.fields_of_word op d
    exact ⟨hmatch, hdata.symm⟩
  · rintro ⟨hmatch, rfl⟩
    rw [← hmatch, masked_or_dataField]

/-- A row that uses D (30_encoding.md R93). -/
theorem decode_eq_ok_iff_of_usesData {i : Instr} (h : usesData i.opcode = true) (w : Word) :
    decode w = .ok i ↔ w &&& Laws.rowMask i = Laws.rowMatch i ∧ i.data = BitVec.ofNat 8 w.toNat := by
  have row : Laws.rowMask i = 0xFFFFFF00 ∧ Laws.rowMatch i = placeField 28 i.opcode := by
    cases i with
    | dec | decf | feed => exact ⟨rfl, by rw [Laws.rowMatch, Instr.opcode]; decide⟩
    | _ => simp [Instr.opcode, usesData] at h
  obtain ⟨hmask, hmatch⟩ := row
  rw [decode_eq_ok_iff, hmask, hmatch, encode, fields_eq_word_iff, dataField_eq_ofNat]

/-- A row that does not use D: its mask is every bit of the word (30_encoding.md R93). -/
theorem decode_eq_ok_iff_of_not_usesData {i : Instr} (h : usesData i.opcode = false) (w : Word) :
    decode w = .ok i ↔ w &&& Laws.rowMask i = Laws.rowMatch i := by
  have row : Laws.rowMask i = BitVec.allOnes 32 ∧ Laws.rowMatch i = encode i := by
    cases i with
    | dec | decf | feed => simp [Instr.opcode, usesData] at h
    | _ => decide
  obtain ⟨hmask, hmatch⟩ := row
  rw [decode_eq_ok_iff, hmask, hmatch, BitVec.and_allOnes, eq_comm]

/-! ## Illegal words -/

/-- The three tests of the decode function (30_encoding.md R94, R96). -/
theorem decode_error_iff (w : Word) :
    (∃ e, decode w = .error e) ↔ opcodeRow (opField w) (dataField w) = none ∨ rsvField w ≠ 0 ∨
      (usesData (opField w) = false ∧ dataField w ≠ 0) := by
  unfold decode
  cases opcodeRow (opField w) (dataField w) with
  | none => simp
  | some i =>
    dsimp only
    split_ifs with hrsv hdata
    · exact iff_of_true ⟨_, rfl⟩ (.inr (.inl hrsv))
    · exact iff_of_true ⟨_, rfl⟩ (.inr (.inr (by simpa using hdata)))
    · exact iff_of_false nofun (by simpa [not_not.mp hrsv] using hdata)

/-- The opcode map has no row from 0xB on (30_encoding.md R93). -/
theorem opcodeRow_eq_none_iff (op : BitVec 4) (d : Byte) : opcodeRow op d = none ↔ 11 ≤ op.toNat := by
  unfold opcodeRow
  split
  case h_12 => exact iff_of_true rfl (by grind)
  all_goals exact iff_of_false nofun (by omega)

theorem usesData_eq_false_iff (op : BitVec 4) :
    usesData op = false ↔ op.toNat ≠ 4 ∧ op.toNat ≠ 5 ∧ op.toNat ≠ 6 := by
  simp [usesData, ← BitVec.toNat_inj, and_assoc]

theorem opField_toNat (w : Word) : (opField w).toNat = w.toNat / 2 ^ 28 := by
  rw [opField, BitVec.extractLsb'_toNat, Nat.shiftRight_eq_div_pow]
  have := w.isLt
  omega

theorem rsvField_toNat (w : Word) : (rsvField w).toNat = w.toNat / 2 ^ 8 % 2 ^ 20 := by
  rw [rsvField, BitVec.extractLsb'_toNat, Nat.shiftRight_eq_div_pow]

theorem dataField_toNat (w : Word) : (dataField w).toNat = w.toNat % 2 ^ 8 := by
  rw [dataField_eq_ofNat, BitVec.toNat_ofNat]

end Sys2Proof

namespace Sys2Proof.Machine

/-! ## The obligations -/

/-- Settles O3: each row by whether its opcode uses D. -/
theorem opcodeMapMatchAndMask : Obligations.OpcodeMapMatchAndMask := by
  unfold Obligations.OpcodeMapMatchAndMask
  intro w
  have plain {i : Instr} (h : usesData i.opcode = false) := decode_eq_ok_iff_of_not_usesData h w
  have data {i : Instr} (h : usesData i.opcode = true) := decode_eq_ok_iff_of_usesData h w
  exact ⟨plain rfl, plain rfl, plain rfl, plain rfl, fun _ => data rfl, fun _ => data rfl, fun _ => data rfl,
    plain rfl, plain rfl, plain rfl, plain rfl⟩

/-- Settles O4: the tests of the decode function in numbers, and what a Write to CMD does with a word that has no command. -/
theorem illegalWordsAreRejected : Obligations.IllegalWordsAreRejected := by
  unfold Obligations.IllegalWordsAreRejected
  refine fun w => ⟨?_, fun s c rest ⟨e, he⟩ hs => ?_⟩
  · rw [decode_error_iff, opcodeRow_eq_none_iff, usesData_eq_false_iff, ← BitVec.toNat_ne_iff_ne, ← BitVec.toNat_ne_iff_ne,
      opField_toNat, rsvField_toNat, dataField_toNat, and_assoc, and_assoc]
    rfl
  · obtain ⟨cmd, -⟩ := stepRunsTheCommandWritten s c rest
    exact (cmd w hs).2 e he

end Sys2Proof.Machine

/-! # The cipher

What CINIT, KSTEP, KRUN and DEC do to the addressed channel (40_cipher.md R111 to R117). -/

namespace Sys2Proof.Machine

/-! ## One command and a run of one command -/

/-- Every command answers a next state, whose addressed channel is the command's effect. -/
theorem exec_of_effect {i : Instr} {s : State} {ch : Channel} (h : commandEffect s.params i s.cur = ch) :
    ∃ t, exec i s = .next t ∧ SameBut s.sel s t ∧ t.cur = ch :=
  ⟨_, exec_eq i s, s.onCur_sameBut _, (s.cur_onCur _).trans h⟩

theorem rejectsCommand_of_effect {i : Instr} {code : ErrCode} {s : State}
    (h : commandEffect s.params i s.cur = reject code (encode i) s.cur) : RejectsCommand i code s := by
  obtain ⟨t, hexec, hsame, hcur⟩ := exec_of_effect h
  exact ⟨t, hexec, hsame, hcur ▸ reject_rejected ..⟩

theorem State.onCur_congr {s : State} {f g : Channel → Channel} (h : f s.cur = g s.cur) : s.onCur f = s.onCur g :=
  congrArg (s.setChan s.sel) h

theorem execAll_cons (i : Instr) (is : List Instr) (s : State) :
    execAll (i :: is) s = execAll is (s.onCur (commandEffect s.params i)) := by
  rw [execAll, exec_eq]

/-- A command repeated iterates its effect. -/
theorem execAll_replicate (i : Instr) (n : Nat) (s : State) :
    execAll (List.replicate n i) s = .next (s.onCur (commandEffect s.params i)^[n]) := by
  induction n generalizing s with
  | zero => exact congrArg Host.Outcome.next s.onCur_id.symm
  | succ n ih =>
    rw [List.replicate_succ, execAll_cons, ih, State.onCur_params, State.onCur_onCur]
    rfl

/-! ## The effects of the cipher commands -/

theorem klenUsable_iff (klen : BitVec 9) : klenUsable klen = true ↔ 1 ≤ klen.toNat ∧ klen.toNat ≤ 256 :=
  decide_eq_true_iff

theorem commandEffect_cinit_usable (p : Params) {ch : Channel} (h : 1 ≤ ch.klen.toNat ∧ ch.klen.toNat ≤ 256) :
    commandEffect p .cinit ch = ksaInit ch := if_pos ((klenUsable_iff _).mpr h)

theorem commandEffect_cinit_unusable (p : Params) {ch : Channel} (h : ch.klen.toNat < 1 ∨ 256 < ch.klen.toNat) :
    commandEffect p .cinit ch = keylenFailure ch :=
  if_neg fun usable => by
    have := (klenUsable_iff _).mp usable
    omega

theorem commandEffect_kstep_ksa (p : Params) {ch : Channel} (h : ch.cphase = .ksa) :
    commandEffect p .kstep ch = ksaStep ch := if_pos h

theorem commandEffect_krun_ksa (p : Params) {ch : Channel} (h : ch.cphase = .ksa) :
    commandEffect p .krun ch = ksaRun ch := if_pos h

theorem commandEffect_dec_ready (p : Params) {ch : Channel} (h : ch.cphase = .ready) (d : Byte) :
    commandEffect p (.dec d) ch = prgaStep d ch := if_pos h

/-! ## The schedule -/

/-- KsaInit writes the identity table and starts the schedule (40_cipher.md R111). -/
theorem ksaInit_stream (ch : Channel) :
    (∀ n, tableGet (ksaInit ch).sbox n = n) ∧ (ksaInit ch).i = 0 ∧ (ksaInit ch).j = 0 ∧ (ksaInit ch).count = 0 ∧
      (ksaInit ch).cphase = .ksa :=
  ⟨tableGet_tableIdentity, rfl, rfl, rfl, rfl⟩

/-- While the schedule lasts, KSTEPs are iterations of it: none of them is rejected (40_cipher.md R115, R116). -/
theorem kstep_iterate (p : Params) {n : Nat} {ch : Channel} (hksa : ch.cphase = .ksa) (hn : n ≤ 256 - ch.i.toNat) :
    (commandEffect p .kstep)^[n] ch = ksaStep^[n] ch := by
  induction n generalizing ch with
  | zero => rfl
  | succ n ih =>
    rw [Function.iterate_succ_apply, Function.iterate_succ_apply, commandEffect_kstep_ksa p hksa]
    by_cases hi : ch.i = 255
    · have last : n = 0 := by simpa [hi] using hn
      rw [last]
      rfl
    · obtain ⟨hnext, -, hphase⟩ := ksaStep_more hi
      exact ih (hphase.trans hksa) (by omega)

/-- KRUN is as many KSTEPs as the schedule has iterations left (40_cipher.md R116). -/
theorem exec_krun_eq_ksteps {s : State} (hksa : s.cur.cphase = .ksa) :
    exec .krun s = execAll (List.replicate (256 - s.cur.i.toNat) .kstep) s := by
  rw [exec_eq, execAll_replicate]
  congr 1
  apply State.onCur_congr
  calc commandEffect s.params .krun s.cur
    _ = ksaRun s.cur := commandEffect_krun_ksa _ hksa
    _ = ksaStep^[256 - s.cur.i.toNat] s.cur := (ksaRun_eq_iterate hksa).1
    _ = (commandEffect s.params .kstep)^[256 - s.cur.i.toNat] s.cur := (kstep_iterate _ hksa le_rfl).symm

/-! ## The generator -/

/-- PrgaStep's indices and COUNT as numbers (40_cipher.md R113). -/
theorem toNat_prgaStep (d : Byte) (ch : Channel) :
    (prgaStep d ch).i.toNat = (ch.i.toNat + 1) % 256 ∧
      (prgaStep d ch).j.toNat = (ch.j.toNat + (tableGet ch.sbox (prgaStep d ch).i).toNat) % 256 ∧
      (prgaStep d ch).count.toNat = (ch.count.toNat + 1) % 2 ^ 32 :=
  ⟨BitVec.toNat_add .., BitVec.toNat_add .., BitVec.toNat_add ..⟩

/-- PrgaStep's table: the entries at the new i and the new j change places. -/
theorem tableGet_prgaStep_sbox (d : Byte) (ch : Channel) (n : Byte) :
    tableGet (prgaStep d ch).sbox n =
      if n = (prgaStep d ch).j then tableGet ch.sbox (prgaStep d ch).i
      else if n = (prgaStep d ch).i then tableGet ch.sbox (prgaStep d ch).j else tableGet ch.sbox n :=
  tableGet_tableSwap ..

/-! ## The obligations -/

/-- Settles O8, by whether KLEN is usable: KsaInit, or the cipher cleared and KEYLEN recorded. -/
theorem cinitStartsTheSchedule : Obligations.CinitStartsTheSchedule := by
  unfold Obligations.CinitStartsTheSchedule
  refine fun s => ⟨fun husable => ?_, fun hunusable => ?_⟩
  · obtain ⟨t, hexec, hsame, hcur⟩ := exec_of_effect (commandEffect_cinit_usable s.params husable)
    obtain ⟨hsbox, hi, hj, hcount, hphase⟩ := ksaInit_stream s.cur
    obtain ⟨⟨hkey, hdecoder, hbuffer, hctrl⟩, hresult, herror⟩ := ksaInit_frame s.cur
    refine ⟨t, hexec, hsame, ?_⟩
    rw [hcur]
    exact ⟨hsbox, hi, hj, hcount, hphase, hresult, hkey, hdecoder, .of_eq hbuffer, hctrl, herror⟩
  · obtain ⟨t, hexec, hsame, hcur⟩ := exec_of_effect (commandEffect_cinit_unusable s.params hunusable)
    obtain ⟨⟨hkey, hdecoder, hbuffer, hctrl⟩, hresult, hsbox, hi, hj, hcount, hphase, hrecorded⟩ := keylenFailure_spec s.cur
    refine ⟨t, hexec, hsame, ?_⟩
    rw [hcur, BitVec.ofNat_toNat]
    exact ⟨hsbox, hi, hj, hcount, hphase, hresult, hkey, hdecoder, .of_eq hbuffer, hctrl, hrecorded⟩

/-- Settles O9: in phase KSA by whether i is 255. The proof needs no bound on KLEN: the model's remainder is the statement's. -/
theorem kstepDoesOneIteration : Obligations.KstepDoesOneIteration := by
  unfold Obligations.KstepDoesOneIteration
  refine fun s => ⟨fun hksa _ => ?_, fun hphase => rejectsCommand_of_effect (if_neg hphase)⟩
  obtain ⟨t, hexec, hsame, hcur⟩ := exec_of_effect (commandEffect_kstep_ksa s.params hksa)
  obtain ⟨⟨hkey, hdecoder, hbuffer, hctrl⟩, hresult, herror, hcount⟩ := ksaStep_frame s.cur
  refine ⟨t, ksaJ s.cur, hexec, hsame, toNat_ksaJ s.cur, ?_⟩
  rw [hcur, ksaStep_sbox]
  refine ⟨fun n => tableGet_tableSwap .., fun hlast => ksaStep_last (BitVec.eq_of_toNat_eq hlast), fun hmore => ?_, hcount,
    hresult, hkey, hdecoder, .of_eq hbuffer, hctrl, herror⟩
  have hi : s.cur.i ≠ 255 := fun h => absurd (congrArg BitVec.toNat h) hmore.ne
  rw [← hksa]
  exact ksaStep_more hi

/-- Settles O10: the loop of KRUN is 256 - i iterations, and so are that many KSTEPs. -/
theorem krunFinishesTheSchedule : Obligations.KrunFinishesTheSchedule := by
  unfold Obligations.KrunFinishesTheSchedule
  refine fun s => ⟨fun hksa _ => ?_, fun hphase => rejectsCommand_of_effect (if_neg hphase)⟩
  obtain ⟨t, hexec, hsame, hcur⟩ := exec_of_effect (commandEffect_krun_ksa s.params hksa)
  obtain ⟨-, hready, hi, hj⟩ := ksaRun_eq_iterate hksa
  obtain ⟨⟨hkey, hdecoder, hbuffer, hctrl⟩, hresult, herror, hcount⟩ := ksaLoop_frame 256 s.cur
  refine ⟨t, hexec, (exec_krun_eq_ksteps hksa).symm.trans hexec, hsame, ?_⟩
  rw [hcur]
  exact ⟨hready, hi, hj, hcount, hresult, hkey, hdecoder, .of_eq hbuffer, hctrl, herror⟩

/-- Settles O12: in phase READY each equation is PrgaStep's, read as numbers. -/
theorem decStepsTheGenerator : Obligations.DecStepsTheGenerator := by
  unfold Obligations.DecStepsTheGenerator
  refine fun s d => ⟨fun hready => ?_, fun hphase => rejectsCommand_of_effect (if_neg hphase)⟩
  obtain ⟨t, hexec, hsame, hcur⟩ := exec_of_effect (commandEffect_dec_ready s.params hready d)
  obtain ⟨hi, hj, hcount⟩ := toNat_prgaStep d s.cur
  obtain ⟨⟨hkey, hdecoder, hbuffer, hctrl⟩, herror, hphase⟩ := prgaStep_frame d s.cur
  refine ⟨t, hexec, hsame, ?_⟩
  rw [hcur, BitVec.ofNat_add, BitVec.ofNat_toNat, BitVec.ofNat_toNat, BitVec.setWidth_eq, BitVec.setWidth_eq]
  exact ⟨hi, hj, tableGet_prgaStep_sbox d s.cur, prgaStep_resultKs d s.cur, prgaStep_resultPt d s.cur, hcount,
    hphase.trans hready, hkey, hdecoder, .of_eq hbuffer, hctrl, herror⟩

end Sys2Proof.Machine

/-! # The frame decoder

What FEED, FRST and FACK do to the addressed channel (41_frame.md R140 to R148): one command, a run of bytes, DISCARD. -/

namespace Sys2Proof.Machine

/-! ## FRST and FACK -/

theorem commandEffect_fack_held (p : Params) {ch : Channel} (h : ch.fphase = .held) :
    commandEffect p .fack ch = frameRelease ch := if_pos h

theorem rejectsCommand_fack {s : State} (h : s.cur.fphase ≠ .held) : RejectsCommand .fack .noFrame s :=
  rejectsCommand_of_effect (if_neg h)

/-- Settles O21: FRST is the decoder's reset in every phase. -/
theorem frstClearsTheDecoder : Obligations.FrstClearsTheDecoder := by
  unfold Obligations.FrstClearsTheDecoder
  intro s
  obtain ⟨t, hexec, hsame, hcur⟩ := exec_of_effect (i := .frst) (s := s) rfl
  obtain ⟨⟨hstream, hresult, hkey, hctrl⟩, herror, hbuffer, hfpos, hstart⟩ := frameReset_frame s.cur
  refine ⟨t, hexec, hsame, ?_⟩
  rw [hcur]
  exact ⟨hstart.fphase, hstart.fcnt, hstart.flen, hstart.ftype, hfpos, .of_eq hbuffer, hstream, hresult, hkey, hctrl, herror⟩

/-- Settles O22, by whether a frame is held; after the release none is, so the next FACK is rejected. -/
theorem fackReleasesTheHeldFrame : Obligations.FackReleasesTheHeldFrame := by
  unfold Obligations.FackReleasesTheHeldFrame
  refine fun s => ⟨fun held => ?_, rejectsCommand_fack⟩
  obtain ⟨t, hexec, hsame, hcur⟩ := exec_of_effect (commandEffect_fack_held s.params held)
  obtain ⟨⟨hstream, hresult, hkey, hctrl⟩, herror, hbuffer, hfpos, hstart⟩ := frameRelease_frame s.cur
  have hphase : t.cur.fphase = .hdr := by rw [hcur, hstart.fphase]
  have again : RejectsCommand .fack .noFrame t := rejectsCommand_fack (by rw [hphase]; decide)
  refine ⟨t, hexec, hsame, hphase, ?_⟩
  rw [hcur]
  exact ⟨hstart.fcnt, hstart.flen, hstart.ftype, hfpos, .of_eq hbuffer, hstream, hresult, hkey, hctrl, herror, again⟩

/-! ## One byte -/

theorem commandEffect_feed (p : Params) {ch : Channel} (h : ch.fphase ≠ .held) (b : Byte) :
    commandEffect p (.feed b) ch = frameAccept p b ch := if_neg h

/-- The error is recorded over an error state that a step before it kept. -/
theorem Recorded.of_sameError {code : ErrCode} {info pos : Word} {type : Byte} {a b c : Channel} (same : SameError a b)
    (h : Recorded code info pos type b c) : Recorded code info pos type a c := by
  unfold Recorded at h ⊢
  rwa [same.err, same.errOvf, same.errcode, same.errInfo, same.errPos, same.errType] at h

/-- Outside DISCARD an accepted byte is stored at index FCNT. -/
theorem frameAccept_storesAtFill (p : Params) (b : Byte) {a : Channel} (wf : a.fbuf.wf = true) (h : a.fphase ≠ .discard) :
    StoresAtFill b a (frameAccept p b a) := by
  unfold StoresAtFill SameBufferBut
  rw [frameAccept_fbuf, if_neg h]
  exact ⟨Memory.read_write_self wf _ b, fun n hn => Memory.read_write_other wf b hn⟩

/-- The decoder stands inside a header: the clauses of `Channel.Inv` that FrameAccept needs there. -/
structure InHeader (p : Params) (a : Channel) : Prop where
  fphase : a.fphase = .hdr
  fill : a.fcnt.toNat < p.hdrSize
  length : a.flen.toNat < 256 ^ lenIndex p a.fcnt.toNat

/-- A header byte counted, stored and taken, before the check whether the header is complete (41_frame.md R143). -/
def acceptHeaderByte (p : Params) (b : Byte) (ch : Channel) : Channel :=
  takeHeaderByte p ch.fcnt.toNat b (storeFrameByte b { ch with fpos := ch.fpos + 1 })

/-- What every valid header byte does to FCNT, FLEN, FTYPE and the error state. -/
structure TakesHeaderByte (p : Params) (b : Byte) (a c : Channel) : Prop where
  fcnt : c.fcnt.toNat = a.fcnt.toNat + 1
  flen : c.flen.toNat = lengthAfter p b a
  ftype : c.ftype = typeAfter p b a
  error : SameError a c

theorem frameAccept_inHeader {p : Params} {a : Channel} (h : InHeader p a) (b : Byte) :
    frameAccept p b a = headerCheck p (acceptHeaderByte p b a) :=
  frameAccept_hdr h.fphase

section HeaderByte

variable {p : Params} {a : Channel} (hp : p.wf = true) (ha : InHeader p a) (b : Byte)
include hp ha

theorem acceptHeaderByte_takes : TakesHeaderByte p b a (acceptHeaderByte p b a) where
  fcnt := by
    obtain ⟨-, -, -, hhdr, hmax, -⟩ := bounds_of_wf hp
    have fill : a.fcnt.toNat < 131072 := by have := ha.fill; omega
    rw [acceptHeaderByte, takeHeaderByte_fcnt]
    exact toNat_fcnt_succ fill
  flen := by
    rw [acceptHeaderByte, takeHeaderByte_flen]
    exact toNat_flen_after hp b ha.fill ha.length
  ftype := takeHeaderByte_ftype ..
  error :=
    have counted : SameError a { a with fpos := a.fpos + 1 } := ⟨rfl, rfl, rfl, rfl, rfl, rfl⟩
    (counted.trans (storeFrameByte_frame ..).2).trans (takeHeaderByte_frame ..).2

theorem malformedLength_acceptHeaderByte :
    malformedLength p (acceptHeaderByte p b a).flen = true ↔
      lengthAfter p b a < p.hdrSize ∨ p.maxFrame < lengthAfter p b a := by
  rw [malformedLength, (acceptHeaderByte_takes hp ha b).flen, decide_eq_true_iff]

/-- A header byte that leaves the header incomplete. -/
theorem frameAccept_incomplete (more : a.fcnt.toNat + 1 < p.hdrSize) :
    TakesHeaderByte p b a (frameAccept p b a) ∧ (frameAccept p b a).fphase = .hdr := by
  have takes := acceptHeaderByte_takes hp ha b
  have hfcnt := takes.fcnt
  rw [frameAccept_inHeader ha b, headerCheck, if_neg (by omega)]
  exact ⟨takes, (takeHeaderByte_fphase ..).trans ha.fphase⟩

/-- The last byte of a valid header. -/
theorem frameAccept_complete (last : a.fcnt.toNat + 1 = p.hdrSize) (hmin : p.hdrSize ≤ lengthAfter p b a)
    (hmax : lengthAfter p b a ≤ p.maxFrame) :
    TakesHeaderByte p b a (frameAccept p b a) ∧
      (frameAccept p b a).fphase = if lengthAfter p b a = p.hdrSize then .held else .body := by
  obtain ⟨hfcnt, hflen, hftype, ⟨herr, hovf, hcode, hinfo, hpos, htype⟩⟩ := acceptHeaderByte_takes hp ha b
  have hvalid := malformedLength_acceptHeaderByte hp ha b
  rw [frameAccept_inHeader ha b]
  rcases headerCheck_cases p (acceptHeaderByte p b a) with ⟨h, -⟩ | ⟨-, h, -⟩ | ⟨-, -, h⟩
  · omega
  · have := hvalid.mp h
    omega
  · rw [h, hflen]
    exact ⟨⟨hfcnt, hflen, hftype, ⟨herr, hovf, hcode, hinfo, hpos, htype⟩⟩, rfl⟩

/-- The last byte of a malformed header: the error, with the stream offset of the header's first byte, and DISCARD. -/
theorem frameAccept_malformed (last : a.fcnt.toNat + 1 = p.hdrSize)
    (bad : lengthAfter p b a < p.hdrSize ∨ p.maxFrame < lengthAfter p b a) :
    (frameAccept p b a).fphase = .discard ∧ (frameAccept p b a).fcnt = 0 ∧ (frameAccept p b a).flen = 0 ∧
      (frameAccept p b a).ftype = 0 ∧
      Recorded .malformedLen (BitVec.ofNat 32 (lengthAfter p b a)) (a.fpos + 1 - BitVec.ofNat 32 p.hdrSize)
        (typeAfter p b a) a (frameAccept p b a) := by
  obtain ⟨hfcnt, hflen, hftype, herror⟩ := acceptHeaderByte_takes hp ha b
  have e : frameAccept p b a = malformedHeader p (acceptHeaderByte p b a) := by
    rw [frameAccept_inHeader ha b, headerCheck, if_pos (hfcnt.trans last),
      if_pos ((malformedLength_acceptHeaderByte hp ha b).mpr bad)]
  have hfpos : (acceptHeaderByte p b a).fpos = a.fpos + 1 := takeHeaderByte_fpos ..
  obtain ⟨-, hphase, hfcnt', hflen', hftype', -, -, hrecorded⟩ := malformedHeader_spec p (acceptHeaderByte p b a)
  have hinfo : (acceptHeaderByte p b a).flen = BitVec.ofNat 32 (lengthAfter p b a) := by
    rw [← hflen, BitVec.ofNat_toNat, BitVec.setWidth_eq]
  rw [hinfo, hfpos, hftype] at hrecorded
  rw [e]
  exact ⟨hphase, hfcnt', hflen', hftype', hrecorded.of_sameError herror⟩

end HeaderByte

/-- A byte after the header, of a frame no longer than the buffer. -/
theorem frameAccept_inBody {p : Params} {a : Channel} (b : Byte) (h : a.fphase = .body) (fill : a.fcnt.toNat < 131072) :
    (frameAccept p b a).fcnt.toNat = a.fcnt.toNat + 1 ∧ (frameAccept p b a).flen = a.flen ∧
      (frameAccept p b a).ftype = a.ftype ∧ SameError a (frameAccept p b a) ∧
      (frameAccept p b a).fphase = if a.fcnt.toNat + 1 = a.flen.toNat then .held else .body := by
  have hfcnt : (a.fcnt + 1).toNat = a.fcnt.toNat + 1 := toNat_fcnt_succ fill
  rw [frameAccept_body h, bodyCheck_eq]
  refine ⟨hfcnt, rfl, rfl, ⟨rfl, rfl, rfl, rfl, rfl, rfl⟩, ?_⟩
  rw [← hfcnt, ← h]
  rfl

/-- The position a malformed header records, as a number: the header's first byte, FPOS counting its last (41_frame.md R143). -/
theorem headerPosition_eq_ofNat (fpos : Word) {n : Nat} (h : n < 2 ^ 32) :
    fpos + 1 - BitVec.ofNat 32 n = BitVec.ofNat 32 (fpos.toNat + 1 + 2 ^ 32 - n) := by
  apply BitVec.eq_of_toNat_eq
  simp only [BitVec.toNat_sub, BitVec.toNat_add, BitVec.toNat_ofNat, BitVec.ofNat_eq_ofNat]
  omega

/-- FrameAccept of any byte, in a channel that meets its invariant. -/
theorem accepts_frameAccept {p : Params} {a : Channel} (hp : p.wf = true) (inv : a.Inv p) (b : Byte) :
    Accepts p b a (frameAccept p b a) := by
  obtain ⟨-, hlen, hhdr, -, hmax, -⟩ := bounds_of_wf hp
  have inHeader (h : a.fphase = .hdr) : InHeader p a := ⟨h, inv.header h, inv.lengthSoFar h⟩
  constructor
  case fpos =>
    rw [frameAccept_fpos]
    exact BitVec.toNat_add ..
  case discard =>
    intro h
    rw [frameAccept_discard h]
    exact ⟨h, rfl, rfl, rfl, fun _ => rfl, rfl, rfl, rfl, rfl, rfl, rfl⟩
  case body =>
    intro h
    obtain ⟨-, hless, hflen⟩ := inv.body h
    exact ⟨frameAccept_storesAtFill p b inv.bufferForm (by rw [h]; decide), frameAccept_inBody b h (by omega)⟩
  case stored => exact fun h => frameAccept_storesAtFill p b inv.bufferForm (by rw [h]; decide)
  case incomplete =>
    intro h more
    obtain ⟨⟨hfcnt, hflen, hftype, herror⟩, hphase⟩ := frameAccept_incomplete hp (inHeader h) b more
    exact ⟨hphase, hfcnt, hflen, hftype, herror⟩
  case malformed =>
    intro h last bad
    rw [← headerPosition_eq_ofNat a.fpos (by omega)]
    exact frameAccept_malformed hp (inHeader h) b last bad
  case complete =>
    intro h last hmin hmax'
    obtain ⟨⟨hfcnt, hflen, hftype, herror⟩, hphase⟩ := frameAccept_complete hp (inHeader h) b last hmin hmax'
    exact ⟨hfcnt.trans last, hflen, hftype, herror, hphase⟩

/-- Settles O15: FEED is FrameAccept unless a frame is held. -/
theorem feedGivesTheByteToTheDecoder : Obligations.FeedGivesTheByteToTheDecoder := by
  unfold Obligations.FeedGivesTheByteToTheDecoder
  refine fun s d => ⟨fun hp inv hphase => ?_, fun held => rejectsCommand_of_effect (if_pos held)⟩
  obtain ⟨t, hexec, hsame, hcur⟩ := exec_of_effect (commandEffect_feed s.params hphase d)
  obtain ⟨hstream, hresult, hkey, hctrl⟩ := frameAccept_frame s.params d s.cur
  refine ⟨t, hexec, hsame, ?_⟩
  rw [hcur]
  exact ⟨accepts_frameAccept hp inv d, hstream, hresult, hkey, hctrl⟩

/-! ## The header of a byte string -/

theorem bigEndian_concat (bs : List Byte) (b : Byte) : bigEndian (bs ++ [b]) = bigEndian bs * 256 + b.toNat := by
  induction bs with
  | nil => simp [bigEndian]
  | cons x bs ih =>
    simp only [List.cons_append, bigEndian, ih, List.length_append, List.length_singleton, pow_succ]
    ring

theorem littleEndian_concat (bs : List Byte) (b : Byte) :
    littleEndian (bs ++ [b]) = littleEndian bs + b.toNat * 256 ^ bs.length := by
  induction bs with
  | nil => simp [littleEndian]
  | cons x bs ih =>
    simp only [List.cons_append, littleEndian, ih, List.length_cons, pow_succ]
    ring

theorem bigEndian_lt (bs : List Byte) : bigEndian bs < 256 ^ bs.length := by
  induction bs with
  | nil => simp [bigEndian]
  | cons b bs ih =>
    have hb : b.toNat + 1 ≤ 256 := b.isLt
    calc bigEndian (b :: bs)
      _ < b.toNat * 256 ^ bs.length + 256 ^ bs.length := Nat.add_lt_add_left ih _
      _ = (b.toNat + 1) * 256 ^ bs.length := (Nat.succ_mul ..).symm
      _ ≤ 256 * 256 ^ bs.length := Nat.mul_le_mul_right _ hb
      _ = 256 ^ (b :: bs).length := (pow_succ' ..).symm

theorem littleEndian_lt (bs : List Byte) : littleEndian bs < 256 ^ bs.length := by
  induction bs with
  | nil => simp [littleEndian]
  | cons b bs ih =>
    have hb := b.isLt
    rw [littleEndian, List.length_cons, pow_succ]
    omega

theorem declaredLength_lt (p : Params) (l : List Byte) : declaredLength p l < 256 ^ (lengthField p l).length := by
  unfold declaredLength
  split
  · exact bigEndian_lt _
  · exact littleEndian_lt _

theorem length_lengthField (p : Params) (l : List Byte) :
    (lengthField p l).length = min p.lenBytes (lenIndex p l.length) := by
  unfold lengthField lenIndex
  cases p.typePos <;> simp

theorem declaredLength_nil (p : Params) : declaredLength p [] = 0 := by
  have index : lenIndex p 0 = 0 := by unfold lenIndex; split <;> rfl
  have empty : (lengthField p []).length = 0 := by rw [length_lengthField, List.length_nil, index, Nat.min_zero]
  have below := declaredLength_lt p []
  rwa [empty, pow_zero, Nat.lt_one_iff] at below

/-- The header byte after the first bytes `l` belongs to the length field unless it is the type byte. -/
theorem lengthField_concat {p : Params} {l : List Byte} (h : l.length < p.hdrSize) (b : Byte) :
    lengthField p (l ++ [b]) = if l.length = typeIndex p then lengthField p l else lengthField p l ++ [b] := by
  unfold Params.hdrSize at h
  unfold lengthField typeIndex
  cases p.typePos with
  | first =>
    cases l with
    | nil => rfl
    | cons x l =>
      rw [List.length_cons] at h
      change (l ++ [b]).take p.lenBytes = l.take p.lenBytes ++ [b]
      rw [List.take_of_length_le (by simp; omega), List.take_of_length_le (by omega)]
  | last =>
    dsimp only
    split
    · next hl => rw [List.take_append_of_le_length hl.ge]
    · next hl => rw [List.take_of_length_le (by simp; omega), List.take_of_length_le (by omega)]

/-- A byte after the header does not belong to the length field. -/
theorem declaredLength_concat_of_hdrSize_le {p : Params} {l : List Byte} (h : p.hdrSize ≤ l.length) (b : Byte) :
    declaredLength p (l ++ [b]) = declaredLength p l := by
  unfold Params.hdrSize at h
  have field : lengthField p (l ++ [b]) = lengthField p l := by
    unfold lengthField
    split
    · rw [List.drop_append_of_le_length (by omega), List.take_append_of_le_length (by simp; omega)]
    · rw [List.take_append_of_le_length (by omega)]
  rw [declaredLength, declaredLength, field]

theorem hdrSize_pos (p : Params) : 0 < p.hdrSize := by
  unfold Params.hdrSize
  omega

theorem typeIndex_lt_hdrSize (p : Params) : typeIndex p < p.hdrSize := by
  unfold typeIndex Params.hdrSize
  split <;> omega

theorem typeByte_eq (p : Params) (l : List Byte) : typeByte p l = l.getD (typeIndex p) 0 := by
  unfold typeByte typeIndex
  cases p.typePos <;> rfl

theorem typeByte_concat (p : Params) (l : List Byte) (b : Byte) :
    typeByte p (l ++ [b]) = if l.length = typeIndex p then b else typeByte p l := by
  rw [typeByte_eq, typeByte_eq]
  split
  · next h => simp [← h]
  · next h =>
    rcases Nat.lt_or_gt_of_ne h with hlt | hgt
    · rw [List.getD_eq_default _ _ (by simp; omega), List.getD_eq_default _ _ hlt.le]
    · rw [List.getD_append _ _ _ _ hgt]

/-! ## A run of FEEDs -/

/-- What one FEED for each byte does to the addressed channel. -/
def feedAll (p : Params) (l : List Byte) (ch : Channel) : Channel := l.foldl (fun c b => commandEffect p (.feed b) c) ch

theorem execAll_feed (l : List Byte) (s : State) : execAll (l.map .feed) s = .next (s.onCur (feedAll s.params l)) := by
  simp only [execAll_eq, List.foldl_map]
  rfl

theorem feedAll_concat {p : Params} {l : List Byte} {ch : Channel} (h : (feedAll p l ch).fphase ≠ .held) (b : Byte) :
    feedAll p (l ++ [b]) ch = frameAccept p b (feedAll p l ch) := by
  rw [feedAll, List.foldl_append]
  exact commandEffect_feed p h b

/-- A byte stored at FCNT extends the bytes below FCNT. -/
theorem bufferBytes_frameAccept (p : Params) (b : Byte) {ch : Channel} (wf : ch.fbuf.wf = true) (h : ch.fphase ≠ .discard) :
    bufferBytes (frameAccept p b ch) (ch.fcnt.toNat + 1) = bufferBytes ch ch.fcnt.toNat ++ [b] := by
  obtain ⟨stored, others⟩ := frameAccept_storesAtFill p b wf h
  unfold bufferBytes
  rw [List.range_succ, List.map_append, List.map_singleton, stored]
  congr 1
  exact List.map_congr_left fun n hn => others n (List.mem_range.mp hn).ne

/-- From `a`, which stands before a frame, the decoder has taken the bytes `l`: FCNT, FLEN and FTYPE are what the header says
so far, and the buffer holds `l` (where its cells are in canonical form). -/
structure HasTaken (p : Params) (l : List Byte) (a c : Channel) : Prop where
  fcnt : c.fcnt.toNat = l.length
  flen : c.flen.toNat = declaredLength p l
  ftype : c.ftype = typeByte p l
  fpos : c.fpos = a.fpos + BitVec.ofNat 32 l.length
  outside : SameOutsideDecoder a c
  error : SameError a c
  buffer : a.fbuf.wf = true → c.fbuf.wf = true ∧ bufferBytes c l.length = l

theorem HasTaken.nil {p : Params} {a : Channel} (h : AtFrameStart a) : HasTaken p [] a a where
  fcnt := congrArg BitVec.toNat h.fcnt
  flen := by
    rw [h.flen, declaredLength_nil]
    rfl
  ftype := by rw [h.ftype, typeByte_eq]; rfl
  fpos := (BitVec.add_zero _).symm
  outside := .refl a
  error := .refl a
  buffer wf := ⟨wf, rfl⟩

section Taken

variable {p : Params} {l : List Byte} {a c : Channel}

/-- One more byte, whichever part of the frame it belongs to. -/
theorem HasTaken.concat {b : Byte} (h : HasTaken p l a c) (phase : c.fphase ≠ .discard)
    (fcnt : (frameAccept p b c).fcnt.toNat = c.fcnt.toNat + 1)
    (flen : (frameAccept p b c).flen.toNat = declaredLength p (l ++ [b]))
    (ftype : (frameAccept p b c).ftype = typeByte p (l ++ [b])) (error : SameError c (frameAccept p b c)) :
    HasTaken p (l ++ [b]) a (frameAccept p b c) where
  fcnt := by rw [fcnt, h.fcnt, List.length_append, List.length_singleton]
  flen := flen
  ftype := ftype
  fpos := by
    rw [frameAccept_fpos, h.fpos, List.length_append, List.length_singleton, BitVec.ofNat_add, BitVec.add_assoc]
    rfl
  outside := h.outside.trans (frameAccept_frame p b c)
  error := h.error.trans error
  buffer wf := by
    obtain ⟨wfc, bytes⟩ := h.buffer wf
    refine ⟨?_, ?_⟩
    · rw [frameAccept_fbuf, if_neg phase]
      exact Memory.wf_write wfc ..
    · have stored := bufferBytes_frameAccept p b wfc phase
      rw [h.fcnt, bytes] at stored
      rwa [List.length_append]

/-- Inside a header FrameAccept's premise holds. -/
theorem HasTaken.inHeader (h : HasTaken p l a c) (phase : c.fphase = .hdr) (hl : l.length < p.hdrSize) : InHeader p c where
  fphase := phase
  fill := h.fcnt ▸ hl
  length := by
    rw [h.flen, h.fcnt]
    refine (declaredLength_lt p l).trans_le (Nat.pow_le_pow_right (by decide) ?_)
    rw [length_lengthField]
    exact Nat.min_le_right ..

/-- FLEN after the next header byte is the declared length read so far (41_frame.md R141). -/
theorem HasTaken.lengthAfter_eq (h : HasTaken p l a c) (hl : l.length < p.hdrSize) (b : Byte) :
    lengthAfter p b c = declaredLength p (l ++ [b]) := by
  unfold lengthAfter declaredLength
  rw [h.fcnt, h.flen, declaredLength, lengthField_concat hl]
  split
  · rfl
  · next notType =>
    have index : (lengthField p l).length = lenIndex p l.length := by
      rw [length_lengthField]
      exact Nat.min_eq_right (lenIndex_succ hl notType).1.le
    cases p.lenOrder with
    | be => exact (bigEndian_concat ..).symm
    | le => dsimp only; rw [littleEndian_concat, index]

theorem HasTaken.typeAfter_eq (h : HasTaken p l a c) (b : Byte) : typeAfter p b c = typeByte p (l ++ [b]) := by
  rw [typeAfter, h.fcnt, h.ftype, typeByte_concat]

/-- One more header byte, incomplete or valid. -/
theorem HasTaken.concat_header {b : Byte} (h : HasTaken p l a c) (phase : c.fphase = .hdr) (hl : l.length < p.hdrSize)
    (takes : TakesHeaderByte p b c (frameAccept p b c)) : HasTaken p (l ++ [b]) a (frameAccept p b c) :=
  h.concat (by rw [phase]; decide) takes.fcnt (takes.flen.trans (h.lengthAfter_eq hl b))
    (takes.ftype.trans (h.typeAfter_eq b)) takes.error

end Taken

section Runs

variable {p : Params} {a : Channel} (hp : p.wf = true) (start : AtFrameStart a)
include hp start

/-- Before the header's last byte: the decoder is in HDR. -/
theorem feedAll_beforeHeaderEnd {l : List Byte} (hl : l.length < p.hdrSize) :
    HasTaken p l a (feedAll p l a) ∧ (feedAll p l a).fphase = .hdr := by
  induction l using List.reverseRecOn with
  | nil => exact ⟨.nil start, start.fphase⟩
  | append_singleton l b ih =>
    rw [List.length_append, List.length_singleton] at hl
    obtain ⟨taken, hphase⟩ := ih (by omega)
    have inside : l.length < p.hdrSize := by omega
    obtain ⟨takes, hphase'⟩ := frameAccept_incomplete hp (taken.inHeader hphase inside) b (by rw [taken.fcnt]; exact hl)
    rw [feedAll_concat (by rw [hphase]; decide)]
    exact ⟨taken.concat_header hphase inside takes, hphase'⟩

/-- A header whose declared length is out of bounds is malformed (41_frame.md R142): recorded, and the decoder in DISCARD. -/
theorem feedAll_malformedHeader {h : List Byte} (hh : h.length = p.hdrSize)
    (bad : declaredLength p h < p.hdrSize ∨ p.maxFrame < declaredLength p h) :
    (feedAll p h a).fphase = .discard ∧ (feedAll p h a).fcnt = 0 ∧ (feedAll p h a).flen = 0 ∧ (feedAll p h a).ftype = 0 ∧
      Recorded .malformedLen (BitVec.ofNat 32 (declaredLength p h)) a.fpos (typeByte p h) a (feedAll p h a) := by
  obtain rfl | ⟨l, b, rfl⟩ := h.eq_nil_or_concat'
  · exact absurd hh (hdrSize_pos p).ne
  rw [List.length_append, List.length_singleton] at hh
  obtain ⟨taken, hphase⟩ := feedAll_beforeHeaderEnd hp start (l := l) (by omega)
  have inHeader := taken.inHeader hphase (by omega)
  have hlength := taken.lengthAfter_eq (by omega) b
  rw [← hlength] at bad
  obtain ⟨hdiscard, hfcnt, hflen, hftype, hrecorded⟩ :=
    frameAccept_malformed hp inHeader b (by rw [taken.fcnt]; exact hh) bad
  have position : (feedAll p l a).fpos + 1 - BitVec.ofNat 32 p.hdrSize = a.fpos := by
    rw [taken.fpos, ← hh, BitVec.ofNat_add, BitVec.add_assoc]
    exact BitVec.add_sub_cancel ..
  rw [position, hlength, taken.typeAfter_eq] at hrecorded
  rw [feedAll_concat (by rw [hphase]; decide)]
  exact ⟨hdiscard, hfcnt, hflen, hftype, hrecorded.of_sameError taken.error⟩

/-- From the header's last byte to the frame's: the decoder is in BODY, and the last byte makes the frame held. -/
theorem feedAll_frame {l : List Byte} (hl : p.hdrSize ≤ l.length) (hlen : l.length ≤ declaredLength p l)
    (hmax : declaredLength p l ≤ p.maxFrame) :
    HasTaken p l a (feedAll p l a) ∧
      (feedAll p l a).fphase = if l.length = declaredLength p l then .held else .body := by
  obtain ⟨-, -, -, -, hcap, -⟩ := bounds_of_wf hp
  induction l using List.reverseRecOn with
  | nil => exact absurd hl (Nat.not_le_of_gt (hdrSize_pos p))
  | append_singleton l b ih =>
    rw [List.length_append, List.length_singleton] at hl hlen ⊢
    rcases Nat.lt_or_ge l.length p.hdrSize with inside | after
    · have last : l.length + 1 = p.hdrSize := by omega
      obtain ⟨taken, hphase⟩ := feedAll_beforeHeaderEnd hp start inside
      have hlength := taken.lengthAfter_eq inside b
      obtain ⟨takes, hphase'⟩ := frameAccept_complete hp (taken.inHeader hphase inside) b (by rw [taken.fcnt]; exact last)
        (by omega) (by omega)
      rw [feedAll_concat (by rw [hphase]; decide)]
      refine ⟨taken.concat_header hphase inside takes, ?_⟩
      rw [hphase', hlength, last]
      simp only [eq_comm]
    · have hsame := declaredLength_concat_of_hdrSize_le after b
      rw [hsame] at hlen hmax ⊢
      obtain ⟨taken, hphase⟩ := ih after (by omega) hmax
      rw [if_neg (by omega)] at hphase
      obtain ⟨hfcnt, hflen, hftype, herror, hphase'⟩ :=
        frameAccept_inBody (p := p) b hphase (by rw [taken.fcnt]; omega)
      rw [feedAll_concat (by rw [hphase]; decide)]
      refine ⟨taken.concat (by rw [hphase]; decide) hfcnt ?_ ?_ herror, ?_⟩
      · rw [hflen, taken.flen, hsame]
      · rw [hftype, taken.ftype, typeByte_concat, if_neg]
        have := typeIndex_lt_hdrSize p
        omega
      · rw [hphase', taken.fcnt, taken.flen]

end Runs

/-- Settles O16: the header's bytes but the last leave HDR; the last finds the length malformed or valid. -/
theorem headerGivesTheDeclaredLength : Obligations.HeaderGivesTheDeclaredLength := by
  unfold Obligations.HeaderGivesTheDeclaredLength
  intro s h hp start hh
  have width : (lengthField s.params h).length ≤ s.params.lenBytes := by
    rw [length_lengthField]
    exact Nat.min_le_left ..
  refine ⟨(declaredLength_lt s.params h).trans_le (Nat.pow_le_pow_right (by decide) width), _, execAll_feed h s, ?_⟩
  rw [State.cur_onCur]
  refine ⟨fun bad => feedAll_malformedHeader hp start hh bad, fun hmin hmax => ?_⟩
  obtain ⟨taken, hphase⟩ := feedAll_frame hp start hh.ge (hh ▸ hmin) hmax
  rw [hh] at hphase
  refine ⟨taken.flen, taken.ftype, taken.error, ?_⟩
  simpa only [eq_comm] using hphase

/-- Settles O17: the whole frame taken, so FCNT is FLEN. -/
theorem wholeFrameIsHeld : Obligations.WholeFrameIsHeld := by
  unfold Obligations.WholeFrameIsHeld
  intro s f hp start wf ⟨hmin, hmax, hlen⟩
  obtain ⟨taken, hphase⟩ := feedAll_frame hp start hmin hlen.ge (hlen ▸ hmax)
  rw [if_pos hlen.symm] at hphase
  refine ⟨_, execAll_feed f s, ?_⟩
  rw [State.cur_onCur]
  have ready : frameReady (feedAll s.params f s.cur) = true := decide_eq_true hphase
  refine ⟨hphase, taken.flen.trans hlen, taken.ftype, (taken.buffer wf).2, taken.fcnt, taken.error,
    (statusWord_flags _).1.trans ready, fun enabled => ?_⟩
  exact (irq_eq_true_iff _).mpr (.inl ⟨taken.outside.ctrl.ieFrame.trans enabled, hphase⟩)

/-! ## DISCARD -/

/-- `n` bytes counted in FPOS, and nothing else. -/
def countBytes (n : Nat) (ch : Channel) : Channel := { ch with fpos := ch.fpos + BitVec.ofNat 32 n }

theorem countBytes_countBytes (m n : Nat) (ch : Channel) : countBytes m (countBytes n ch) = countBytes (n + m) ch := by
  simp only [countBytes, BitVec.ofNat_add, BitVec.add_assoc]

theorem countBytes_zero (ch : Channel) : ch = countBytes 0 ch := by
  rw [countBytes, BitVec.add_zero]

theorem countBytes_frame (n : Nat) (ch : Channel) : SameOutsideDecoder ch (countBytes n ch) :=
  ⟨⟨rfl, rfl, rfl, rfl, rfl⟩, ⟨rfl, rfl⟩, ⟨rfl, rfl⟩, ⟨rfl, rfl⟩⟩

/-- In DISCARD counting is all there is to dropping a byte, whatever the cipher did beside it. -/
theorem dropsBytes_countBytes {a b : Channel} (discard : a.fphase = .discard) (h : SameOutsideCipher a b)
    (herror : SameError a b) (n : Nat) : DropsBytes n a (countBytes n b) where
  fphase := h.decoder.fphase.trans discard
  fpos := by
    change (b.fpos + BitVec.ofNat 32 n).toNat = _
    rw [h.decoder.fpos, BitVec.toNat_add, BitVec.toNat_ofNat, Nat.add_mod_mod]
  fcnt := h.decoder.fcnt
  flen := h.decoder.flen
  ftype := h.decoder.ftype
  buffer := .of_eq h.buffer
  error := ⟨herror.err, herror.errOvf, herror.errcode, herror.errInfo, herror.errPos, herror.errType⟩

theorem feedAll_discard {p : Params} {ch : Channel} (h : ch.fphase = .discard) (l : List Byte) :
    feedAll p l ch = countBytes l.length ch := by
  induction l using List.reverseRecOn with
  | nil => exact countBytes_zero ch
  | append_singleton l b ih =>
    have hphase : (feedAll p l ch).fphase = .discard := ih ▸ h
    rw [feedAll_concat (by rw [hphase]; decide), frameAccept_discard hphase, ih, List.length_append, List.length_singleton,
      ← countBytes_countBytes]
    rfl

/-- The generator's steps on a byte string. -/
def prgaAll (l : List Byte) (ch : Channel) : Channel := l.foldl (fun c d => prgaStep d c) ch

theorem prgaAll_concat (l : List Byte) (d : Byte) (ch : Channel) : prgaAll (l ++ [d]) ch = prgaStep d (prgaAll l ch) :=
  List.foldl_append

theorem prgaAll_frame (l : List Byte) (ch : Channel) :
    SameOutsideCipher ch (prgaAll l ch) ∧ SameError ch (prgaAll l ch) ∧ (prgaAll l ch).cphase = ch.cphase := by
  induction l using List.reverseRecOn with
  | nil => exact ⟨.refl ch, .refl ch, rfl⟩
  | append_singleton l d ih =>
    obtain ⟨outside, error, phase⟩ := ih
    obtain ⟨outside', error', phase'⟩ := prgaStep_frame d (prgaAll l ch)
    rw [prgaAll_concat]
    exact ⟨outside.trans outside', error.trans error', phase'.trans phase⟩

/-- In phase READY a run of DECs is a run of the generator. -/
theorem execAll_dec {s : State} (ready : s.cur.cphase = .ready) (l : List Byte) :
    execAll (l.map .dec) s = .next (s.onCur (prgaAll l)) := by
  have effect : (l.map Instr.dec).foldl (fun c i => commandEffect s.params i c) s.cur = prgaAll l s.cur := by
    induction l using List.reverseRecOn with
    | nil => rfl
    | append_singleton l d ih =>
      obtain ⟨-, -, phase⟩ := prgaAll_frame l s.cur
      rw [List.map_append, List.foldl_append, ih, prgaAll_concat]
      exact commandEffect_dec_ready s.params (phase.trans ready) d
  rw [execAll_eq]
  exact congrArg _ (State.onCur_congr effect)

/-- In phase READY and DISCARD a DECF is a step of the generator, and the plaintext byte is only counted. -/
theorem commandEffect_decf_discard (p : Params) {ch : Channel} (ready : ch.cphase = .ready) (discard : ch.fphase = .discard)
    (d : Byte) : commandEffect p (.decf d) ch = countBytes 1 (prgaStep d ch) := by
  dsimp only [commandEffect]
  rw [if_neg (not_not.mpr ready), if_neg (by rw [discard]; decide)]
  exact frameAccept_discard discard

theorem execAll_decf_discard {s : State} (ready : s.cur.cphase = .ready) (discard : s.cur.fphase = .discard)
    (l : List Byte) : execAll (l.map .decf) s = .next (s.onCur fun ch => countBytes l.length (prgaAll l ch)) := by
  have effect : (l.map Instr.decf).foldl (fun c i => commandEffect s.params i c) s.cur =
      countBytes l.length (prgaAll l s.cur) := by
    induction l using List.reverseRecOn with
    | nil => exact countBytes_zero _
    | append_singleton l d ih =>
      obtain ⟨outside, -, phase⟩ := prgaAll_frame l s.cur
      rw [List.map_append, List.foldl_append, ih, prgaAll_concat, List.length_append, List.length_singleton,
        ← countBytes_countBytes]
      exact commandEffect_decf_discard s.params (ch := countBytes l.length (prgaAll l s.cur)) (phase.trans ready)
        (outside.decoder.fphase.trans discard) d
  rw [execAll_eq]
  exact congrArg _ (State.onCur_congr effect)

/-- FRST, CONN and CLOSE leave DISCARD; no other command does. -/
theorem commandEffect_fphase_of_discard (p : Params) (i : Instr) {ch : Channel} (discard : ch.fphase = .discard) :
    (commandEffect p i ch).fphase = if i = .frst ∨ i = .conn ∨ i = .close then .hdr else .discard := by
  have rejected (code : ErrCode) (info : Word) : (reject code info ch).fphase = .discard :=
    (recordError_fphase ..).trans discard
  have notHeld : ch.fphase ≠ .held := by rw [discard]; decide
  cases i with
  | frst | conn | close => rfl
  | nop => exact discard
  | cinit =>
    dsimp only [commandEffect]
    split
    · exact (ksaInit_frame ch).1.decoder.fphase.trans discard
    · exact (keylenFailure_spec ch).1.decoder.fphase.trans discard
  | kstep =>
    dsimp only [commandEffect]
    split
    · exact (ksaStep_frame ch).1.decoder.fphase.trans discard
    · exact rejected ..
  | krun =>
    dsimp only [commandEffect]
    split
    · exact (ksaLoop_frame 256 ch).1.decoder.fphase.trans discard
    · exact rejected ..
  | dec d =>
    dsimp only [commandEffect]
    split
    · exact (prgaStep_frame d ch).1.decoder.fphase.trans discard
    · exact rejected ..
  | decf d =>
    by_cases ready : ch.cphase = .ready
    · rw [commandEffect_decf_discard p ready discard]
      exact discard
    · dsimp only [commandEffect]
      rw [if_pos ready]
      exact rejected ..
  | feed d =>
    rw [commandEffect_feed p notHeld, frameAccept_discard discard]
    exact discard
  | fack =>
    dsimp only [commandEffect]
    rw [if_neg notHeld]
    exact rejected ..

/-- Settles O20: in DISCARD a run of FEEDs only counts, and a run of DECFs counts beside the run of DECs. -/
theorem discardDropsEveryByte : Obligations.DiscardDropsEveryByte := by
  unfold Obligations.DiscardDropsEveryByte
  refine fun s bs discard => ⟨?_, fun ready => ?_, fun i t h => ?_⟩
  · refine ⟨_, execAll_feed bs s, s.onCur_sameBut _, ?_⟩
    rw [State.cur_onCur, feedAll_discard discard]
    obtain ⟨hstream, hresult, hkey, hctrl⟩ := countBytes_frame bs.length s.cur
    exact ⟨dropsBytes_countBytes discard (.refl _) (.refl _) _, hstream, hresult, hkey, hctrl⟩
  · refine ⟨_, _, execAll_decf_discard ready discard bs, execAll_dec ready bs, s.onCur_sameBut _, ?_⟩
    rw [State.cur_onCur, State.cur_onCur]
    obtain ⟨outside, error, -⟩ := prgaAll_frame bs s.cur
    obtain ⟨hstream, hresult, -, -⟩ := countBytes_frame bs.length (prgaAll bs s.cur)
    exact ⟨dropsBytes_countBytes discard outside error _, hstream, hresult, ⟨outside.key.key, outside.key.klen⟩,
      ⟨outside.ctrl.ieFrame, outside.ctrl.ieErr⟩⟩
  · rw [exec_cur h]
    exact commandEffect_fphase_of_discard s.params i discard

end Sys2Proof.Machine

/-! # The connection

What NOP, DECF, CONN and CLOSE do to the addressed channel (42_connection.md R170 to R173). -/

namespace Sys2Proof.Machine

/-! ## A command that changes nothing -/

/-- A command with no effect on the addressed channel answers the same state. -/
theorem exec_eq_self {i : Instr} {s : State} (h : commandEffect s.params i s.cur = s.cur) : exec i s = .next s := by
  rw [exec_eq]
  exact congrArg _ ((State.onCur_congr h).trans s.onCur_id)

/-- Settles O23: NOP has no effect on the addressed channel. -/
theorem nopChangesNothing : Obligations.NopChangesNothing := by
  unfold Obligations.NopChangesNothing
  exact fun s => exec_eq_self rfl

/-! ## Steps one after another -/

theorem SameKey.trans {a b c : Channel} (h : SameKey a b) (k : SameKey b c) : SameKey a c :=
  ⟨k.key.trans h.key, k.klen.trans h.klen⟩

theorem SameCtrl.trans {a b c : Channel} (h : SameCtrl a b) (k : SameCtrl b c) : SameCtrl a c :=
  ⟨k.ieFrame.trans h.ieFrame, k.ieErr.trans h.ieErr⟩

/-- A recorded error stays recorded over a step that keeps the error state. -/
theorem Recorded.trans_sameError {code : ErrCode} {info pos : Word} {type : Byte} {a b c : Channel}
    (h : Recorded code info pos type a b) (same : SameError b c) : Recorded code info pos type a c := by
  unfold Recorded at h ⊢
  rwa [same.err, same.errOvf, same.errcode, same.errInfo, same.errPos, same.errType]

/-! ## DECF -/

/-- In phase READY with no frame held DECF is the generator's step, then FrameAccept of its plaintext byte. -/
theorem commandEffect_decf_accepted (p : Params) {ch : Channel} (ready : ch.cphase = .ready) (free : ch.fphase ≠ .held)
    (d : Byte) : commandEffect p (.decf d) ch = frameAccept p (prgaStep d ch).resultPt (prgaStep d ch) :=
  (if_neg (not_not.mpr ready)).trans (if_neg free)

/-- DECF checks the cipher phase first. -/
theorem rejectsCommand_decf_badPhase {s : State} (h : s.cur.cphase ≠ .ready) (d : Byte) :
    RejectsCommand (.decf d) .badPhase s :=
  rejectsCommand_of_effect (if_pos h)

theorem rejectsCommand_decf_frameHeld {s : State} (ready : s.cur.cphase = .ready) (held : s.cur.fphase = .held) (d : Byte) :
    RejectsCommand (.decf d) .frameHeld s :=
  rejectsCommand_of_effect ((if_neg (not_not.mpr ready)).trans (if_pos held))

/-- An accepted DECF answers the state that DEC, then FEED of the plaintext byte, answer. -/
theorem exec_decf_eq_exec_feed {s u : State} {d : Byte} (ready : s.cur.cphase = .ready) (free : s.cur.fphase ≠ .held)
    (hdec : exec (.dec d) s = .next u) : exec (.decf d) s = exec (.feed u.cur.resultPt) u := by
  have hu : u.cur = prgaStep d s.cur := (exec_cur hdec).trans (commandEffect_dec_ready s.params ready d)
  rw [exec_eq, exec_eq, hu, exec_next hdec, State.onCur_params, State.onCur_onCur]
  refine congrArg _ (State.onCur_congr ?_)
  rw [commandEffect_decf_accepted s.params ready free, commandEffect_dec_ready s.params ready,
    commandEffect_feed s.params (ch := prgaStep d s.cur) free]

/-- Settles O24: the accepted form is DEC then FEED; the two rejections follow the order of the checks. -/
theorem decfIsDecThenFeedOfThePlaintext : Obligations.DecfIsDecThenFeedOfThePlaintext := by
  unfold Obligations.DecfIsDecThenFeedOfThePlaintext
  refine fun s d => ⟨fun ready free => ?_, fun h => rejectsCommand_decf_badPhase h d,
    fun ready held => rejectsCommand_decf_frameHeld ready held d⟩
  obtain ⟨u, hdec, -, hu⟩ := exec_of_effect (commandEffect_dec_ready s.params ready d)
  obtain ⟨t, hdecf, hsame, ht⟩ := exec_of_effect (commandEffect_decf_accepted s.params ready free d)
  rw [← hu] at ht
  obtain ⟨outside, -, -⟩ := prgaStep_frame d s.cur
  rw [← hu] at outside
  obtain ⟨hstream, hresult, hkey, hctrl⟩ := frameAccept_frame s.params u.cur.resultPt u.cur
  rw [← ht] at hstream hresult hkey hctrl
  exact ⟨u, t, hdec, (exec_decf_eq_exec_feed ready free hdec).symm.trans hdecf, hdecf, hsame, hstream, hresult,
    outside.key.trans hkey, outside.ctrl.trans hctrl, outside.decoder.fphase ▸ free⟩

/-! ## Resetting the decoder after a cipher operation

CONN and CLOSE are each a cipher operation followed by the decoder's reset. -/

/-- From `a` an operation on the cipher led to `b`, and the decoder's reset to `c`: the stream and the error state are `b`'s,
the decoder stands before a frame at position 0, and the rest is `a`'s. -/
structure EndsWithReset (a b c : Channel) : Prop where
  stream : SameStream b c
  error : SameError b c
  start : AtFrameStart c
  fpos : c.fpos = 0
  buffer : SameBuffer a c
  result : SameResult a c
  key : SameKey a c
  ctrl : SameCtrl a c

theorem endsWithReset_frameReset {a b : Channel} (outside : SameOutsideCipher a b) (result : SameResult a b) :
    EndsWithReset a b (frameReset b) := by
  obtain ⟨kept, herror, hbuffer, hfpos, hstart⟩ := frameReset_frame b
  exact ⟨kept.stream, herror, hstart, hfpos, .of_eq (hbuffer.trans outside.buffer), result.trans kept.result,
    outside.key.trans kept.key, outside.ctrl.trans kept.ctrl⟩

/-! ## CONN -/

theorem commandEffect_conn_usable (p : Params) {ch : Channel} (h : 1 ≤ ch.klen.toNat ∧ ch.klen.toNat ≤ 256) :
    commandEffect p .conn ch = frameReset (ksaRun (ksaInit ch)) :=
  congrArg frameReset (if_pos ((klenUsable_iff _).mpr h))

/-- With an unusable KLEN CONN is CINIT's failure, then the decoder's reset. -/
theorem commandEffect_conn_unusable (p : Params) {ch : Channel} (h : ch.klen.toNat < 1 ∨ 256 < ch.klen.toNat) :
    commandEffect p .conn ch = frameReset (keylenFailure ch) :=
  congrArg frameReset <| if_neg fun usable => by
    have := (klenUsable_iff _).mp usable
    omega

/-- The whole key schedule: READY at position 0, and nothing outside the stream touched. -/
theorem ksaRun_ksaInit_spec (ch : Channel) :
    SameOutsideCipher ch (ksaRun (ksaInit ch)) ∧ SameResult ch (ksaRun (ksaInit ch)) ∧
      SameError ch (ksaRun (ksaInit ch)) ∧ (ksaRun (ksaInit ch)).cphase = .ready ∧ (ksaRun (ksaInit ch)).i = 0 ∧
      (ksaRun (ksaInit ch)).j = 0 ∧ (ksaRun (ksaInit ch)).count = 0 := by
  obtain ⟨-, -, -, hcount, hksa⟩ := ksaInit_stream ch
  obtain ⟨outside, result, error⟩ := ksaInit_frame ch
  obtain ⟨outside', result', error', hcount'⟩ := ksaLoop_frame 256 (ksaInit ch)
  obtain ⟨-, hready, hi, hj⟩ := ksaRun_eq_iterate hksa
  exact ⟨outside.trans outside', result.trans result', error.trans error', hready, hi, hj, hcount'.trans hcount⟩

/-- With a usable KLEN CONN is CINIT, KRUN and FRST in one (42_connection.md R172). -/
theorem exec_conn_eq_execAll {s : State} (h : 1 ≤ s.cur.klen.toNat ∧ s.cur.klen.toNat ≤ 256) :
    exec .conn s = execAll [.cinit, .krun, .frst] s := by
  obtain ⟨-, -, -, -, hksa⟩ := ksaInit_stream s.cur
  have effects : [Instr.cinit, .krun, .frst].foldl (fun c i => commandEffect s.params i c) s.cur =
      frameReset (ksaRun (ksaInit s.cur)) := by
    rw [List.foldl_cons, commandEffect_cinit_usable s.params h, List.foldl_cons, commandEffect_krun_ksa s.params hksa]
    rfl
  rw [exec_eq, execAll_eq]
  exact congrArg _ (State.onCur_congr ((commandEffect_conn_usable s.params h).trans effects.symm))

/-- Settles O25, by whether KLEN is usable: the whole schedule, or the cipher cleared and KEYLEN recorded; then the decoder's
reset. -/
theorem connStartsAConnection : Obligations.ConnStartsAConnection := by
  unfold Obligations.ConnStartsAConnection
  refine fun s => ⟨fun husable => ?_, fun hunusable => ?_⟩
  · obtain ⟨t, hexec, hsame, hcur⟩ := exec_of_effect (commandEffect_conn_usable s.params husable)
    obtain ⟨outside, result, herror, hready, hi, hj, hcount⟩ := ksaRun_ksaInit_spec s.cur
    obtain ⟨hstream, herror', hstart, hfpos, hbuffer, hresult, hkey, hctrl⟩ := endsWithReset_frameReset outside result
    refine ⟨t, hexec, (exec_conn_eq_execAll husable).symm.trans hexec, hsame, ?_⟩
    rw [hcur]
    exact ⟨hstream.cphase.trans hready, hstream.i.trans hi, hstream.j.trans hj, hstream.count.trans hcount, hstart, hfpos,
      hbuffer, hresult, hkey, hctrl, herror.trans herror'⟩
  · obtain ⟨t, hexec, hsame, hcur⟩ := exec_of_effect (commandEffect_conn_unusable s.params hunusable)
    obtain ⟨outside, result, hsbox, hi, hj, hcount, hphase, hrecorded⟩ := keylenFailure_spec s.cur
    obtain ⟨hstream, herror, hstart, hfpos, hbuffer, hresult, hkey, hctrl⟩ := endsWithReset_frameReset outside result
    refine ⟨t, hexec, hsame, ?_⟩
    rw [hcur, BitVec.ofNat_toNat]
    exact ⟨hstream.sbox.trans hsbox, hstream.cphase.trans hphase, hstream.i.trans hi, hstream.j.trans hj,
      hstream.count.trans hcount, hstart, hfpos, hbuffer, hresult, hkey, hctrl, hrecorded.trans_sameError herror⟩

/-! ## CLOSE -/

theorem cipherClear_stream (ch : Channel) :
    (cipherClear ch).cphase = .unkeyed ∧ (cipherClear ch).i = 0 ∧ (cipherClear ch).j = 0 ∧ (cipherClear ch).count = 0 :=
  ⟨rfl, rfl, rfl, rfl⟩

/-- What CLOSE writes does not depend on what it overwrites. -/
theorem commandEffect_close_close (p : Params) (ch : Channel) :
    commandEffect p .close (commandEffect p .close ch) = commandEffect p .close ch := rfl

/-- After CLOSE another CLOSE changes nothing. -/
theorem exec_close_again {s t : State} (h : exec .close s = .next t) : exec .close t = .next t := by
  apply exec_eq_self
  rw [exec_cur h]
  exact commandEffect_close_close ..

theorem rejectsCommand_dec {s : State} (h : s.cur.cphase ≠ .ready) (d : Byte) : RejectsCommand (.dec d) .badPhase s :=
  rejectsCommand_of_effect (if_neg h)

/-- Settles O27: the cipher cleared and the decoder reset, which leaves phase UNKEYED, where DEC and DECF are rejected. -/
theorem closeEndsTheConnection : Obligations.CloseEndsTheConnection := by
  unfold Obligations.CloseEndsTheConnection
  intro s
  obtain ⟨t, hexec, hsame, hcur⟩ :=
    exec_of_effect (i := .close) (s := s) (ch := frameReset (cipherClear s.cur)) rfl
  obtain ⟨outside, result, herror, hsbox⟩ := cipherClear_frame s.cur
  obtain ⟨hphase, hi, hj, hcount⟩ := cipherClear_stream s.cur
  obtain ⟨hstream, herror', hstart, hfpos, hbuffer, hresult, hkey, hctrl⟩ := endsWithReset_frameReset outside result
  have hunkeyed : t.cur.cphase = .unkeyed := by rw [hcur, hstream.cphase, hphase]
  have notReady : t.cur.cphase ≠ .ready := by rw [hunkeyed]; decide
  have rejected (d : Byte) : RejectsCommand (.dec d) .badPhase t ∧ RejectsCommand (.decf d) .badPhase t :=
    ⟨rejectsCommand_dec notReady d, rejectsCommand_decf_badPhase notReady d⟩
  refine ⟨t, hexec, hsame, ?_⟩
  rw [hcur]
  exact ⟨hstream.sbox.trans hsbox, hstream.cphase.trans hphase, hstream.i.trans hi, hstream.j.trans hj,
    hstream.count.trans hcount, hstart, hfpos, hbuffer, hresult, hkey, hctrl, herror.trans herror',
    exec_close_again hexec, rejected⟩

end Sys2Proof.Machine

/-! # Errors

What a transaction can do to a channel's error state: nothing, or record one error (60_exceptions.md R192); only a write of 1 to
ERRCLR clears it (10_state.md R43). -/

namespace Sys2Proof.Machine

/-! ## Recording at most one error -/

/-- The error state of `b` is that of `a`, or that of `a` after recording one error. -/
def RecordsAtMostOne (a b : Channel) : Prop :=
  SameError a b ∨ ∃ code info pos type, Recorded code info pos type a b

theorem SameError.recordsAtMostOne {a b : Channel} (h : SameError a b) : RecordsAtMostOne a b := .inl h

theorem Recorded.recordsAtMostOne {code : ErrCode} {info pos : Word} {type : Byte} {a b : Channel}
    (h : Recorded code info pos type a b) : RecordsAtMostOne a b := .inr ⟨code, info, pos, type, h⟩

theorem recordsAtMostOne_recordError (code : ErrCode) (info pos : Word) (type : Byte) (ch : Channel) :
    RecordsAtMostOne ch (recordError code info pos type ch) := (recordError_recorded ..).recordsAtMostOne

theorem recordsAtMostOne_reject (code : ErrCode) (info : Word) (ch : Channel) :
    RecordsAtMostOne ch (reject code info ch) := recordsAtMostOne_recordError ..

theorem RecordsAtMostOne.of_sameError {a b c : Channel} (same : SameError a b) (h : RecordsAtMostOne b c) :
    RecordsAtMostOne a c :=
  h.imp same.trans fun ⟨code, info, pos, type, h⟩ => ⟨code, info, pos, type, h.of_sameError same⟩

theorem RecordsAtMostOne.trans_sameError {a b c : Channel} (h : RecordsAtMostOne a b) (same : SameError b c) :
    RecordsAtMostOne a c :=
  h.imp (·.trans same) fun ⟨code, info, pos, type, h⟩ => ⟨code, info, pos, type, h.trans_sameError same⟩

/-- An operation that takes one of two forms, each of which records at most one error. -/
theorem RecordsAtMostOne.ite {P : Prop} [Decidable P] {a b c : Channel} (h : RecordsAtMostOne a b)
    (k : RecordsAtMostOne a c) : RecordsAtMostOne a (if P then b else c) := by
  split
  · exact h
  · exact k

/-- An error already recorded is kept whole, and ERR_OVF with it (60_exceptions.md R192). -/
theorem RecordsAtMostOne.keepsFirstError {a b : Channel} (h : RecordsAtMostOne a b) (err : a.err = true) :
    b.err = true ∧ b.errcode = a.errcode ∧ b.errInfo = a.errInfo ∧ b.errPos = a.errPos ∧ b.errType = a.errType ∧
      (a.errOvf = true → b.errOvf = true) := by
  rcases h with same | ⟨code, info, pos, type, hset, -, hlater⟩
  · exact ⟨same.err.trans err, same.errcode, same.errInfo, same.errPos, same.errType, same.errOvf.trans⟩
  · obtain ⟨hcode, hinfo, hpos, htype, hovf⟩ := hlater err
    exact ⟨hset, hcode, hinfo, hpos, htype, fun _ => hovf⟩

/-! ## Commands -/

theorem recordsAtMostOne_keylenFailure (ch : Channel) : RecordsAtMostOne ch (keylenFailure ch) := by
  obtain ⟨-, -, -, -, -, -, -, hrecorded⟩ := keylenFailure_spec ch
  exact hrecorded.recordsAtMostOne

theorem recordsAtMostOne_headerCheck (p : Params) (ch : Channel) : RecordsAtMostOne ch (headerCheck p ch) := by
  rcases headerCheck_cases p ch with ⟨-, e⟩ | ⟨-, -, e⟩ | ⟨-, -, e⟩ <;> rw [e]
  · exact .inl (.refl ch)
  · obtain ⟨-, -, -, -, -, -, -, hrecorded⟩ := malformedHeader_spec p ch
    exact hrecorded.recordsAtMostOne
  · exact .inl ⟨rfl, rfl, rfl, rfl, rfl, rfl⟩

/-- FrameAccept records an error only where the header check does. -/
theorem recordsAtMostOne_frameAccept (p : Params) (b : Byte) (ch : Channel) :
    RecordsAtMostOne ch (frameAccept p b ch) := by
  have counted : SameError ch { ch with fpos := ch.fpos + 1 } := ⟨rfl, rfl, rfl, rfl, rfl, rfl⟩
  have stored := counted.trans (storeFrameByte_frame b { ch with fpos := ch.fpos + 1 }).2
  have body : SameError ch (bodyCheck (storeFrameByte b { ch with fpos := ch.fpos + 1 })) := by
    rw [bodyCheck_eq]
    exact stored.trans ⟨rfl, rfl, rfl, rfl, rfl, rfl⟩
  cases h : ch.fphase with
  | discard => rw [frameAccept_discard h]; exact .inl counted
  | hdr =>
    rw [frameAccept_hdr h]
    exact (recordsAtMostOne_headerCheck p _).of_sameError (stored.trans (takeHeaderByte_frame ..).2)
  | body => rw [frameAccept_body h]; exact .inl body
  | held => rw [frameAccept_held h]; exact .inl body

/-- Every command records at most one error. -/
theorem recordsAtMostOne_commandEffect (p : Params) (i : Instr) (ch : Channel) :
    RecordsAtMostOne ch (commandEffect p i ch) := by
  have reset (x : Channel) : SameError x (frameReset x) := by
    obtain ⟨-, herror, -⟩ := frameReset_frame x
    exact herror
  cases i with
  | nop => exact .inl (.refl ch)
  | cinit =>
    obtain ⟨-, -, herror⟩ := ksaInit_frame ch
    exact .ite (.inl herror) (recordsAtMostOne_keylenFailure ch)
  | kstep =>
    obtain ⟨-, -, herror, -⟩ := ksaStep_frame ch
    exact .ite (.inl herror) (recordsAtMostOne_reject ..)
  | krun =>
    obtain ⟨-, -, herror, -⟩ := ksaLoop_frame 256 ch
    exact .ite (.inl herror) (recordsAtMostOne_reject ..)
  | dec d =>
    obtain ⟨-, herror, -⟩ := prgaStep_frame d ch
    exact .ite (.inl herror) (recordsAtMostOne_reject ..)
  | decf d =>
    obtain ⟨-, herror, -⟩ := prgaStep_frame d ch
    exact .ite (recordsAtMostOne_reject ..)
      (.ite (recordsAtMostOne_reject ..) ((recordsAtMostOne_frameAccept ..).of_sameError herror))
  | feed d => exact .ite (recordsAtMostOne_reject ..) (recordsAtMostOne_frameAccept ..)
  | frst => exact .inl (reset ch)
  | fack =>
    obtain ⟨-, herror, -⟩ := frameRelease_frame ch
    exact .ite (.inl herror) (recordsAtMostOne_reject ..)
  | conn =>
    obtain ⟨-, -, herror, -⟩ := ksaRun_ksaInit_spec ch
    exact (RecordsAtMostOne.ite (.inl herror) (recordsAtMostOne_keylenFailure ch)).trans_sameError (reset _)
  | close =>
    obtain ⟨-, -, herror, -⟩ := cipherClear_frame ch
    exact .inl (herror.trans (reset _))

/-! ## Transactions -/

/-- A register stands at no offset but its own (10_state.md R40). -/
theorem eq_offset_of_target {p : Params} {o : Offset} {r : Reg} (h : target p o = .reg r) : o = r.offset := by
  have aligned : o.toNat % 4 = 0 := by
    by_contra hmis
    rw [target_misaligned p hmis] at h
    cases h
  have belowWindows : o.toNat < 0x400 := by
    by_contra hwindow
    by_cases habove : 0x800 ≤ o.toNat
    · exact (target_above_key habove).1 r h
    · obtain ⟨n, hn⟩ : ∃ n, o.toNat = 0x400 + 4 * n := ⟨(o.toNat - 0x400) / 4, by omega⟩
      have ho : o = BitVec.ofNat 20 (0x400 + 4 * n) := by rw [← hn, BitVec.ofNat_toNat, BitVec.setWidth_eq]
      rw [ho, target_key p (by omega)] at h
      cases h
  have inBlock : o.toNat ≤ 0x040 := by
    by_contra hhole
    rw [target_hole p aligned (by omega) belowWindows] at h
    cases h
  obtain ⟨r', rfl⟩ := exists_reg_of_offset aligned inBlock
  rw [target_reg] at h
  cases h
  rfl

theorem recordsAtMostOne_writeKeylen (o : Offset) (v : Word) (ch : Channel) : RecordsAtMostOne ch (writeKeylen o v ch) :=
  .ite (recordsAtMostOne_recordError ..) (.inl ⟨rfl, rfl, rfl, rfl, rfl, rfl⟩)

theorem recordsAtMostOne_writeKey (o : Offset) (n : Byte) (v : Word) (ch : Channel) :
    RecordsAtMostOne ch (writeKey o n v ch) :=
  .ite (recordsAtMostOne_recordError ..) (.inl ⟨rfl, rfl, rfl, rfl, rfl, rfl⟩)

/-- A Write records at most one error, unless it is a write of 1 to ERRCLR. -/
theorem writeEffect_error (p : Params) (o : Offset) (v : Word) (ch : Channel) :
    RecordsAtMostOne ch (writeEffect p o v ch) ∨ (o = 0x008 ∧ v.getLsbD 0 = true) := by
  have bad : RecordsAtMostOne ch (badAddress o ch) := recordsAtMostOne_recordError ..
  unfold writeEffect
  cases h : target p o with
  | key n => exact .inl (recordsAtMostOne_writeKey o n v ch)
  | misaligned | sbox | fbuf | unmapped => exact .inl bad
  | reg r =>
    cases r with
    | ctrl => exact .inl (.inl ⟨rfl, rfl, rfl, rfl, rfl, rfl⟩)
    | keylen => exact .inl (recordsAtMostOne_writeKeylen o v ch)
    | errclr =>
      by_cases hset : v.getLsbD 0 = true
      · exact .inr ⟨eq_offset_of_target h, hset⟩
      · left
        dsimp only [writeErrclr]
        rw [if_neg hset]
        exact .inl (.refl ch)
    | cmd =>
      left
      dsimp only
      cases decode v with
      | ok i => exact recordsAtMostOne_commandEffect ..
      | error _ => exact recordsAtMostOne_reject ..
    | _ => exact .inl bad

/-- In either channel a transaction records at most one error, unless it is a write of 1 to that channel's ERRCLR. -/
theorem step_transaction_error {s t : State} {e : HostEvent} {rest : List HostEvent} (hs : Waiting s e rest)
    (he : e.isTransaction = true) (h : step s = .next t) (c : Chan) :
    RecordsAtMostOne (s.chan c) (t.chan c) ∨ ∃ v, e = .write (busAddr c 0x008) v ∧ v.getLsbD 0 = true := by
  cases e with
  | reset | resetInRead | resetInWrite => cases he
  | read a =>
    left
    rw [step_read hs.params hs.pending] at h
    cases h
    rcases busRead_chan a { s with pending := rest } c with hsame | ⟨-, hbad, -⟩
    · rw [hsame, State.chan_withPending]
      exact .inl (.refl _)
    · rw [hbad, State.chan_withPending]
      exact recordsAtMostOne_recordError ..
  | write a v =>
    rw [← busAddr_chanOf_offsetOf a] at hs ⊢
    obtain ⟨u, hu, -, hother, -, -, -, -, heffect⟩ :=
      performsWrite_of (effect := fun x y => y = writeEffect s.params (offsetOf a) v x) hs rfl
    obtain rfl : u = t := Host.Outcome.next.inj (hu.symm.trans h)
    by_cases hc : c = chanOf a
    · subst hc
      rw [heffect]
      exact (writeEffect_error ..).imp id fun ⟨ho, hset⟩ => ⟨v, by rw [ho], hset⟩
    · rw [hother c hc]
      exact .inl (.inl (.refl _))

/-! ## The obligation -/

/-- Settles O47: RecordError by its two branches; a transaction that does not clear the error records at most one more, which
keeps the first. -/
theorem firstErrorIsKeptUntilErrclr : Obligations.FirstErrorIsKeptUntilErrclr := by
  unfold Obligations.FirstErrorIsKeptUntilErrclr
  refine ⟨fun code info pos type ch => ⟨recordError_sameButError .., recordError_recorded ..⟩,
    fun s t e rest c hs he hstep herr hkeep => ?_⟩
  rcases step_transaction_error hs he hstep c with hrec | ⟨v, hwrite, hset⟩
  · exact hrec.keepsFirstError herr
  · exact absurd hset (Bool.eq_false_iff.mp (hkeep v hwrite))

end Sys2Proof.Machine

/-! # Reset

What a hardware reset leaves in both channels and what every register then reads (70_reset_and_hazards.md R220). -/

namespace Sys2Proof.Machine

/-! ## A channel just reset -/

/-- The length of a legal static key fits KLEN's nine bits. -/
theorem klen_reset_toNat {p : Params} (hp : p.wf = true) (draw : Nat) (c : Chan) :
    (Channel.reset p draw c).klen.toNat = (p.keyInit c).length := by
  obtain ⟨-, -, -, -, -, hkey⟩ := bounds_of_wf hp
  have := hkey c
  rw [Channel.reset, BitVec.toNat_ofNat]
  omega

/-- The bytes of a legal static key stand at the start of KEY. -/
theorem tableGet_key_reset {p : Params} (hp : p.wf = true) (draw : Nat) (c : Chan) {n : Nat}
    (h : n < (p.keyInit c).length) :
    tableGet (Channel.reset p draw c).key (BitVec.ofNat 8 n) = (p.keyInit c)[n] := by
  obtain ⟨-, -, -, -, -, hkey⟩ := bounds_of_wf hp
  have index : n % 2 ^ 8 = n := Nat.mod_eq_of_lt (by have := hkey c; omega)
  simp only [tableGet, Channel.reset, Vector.getElem_ofFn, BitVec.toNat_ofNat, index, List.getElem?_eq_getElem h]

/-- A channel just reset holds the values of the reset column (10_state.md R20), for every legal configuration. -/
theorem isReset_channelReset {p : Params} (hp : p.wf = true) (draw : Nat) (c : Chan) :
    IsReset p c (Channel.reset p draw c) where
  cphase := rfl
  indices := ⟨rfl, rfl⟩
  count := rfl
  result := ⟨rfl, rfl⟩
  key _ h := tableGet_key_reset hp draw c h
  klen := klen_reset_toNat hp draw c
  decoder := ⟨rfl, rfl, rfl, rfl, rfl⟩
  ctrl := ⟨rfl, rfl⟩
  error := ⟨rfl, rfl, rfl, rfl, rfl, rfl⟩

/-! ## The obligation -/

/-- Settles O51: power-on and a reset step both leave `Channel.reset` in each channel; each aligned offset up to ERR_TYPE is a
register's, and reads 0 of such a channel unless it is KEYLEN. -/
theorem resetLeavesTheResetValues : Obligations.ResetLeavesTheResetValues := by
  unfold Obligations.ResetLeavesTheResetValues
  refine ⟨fun p hp c => ?_, fun s rest hs => ⟨_, step_pending hs.params hs.pending, fun c => ?_, ?_⟩,
    fun o haligned hle hkeylen => ?_, fun c => ⟨?_, ?_, ?_⟩⟩
  · rw [State.resetWith_chan]
    exact isReset_channelReset hp 0 c
  · rw [State.hardwareReset_chan]
    exact isReset_channelReset hs.params s.draws c
  · rw [State.hardwareReset_params]
  · obtain ⟨r, rfl⟩ := exists_reg_of_offset haligned (by omega)
    have plain : r ∉ [Reg.keylen, .param, .maxframe] := by
      cases r with
      | keylen => exact absurd rfl hkeylen
      | param | maxframe => exact absurd hle (by decide)
      | _ => decide
    exact readsZeroAfterReset_reg plain
  · exact readsAfterReset_reg (r := .keylen) fun p draw hp => readReg_keylen_reset hp draw c
  · exact readsAfterReset_reg (r := .param) fun p draw hp => paramWord_showsParams hp
  · exact readsAfterReset_reg (r := .maxframe) fun p draw hp => rfl

end Sys2Proof.Machine

/-! # Command lines

A word and its command give each other back, and the transactions of a command line execute its commands (30_encoding.md
sections 2, 4 and 5). -/

namespace Sys2Proof.Machine

/-! ## Words and commands -/

/-- Settles O1: the fields of the encoded word are the command's opcode and operand. -/
theorem decodeInvertsEncode : Obligations.DecodeInvertsEncode := by
  unfold Obligations.DecodeInvertsEncode
  exact decode_encode

/-- Settles O2: a legal word has RSV 0 and, where its row does not use D, D 0. -/
theorem legalWordIsTheEncoding : Obligations.LegalWordIsTheEncoding := by
  unfold Obligations.LegalWordIsTheEncoding
  exact fun _ _ => encode_of_decode

/-- Settles O5: the decoder evaluated on each of the fourteen words. -/
theorem writtenWordsDecode : Obligations.WrittenWordsDecode := by
  unfold Obligations.WrittenWordsDecode
  decide

/-! ## Lines -/

/-- The transaction that is a command executes it on the channel addressed (30_encoding.md R98, R99). -/
theorem perform_commandEvent (c : Chan) (i : Instr) (s : State) :
    perform (commandEvent c i) s = exec i { s with sel := c } := by
  have htarget : target s.params (Reg.offset .cmd) = .reg .cmd := target_reg ..
  rw [commandEvent, perform, busWrite, chanOf_busAddr, offsetOf_busAddr, htarget, writeTarget, writeReg, execWord,
    decode_encode]

/-- The transactions of a list of commands, on the channel last addressed. -/
theorem performAll_commandEvents (is : List Instr) (s : State) :
    performAll (is.map (commandEvent s.sel)) s = execAll is s := by
  induction is generalizing s with
  | nil => rfl
  | cons i is ih =>
    have next := ih (s.onCur (commandEffect s.params i))
    rw [State.onCur_sel] at next
    rw [List.map_cons, performAll, perform_commandEvent, exec_eq, execAll_cons]
    exact next

/-- The transactions of a nonempty list of commands select the channel themselves. -/
theorem performAll_line (c : Chan) {is : List Instr} (h : is ≠ []) (s : State) :
    performAll (is.map (commandEvent c)) s = execAll is { s with sel := c } := by
  obtain ⟨i, is, rfl⟩ := List.exists_cons_of_ne_nil h
  rw [← performAll_commandEvents, List.map_cons, performAll, performAll, perform_commandEvent,
    perform_commandEvent]

/-- The bytes of a multi-byte pseudo-command, as a line spells them. -/
theorem map_ofNat_toNat (f : Byte → Instr) (ds : List Byte) :
    (ds.map BitVec.toNat).map (fun d => f (BitVec.ofNat 8 d)) = ds.map f := by
  simp

/-- Settles O7: each line expands to its row's commands, and each command's transaction is its execution. -/
theorem commandLineExecutesItsCommands : Obligations.CommandLineExecutesItsCommands := by
  unfold Obligations.CommandLineExecutesItsCommands
  intro s c runs
  have line (m : AsmCommand) (is : List Instr) (hm : m.expand = is) (h : is ≠ []) : runs m is := by
    subst hm
    exact performAll_line c h s
  have one (m : AsmCommand) (i : Instr) (hm : m.expand = [i]) : runs m [i] := line m [i] hm (List.cons_ne_nil _ _)
  have byte (d : Byte) : BitVec.ofNat 8 d.toNat = d := by rw [BitVec.ofNat_toNat, BitVec.setWidth_eq]
  have bytes (m : AsmCommand) (f : Byte → Instr) (ds : List Byte)
      (hm : m.expand = (ds.map BitVec.toNat).map fun d => f (BitVec.ofNat 8 d)) (h : ds ≠ []) : runs m (ds.map f) :=
    line m _ (hm.trans (map_ofNat_toNat f ds)) (by simpa using h)
  refine ⟨fun m h => line m _ rfl h, one _ _ rfl, one _ _ rfl, one _ _ rfl, one _ _ rfl, fun d => ⟨?_, ?_, ?_⟩,
    one _ _ rfl, one _ _ rfl, one _ _ rfl, one _ _ rfl, fun d => ?_, one _ _ rfl,
    fun ds h => ⟨bytes _ _ ds rfl h, bytes _ _ ds rfl h, bytes _ _ ds rfl h⟩,
    line _ _ rfl (List.cons_ne_nil _ _), one _ _ rfl, one _ _ rfl⟩
  all_goals exact one _ _ (by rw [AsmCommand.expand, byte])

end Sys2Proof.Machine

/-! # What a command can change

Every command is an operation on the cipher followed by one on the frame decoder, either of which may be none, and each leaves
alone what the other works on (10_state.md section 1). -/

namespace Sys2Proof.Machine

/-! ## Which commands do what -/

/-- The commands that work on the cipher. -/
def actsOnCipher : Instr → Bool
  | .cinit | .kstep | .krun | .dec _ | .decf _ | .conn | .close => true
  | .nop | .feed _ | .frst | .fack => false

/-- The commands that work on the frame decoder. -/
def actsOnDecoder : Instr → Bool
  | .decf _ | .feed _ | .frst | .fack | .conn | .close => true
  | .nop | .cinit | .kstep | .krun | .dec _ => false

theorem actsOnDecoder_eq_false_iff (i : Instr) :
    actsOnDecoder i = false ↔ i = .nop ∨ i = .cinit ∨ i = .kstep ∨ i = .krun ∨ ∃ d, i = .dec d := by
  cases i <;> simp [actsOnDecoder]

/-- RESULT stays, but for DEC and DECF. -/
def KeepsResult (i : Instr) (a b : Channel) : Prop := SameResult a b ∨ ∃ d, i = .dec d ∨ i = .decf d

/-- COUNT stays, goes up by one in DEC and DECF, or is cleared by CINIT, CONN and CLOSE (10_state.md R26). -/
def MovesCount (i : Instr) (a b : Channel) : Prop :=
  b.count = a.count ∨ (b.count = a.count + 1 ∧ ∃ d, i = .dec d ∨ i = .decf d) ∨
    (b.count = 0 ∧ (i = .cinit ∨ i = .conn ∨ i = .close))

/-- FBUF stays, or FEED or DECF stores a byte at index FCNT (10_state.md R35). -/
def KeepsOrStores (i : Instr) (a b : Channel) : Prop :=
  b.fbuf = a.fbuf ∨ (∃ d, i = .feed d ∨ i = .decf d) ∧ ∃ x, b.fbuf = a.fbuf.write a.fcnt.toNat x

/-- FPOS stays, goes up by one in FEED and DECF, or is cleared by FRST, CONN and CLOSE (10_state.md R34). -/
def MovesFpos (i : Instr) (a b : Channel) : Prop :=
  b.fpos = a.fpos ∨ (b.fpos = a.fpos + 1 ∧ ∃ d, i = .feed d ∨ i = .decf d) ∨
    (b.fpos = 0 ∧ (i = .frst ∨ i = .conn ∨ i = .close))

/-- From `a` the command `i` led by its operation on the cipher to `b`, and by its operation on the frame decoder to `c`. -/
structure CommandParts (i : Instr) (a b c : Channel) : Prop where
  cipher : SameOutsideCipher a b
  decoder : SameOutsideDecoder b c
  noCipher : actsOnCipher i = false → b = a
  noDecoder : actsOnDecoder i = false → c = b
  result : KeepsResult i a b
  count : MovesCount i a b
  buffer : KeepsOrStores i b c
  fpos : MovesFpos i b c

section Parts

variable {i : Instr} {a b c : Channel}

/-- No operation on the decoder. -/
theorem CommandParts.of_cipher (hi : actsOnCipher i = true) (cipher : SameOutsideCipher a b) (result : KeepsResult i a b)
    (count : MovesCount i a b) : CommandParts i a b b where
  cipher := cipher
  decoder := .refl b
  noCipher h := absurd hi (Bool.eq_false_iff.mp h)
  noDecoder _ := rfl
  result := result
  count := count
  buffer := .inl rfl
  fpos := .inl rfl

/-- No operation on the cipher. -/
theorem CommandParts.of_decoder (hi : actsOnDecoder i = true) (decoder : SameOutsideDecoder a c)
    (buffer : KeepsOrStores i a c) (fpos : MovesFpos i a c) : CommandParts i a a c where
  cipher := .refl a
  decoder := decoder
  noCipher _ := rfl
  noDecoder h := absurd hi (Bool.eq_false_iff.mp h)
  result := .inl (.refl a)
  count := .inl rfl
  buffer := buffer
  fpos := fpos

/-- A rejection of a command that works on the cipher, as an operation on the cipher that keeps it. -/
theorem CommandParts.of_reject (hi : actsOnCipher i = true) (code : ErrCode) (info : Word) (a : Channel) :
    CommandParts i a (reject code info a) (reject code info a) :=
  have h := recordError_sameButError code info 0 0 a
  .of_cipher hi (reject_sameOutsideCipher ..) (.inl h.result) (.inl h.stream.count)

/-- The decoder's reset after an operation on the cipher, as CONN and CLOSE have it. -/
theorem CommandParts.of_frameReset (hi : i = .conn ∨ i = .close) (cipher : SameOutsideCipher a b)
    (result : SameResult a b) (count : b.count = 0) : CommandParts i a b (frameReset b) := by
  obtain ⟨decoder, -, buffer, hfpos, -⟩ := frameReset_frame b
  exact {
    cipher, decoder
    noCipher := by rcases hi with rfl | rfl <;> exact nofun
    noDecoder := by rcases hi with rfl | rfl <;> exact nofun
    result := .inl result
    buffer := .inl buffer
    count := .inr (.inr ⟨count, .inr hi⟩)
    fpos := .inr (.inr ⟨hfpos, .inr hi⟩) }

end Parts

/-- FrameAccept stores its byte at index FCNT, or drops it. -/
theorem frameAccept_fbuf_cases (p : Params) (x : Byte) (ch : Channel) :
    (frameAccept p x ch).fbuf = ch.fbuf ∨ ∃ y, (frameAccept p x ch).fbuf = ch.fbuf.write ch.fcnt.toNat y := by
  rw [frameAccept_fbuf]
  split
  · exact .inl rfl
  · exact .inr ⟨x, rfl⟩

/-- The two parts of every command. -/
theorem exists_commandParts (p : Params) (i : Instr) (ch : Channel) :
    ∃ b, CommandParts i ch b (commandEffect p i ch) := by
  cases i with
  | nop => exact ⟨ch, .refl ch, .refl ch, fun _ => rfl, fun _ => rfl, .inl (.refl ch), .inl rfl, .inl rfl, .inl rfl⟩
  | cinit =>
    dsimp only [commandEffect]
    split
    · obtain ⟨outside, result, -⟩ := ksaInit_frame ch
      exact ⟨_, .of_cipher rfl outside (.inl result) (.inr (.inr ⟨rfl, .inl rfl⟩))⟩
    · obtain ⟨outside, result, -, -, -, count, -, -⟩ := keylenFailure_spec ch
      exact ⟨_, .of_cipher rfl outside (.inl result) (.inr (.inr ⟨count, .inl rfl⟩))⟩
  | kstep =>
    dsimp only [commandEffect]
    split
    · obtain ⟨outside, result, -, count⟩ := ksaStep_frame ch
      exact ⟨_, .of_cipher rfl outside (.inl result) (.inl count)⟩
    · exact ⟨_, .of_reject rfl ..⟩
  | krun =>
    dsimp only [commandEffect]
    split
    · obtain ⟨outside, result, -, count⟩ := ksaLoop_frame 256 ch
      exact ⟨_, .of_cipher rfl outside (.inl result) (.inl count)⟩
    · exact ⟨_, .of_reject rfl ..⟩
  | dec d =>
    dsimp only [commandEffect]
    split
    · obtain ⟨outside, -, -⟩ := prgaStep_frame d ch
      exact ⟨_, .of_cipher rfl outside (.inr ⟨d, .inl rfl⟩) (.inr (.inl ⟨rfl, d, .inl rfl⟩))⟩
    · exact ⟨_, .of_reject rfl ..⟩
  | decf d =>
    dsimp only [commandEffect]
    split_ifs
    · exact ⟨_, .of_reject rfl ..⟩
    · exact ⟨_, .of_reject rfl ..⟩
    · obtain ⟨outside, -, -⟩ := prgaStep_frame d ch
      exact ⟨prgaStep d ch, outside, frameAccept_frame .., nofun, nofun, .inr ⟨d, .inr rfl⟩,
        .inr (.inl ⟨rfl, d, .inr rfl⟩), (frameAccept_fbuf_cases ..).imp id fun h => ⟨⟨d, .inr rfl⟩, h⟩,
        .inr (.inl ⟨frameAccept_fpos .., d, .inr rfl⟩)⟩
  | feed d =>
    dsimp only [commandEffect]
    split
    · have h := recordError_sameButError .frameHeld (encode (.feed d)) 0 0 ch
      exact ⟨ch, .of_decoder rfl (sameOutsideDecoder_of_error ..) (.inl h.buffer) (.inl h.decoder.fpos)⟩
    · exact ⟨ch, .of_decoder rfl (frameAccept_frame ..)
        ((frameAccept_fbuf_cases ..).imp id fun h => ⟨⟨d, .inl rfl⟩, h⟩) (.inr (.inl ⟨frameAccept_fpos .., d, .inl rfl⟩))⟩
  | frst =>
    obtain ⟨decoder, -, buffer, hfpos, -⟩ := frameReset_frame ch
    exact ⟨ch, .of_decoder rfl decoder (.inl buffer) (.inr (.inr ⟨hfpos, .inl rfl⟩))⟩
  | fack =>
    dsimp only [commandEffect]
    split
    · obtain ⟨decoder, -, buffer, hfpos, -⟩ := frameRelease_frame ch
      exact ⟨ch, .of_decoder rfl decoder (.inl buffer) (.inl hfpos)⟩
    · have h := recordError_sameButError .noFrame (encode .fack) 0 0 ch
      exact ⟨ch, .of_decoder rfl (sameOutsideDecoder_of_error ..) (.inl h.buffer) (.inl h.decoder.fpos)⟩
  | conn =>
    dsimp only [commandEffect]
    split
    · obtain ⟨outside, result, -, -, -, -, count⟩ := ksaRun_ksaInit_spec ch
      exact ⟨_, .of_frameReset (.inl rfl) outside result count⟩
    · obtain ⟨outside, result, -, -, -, count, -, -⟩ := keylenFailure_spec ch
      exact ⟨_, .of_frameReset (.inl rfl) outside result count⟩
  | close =>
    obtain ⟨outside, result, -, -⟩ := cipherClear_frame ch
    exact ⟨cipherClear ch, .of_frameReset (.inr rfl) outside result rfl⟩

theorem commandEffect_sameKey (p : Params) (i : Instr) (ch : Channel) : SameKey ch (commandEffect p i ch) := by
  obtain ⟨b, parts⟩ := exists_commandParts p i ch
  exact parts.cipher.key.trans parts.decoder.key

/-! ## The obligations -/

/-- Settles O28, each clause from the two parts of the command. -/
theorem commandsLeaveTheRestAlone : Obligations.CommandsLeaveTheRestAlone := by
  unfold Obligations.CommandsLeaveTheRestAlone
  intro i s t h
  have hcur := exec_cur h
  rw [hcur]
  obtain ⟨b, parts⟩ := exists_commandParts s.params i s.cur
  have noCipher (hi : actsOnCipher i = false) : SameOutsideDecoder s.cur (commandEffect s.params i s.cur) :=
    parts.noCipher hi ▸ parts.decoder
  have noDecoder (hi : actsOnDecoder i = false) : SameOutsideCipher s.cur (commandEffect s.params i s.cur) :=
    (parts.noDecoder hi).symm ▸ parts.cipher
  refine ⟨exec_sameBut h, parts.cipher.key.trans parts.decoder.key, parts.cipher.ctrl.trans parts.decoder.ctrl,
    fun hi => (noCipher ?_).stream, ?_, fun hdec hdecf => ?_,
    fun hi => (noDecoder ((actsOnDecoder_eq_false_iff i).mpr hi)).decoder, fun hdecf hfeed => ?_, fun wf => ?_, ?_⟩
  · rcases hi with rfl | ⟨d, rfl⟩ | rfl | rfl <;> rfl
  · rintro rfl
    rfl
  · rcases parts.result with same | ⟨d, rfl | rfl⟩
    · exact same.trans parts.decoder.result
    · exact absurd rfl (hdec d)
    · exact absurd rfl (hdecf d)
  · rcases parts.buffer with same | ⟨⟨d, rfl | rfl⟩, -⟩
    · exact .of_eq (same.trans parts.cipher.buffer)
    · exact absurd rfl (hfeed d)
    · exact absurd rfl (hdecf d)
  · have before := parts.cipher.buffer
    rcases parts.buffer with same | ⟨-, x, stored⟩
    · exact (SameBuffer.of_eq (same.trans before)).but _
    · intro n hn
      rw [stored, before, parts.cipher.decoder.fcnt, Memory.read_write_other wf x hn]
  · rintro (rfl | rfl | rfl)
    · exact .refl _
    · obtain ⟨-, error, -⟩ := frameReset_frame s.cur
      exact error
    · obtain ⟨-, -, error, -⟩ := cipherClear_frame s.cur
      obtain ⟨-, error', -⟩ := frameReset_frame (cipherClear s.cur)
      exact error.trans error'

/-- Settles O29: COUNT moves in the command's part on the cipher and FPOS in its part on the frame decoder. -/
theorem countersMoveByOneOrAreCleared : Obligations.CountersMoveByOneOrAreCleared := by
  unfold Obligations.CountersMoveByOneOrAreCleared
  intro i s t h
  rw [exec_cur h]
  obtain ⟨b, parts⟩ := exists_commandParts s.params i s.cur
  have succ {m n : Word} (h : m = n + 1) : m.toNat = (n.toNat + 1) % 2 ^ 32 := h ▸ BitVec.toNat_add ..
  rw [parts.decoder.stream.count, ← parts.cipher.decoder.fpos]
  exact ⟨parts.count.imp id (.imp (.imp succ id) id), parts.fpos.imp id (.imp (.imp succ id) id)⟩

/-- Settles O30: a command that does not release the held frame works on the cipher and the error state alone. -/
theorem heldFrameIsReleasedByFourCommands : Obligations.HeldFrameIsReleasedByFourCommands := by
  unfold Obligations.HeldFrameIsReleasedByFourCommands
  intro i s t h held
  rw [exec_cur h]
  by_cases hi : i ∈ releasingCommands
  · have released : i = .fack ∨ i = .frst ∨ i = .conn ∨ i = .close := by simpa [releasingCommands] using hi
    refine .inl ⟨released, ?_⟩
    rcases released with rfl | rfl | rfl | rfl
    · rw [commandEffect_fack_held s.params held]
      rfl
    all_goals rfl
  · have outside := commandEffect_sameOutsideCipher_of_held s.params held hi
    exact .inr ⟨outside.decoder, .of_eq outside.buffer⟩

end Sys2Proof.Machine

/-! # The invariant

Every step keeps 10_state.md R39 and the clauses that make it inductive. The clauses fall into four parts, each about fields of
its own: an operation on one part keeps the other three by its frame. -/

namespace Sys2Proof.Machine

/-! ## The four parts of a channel's invariant -/

/-- What each cipher phase promises of the stream and of KLEN. -/
def CipherInv (ch : Channel) : Prop :=
  match ch.cphase with
  | .unkeyed => ch.i = 0 ∧ ch.j = 0 ∧ ch.count = 0
  | .ksa => IsPermutation ch.sbox ∧ klenUsable ch.klen = true ∧ ch.count = 0
  | .ready => IsPermutation ch.sbox

/-- What each frame phase promises of FCNT, FLEN and FTYPE. -/
def DecoderInv (p : Params) (ch : Channel) : Prop :=
  match ch.fphase with
  | .hdr => ch.fcnt.toNat < p.hdrSize ∧ ch.flen.toNat < 256 ^ lenIndex p ch.fcnt.toNat ∧
      (ch.fcnt.toNat ≤ typeIndex p → ch.ftype = 0)
  | .body => p.hdrSize ≤ ch.fcnt.toNat ∧ ch.fcnt.toNat < ch.flen.toNat ∧ ch.flen.toNat ≤ p.maxFrame
  | .held => p.hdrSize ≤ ch.fcnt.toNat ∧ ch.fcnt.toNat = ch.flen.toNat ∧ ch.flen.toNat ≤ p.maxFrame
  | .discard => ch.fcnt = 0 ∧ ch.flen = 0 ∧ ch.ftype = 0

/-- The cells of a frame buffer: in canonical form, and none beyond MAX_FRAME. -/
def BufferInv (p : Params) (m : Memory) : Prop := m.wf = true ∧ ∀ x ∈ m, x.1 < p.maxFrame

/-- What holds of the error state. -/
def ErrorInv (ch : Channel) : Prop :=
  ((ch.errcode = .none ↔ ch.err = false) ∧ (ch.errOvf = true → ch.err = true)) ∧
    (ch.errcode ≠ .malformedLen → ch.errPos = 0 ∧ ch.errType = 0)

theorem Channel.inv_iff (p : Params) (ch : Channel) :
    ch.Inv p ↔ CipherInv ch ∧ DecoderInv p ch ∧ BufferInv p ch.fbuf ∧ ErrorInv ch := by
  constructor
  · intro h
    refine ⟨?_, ?_, ⟨h.bufferForm, h.bufferSize⟩, h.error, h.errorDetail⟩
    · unfold CipherInv
      cases hc : ch.cphase with
      | unkeyed => exact h.unkeyed hc
      | ksa => exact ⟨h.permutation (by rw [hc]; decide), h.schedule hc⟩
      | ready => exact h.permutation (by rw [hc]; decide)
    · unfold DecoderInv
      cases hf : ch.fphase with
      | hdr => exact ⟨h.header hf, h.lengthSoFar hf, h.typeSoFar hf⟩
      | body => exact h.body hf
      | held => exact h.held hf
      | discard => exact h.discard hf
  · rintro ⟨cipher, decoder, ⟨form, size⟩, error, detail⟩
    unfold CipherInv at cipher
    unfold DecoderInv at decoder
    constructor
    case permutation =>
      intro keyed
      cases hc : ch.cphase with
      | unkeyed => exact absurd hc keyed
      | ksa => simp only [hc] at cipher; exact cipher.1
      | ready => simpa only [hc] using cipher
    case unkeyed | schedule => intro hc; simp only [hc] at cipher; tauto
    case header | body | held | discard | lengthSoFar | typeSoFar => intro hf; simp only [hf] at decoder; tauto
    case error => exact error
    case errorDetail => exact detail
    case bufferForm => exact form
    case bufferSize => exact size

/-! ## What keeps each part -/

theorem CipherInv.of_same {a b : Channel} (h : CipherInv a) (stream : SameStream a b) (klen : b.klen = a.klen) :
    CipherInv b := by
  unfold CipherInv at h ⊢
  rwa [stream.cphase, stream.i, stream.j, stream.count, stream.sbox, klen]

theorem DecoderInv.of_same {p : Params} {a b : Channel} (h : DecoderInv p a) (same : SameDecoder a b) : DecoderInv p b := by
  unfold DecoderInv at h ⊢
  rwa [same.fphase, same.fcnt, same.flen, same.ftype]

theorem ErrorInv.of_same {a b : Channel} (h : ErrorInv a) (same : SameError a b) : ErrorInv b := by
  unfold ErrorInv at h ⊢
  rwa [same.errcode, same.err, same.errOvf, same.errPos, same.errType]

/-- Recording an error keeps the error state's clauses, where the error has a code and only MALFORMED_LEN has a position and a
type byte (60_exceptions.md R193). -/
theorem ErrorInv.of_recorded {a b : Channel} {code : ErrCode} {info pos : Word} {type : Byte} (h : ErrorInv a)
    (rec : Recorded code info pos type a b) (hcode : code ≠ .none) (hdetail : code ≠ .malformedLen → pos = 0 ∧ type = 0) :
    ErrorInv b := by
  obtain ⟨⟨hnone, -⟩, hpos⟩ := h
  obtain ⟨herr, hfirst, hlater⟩ := rec
  cases ha : a.err with
  | false =>
    obtain ⟨hc, -, hp, ht, -⟩ := hfirst ha
    refine ⟨⟨iff_of_false (hc ▸ hcode) (by rw [herr]; decide), fun _ => herr⟩, ?_⟩
    rwa [hc, hp, ht]
  | true =>
    obtain ⟨hc, -, hp, ht, -⟩ := hlater ha
    rw [ha] at hnone
    refine ⟨⟨iff_of_false (by rw [hc, hnone]; decide) (by rw [herr]; decide), fun _ => herr⟩, ?_⟩
    rwa [hc, hp, ht]

/-- An operation on the cipher keeps the invariant where it keeps the stream's clauses. -/
theorem Channel.Inv.of_cipher {p : Params} {a b : Channel} (inv : a.Inv p) (outside : SameOutsideCipher a b)
    (error : SameError a b) (cipher : CipherInv b) : b.Inv p := by
  obtain ⟨-, decoder, buffer, herror⟩ := (a.inv_iff p).mp inv
  exact (b.inv_iff p).mpr ⟨cipher, decoder.of_same outside.decoder, outside.buffer ▸ buffer, herror.of_same error⟩

/-- An operation on the frame decoder keeps the invariant where it keeps the clauses of its registers, buffer and errors. -/
theorem Channel.Inv.of_decoder {p : Params} {a b : Channel} (inv : a.Inv p) (outside : SameOutsideDecoder a b)
    (decoder : DecoderInv p b) (buffer : BufferInv p b.fbuf) (error : ErrorInv b) : b.Inv p := by
  obtain ⟨cipher, -, -, -⟩ := (a.inv_iff p).mp inv
  exact (b.inv_iff p).mpr ⟨cipher.of_same outside.stream outside.key.klen, decoder, buffer, error⟩

/-- Recording any error but MALFORMED_LEN, and nothing else. -/
theorem Channel.Inv.of_rejected {p : Params} {a b : Channel} (inv : a.Inv p) {code : ErrCode} {info : Word}
    (h : Rejected code info a b) (hcode : code ≠ .none) : b.Inv p := by
  obtain ⟨cipher, decoder, buffer, error⟩ := (a.inv_iff p).mp inv
  obtain ⟨same, rec⟩ := h
  exact (b.inv_iff p).mpr ⟨cipher.of_same same.stream same.key.klen, decoder.of_same same.decoder, same.buffer ▸ buffer,
    error.of_recorded rec hcode fun _ => ⟨rfl, rfl⟩⟩

theorem inv_reject {p : Params} {ch : Channel} (inv : ch.Inv p) {code : ErrCode} (hcode : code ≠ .none) (info : Word) :
    (reject code info ch).Inv p := inv.of_rejected (reject_rejected ..) hcode

/-! ## The cipher's operations -/

section Cipher

variable {p : Params} {ch : Channel} (inv : ch.Inv p)
include inv

theorem inv_ksaInit (usable : klenUsable ch.klen = true) : (ksaInit ch).Inv p := by
  obtain ⟨outside, -, error⟩ := ksaInit_frame ch
  refine inv.of_cipher outside error ?_
  unfold CipherInv ksaInit
  exact ⟨isPermutation_identity, usable, rfl⟩

theorem inv_cipherClear : (cipherClear ch).Inv p := by
  obtain ⟨outside, -, error, -⟩ := cipherClear_frame ch
  exact inv.of_cipher outside error ⟨rfl, rfl, rfl⟩

theorem inv_keylenFailure : (keylenFailure ch).Inv p :=
  inv_reject (inv_cipherClear inv) (code := .keylen) (by decide) _

theorem inv_ksaStep (ksa : ch.cphase = .ksa) : (ksaStep ch).Inv p := by
  obtain ⟨outside, -, error, hcount⟩ := ksaStep_frame ch
  obtain ⟨usable, count⟩ := inv.schedule ksa
  have permutation : IsPermutation (ksaStep ch).sbox := by
    rw [ksaStep_sbox]
    exact (inv.permutation (by rw [ksa]; decide)).swap ..
  refine inv.of_cipher outside error ?_
  unfold CipherInv
  by_cases hi : ch.i = 255
  · obtain ⟨-, -, hphase⟩ := ksaStep_last hi
    rw [hphase]
    exact permutation
  · obtain ⟨-, -, hphase⟩ := ksaStep_more hi
    rw [hphase, ksa, outside.key.klen, hcount]
    exact ⟨permutation, usable, count⟩

theorem inv_prgaStep (ready : ch.cphase = .ready) (d : Byte) : (prgaStep d ch).Inv p := by
  obtain ⟨outside, error, hphase⟩ := prgaStep_frame d ch
  refine inv.of_cipher outside error ?_
  unfold CipherInv
  rw [hphase, ready]
  exact (inv.permutation (by rw [ready]; decide)).swap ..

end Cipher

theorem inv_ksaLoop {p : Params} (n : Nat) {ch : Channel} (inv : ch.Inv p) : (ksaLoop n ch).Inv p := by
  induction n generalizing ch with
  | zero => exact inv
  | succ n ih =>
    rw [ksaLoop]
    split
    · next ksa => exact ih (inv_ksaStep inv ksa)
    · exact inv

/-! ## The frame decoder's operations -/

section Decoder

variable {p : Params} {ch : Channel} (inv : ch.Inv p)
include inv

/-- A decoder standing before a frame meets the clauses of phase HDR. -/
theorem inv_of_atFrameStart {b : Channel} (outside : SameOutsideDecoder ch b) (error : SameError ch b)
    (buffer : b.fbuf = ch.fbuf) (start : AtFrameStart b) : b.Inv p := by
  obtain ⟨-, -, hbuffer, herror⟩ := (ch.inv_iff p).mp inv
  refine inv.of_decoder outside ?_ (buffer ▸ hbuffer) (herror.of_same error)
  unfold DecoderInv
  rw [start.fphase, start.fcnt, start.flen]
  exact ⟨hdrSize_pos p, Nat.pow_pos (by decide), fun _ => start.ftype⟩

theorem inv_frameRelease : (frameRelease ch).Inv p := by
  obtain ⟨outside, error, buffer, -, start⟩ := frameRelease_frame ch
  exact inv_of_atFrameStart inv outside error buffer start

theorem inv_frameReset : (frameReset ch).Inv p := by
  obtain ⟨outside, error, buffer, -, start⟩ := frameReset_frame ch
  exact inv_of_atFrameStart inv outside error buffer start

/-- A byte is stored below MAX_FRAME. -/
theorem bufferInv_frameAccept (hp : p.wf = true) (free : ch.fphase ≠ .held) (b : Byte) :
    BufferInv p (frameAccept p b ch).fbuf := by
  obtain ⟨-, -, -, hhdr, -, -⟩ := bounds_of_wf hp
  rw [frameAccept_fbuf]
  split
  · exact ⟨inv.bufferForm, inv.bufferSize⟩
  · next notDiscard =>
    have below : ch.fcnt.toNat < p.maxFrame := by
      cases h : ch.fphase with
      | hdr => exact (inv.header h).trans_le hhdr
      | body => obtain ⟨-, hless, hmax⟩ := inv.body h; omega
      | held => exact absurd h free
      | discard => exact absurd h notDiscard
    refine ⟨Memory.wf_write inv.bufferForm .., fun x hx => ?_⟩
    rcases Memory.mem_write x hx with rfl | old
    · exact below
    · exact inv.bufferSize x old

/-- The length read so far stays below 256 to the number of length bytes taken (41_frame.md R141). -/
theorem lengthAfter_lt (hp : p.wf = true) (hdr : ch.fphase = .hdr) (b : Byte) :
    lengthAfter p b ch < 256 ^ lenIndex p (ch.fcnt.toNat + 1) := by
  have sofar := inv.lengthSoFar hdr
  unfold lengthAfter
  split
  · refine sofar.trans_le (Nat.pow_le_pow_right (by decide) ?_)
    unfold lenIndex
    split <;> omega
  · next notType =>
    obtain ⟨big, little, -⟩ := length_lt hp (inv.header hdr) notType b sofar
    cases p.lenOrder
    · exact big
    · exact little

/-- FrameAccept keeps the clauses of the decoder's registers and of the error state, in each phase that takes a byte. -/
theorem decoderInv_errorInv_frameAccept (hp : p.wf = true) (free : ch.fphase ≠ .held) (b : Byte) :
    DecoderInv p (frameAccept p b ch) ∧ ErrorInv (frameAccept p b ch) := by
  have accepts := accepts_frameAccept hp inv b
  obtain ⟨-, -, -, herror⟩ := (ch.inv_iff p).mp inv
  unfold DecoderInv
  cases h : ch.fphase with
  | held => exact absurd h free
  | discard =>
    obtain ⟨hphase, hfcnt, hflen, hftype, -, same⟩ := accepts.discard h
    rw [hphase, hfcnt, hflen, hftype]
    exact ⟨inv.discard h, herror.of_same same⟩
  | body =>
    obtain ⟨-, hfcnt, hflen, -, same, hphase⟩ := accepts.body h
    obtain ⟨hmin, hless, hmax⟩ := inv.body h
    refine ⟨?_, herror.of_same same⟩
    rw [hphase, hfcnt, hflen]
    by_cases last : ch.fcnt.toNat + 1 = ch.flen.toNat
    · rw [if_pos last]
      exact ⟨by omega, last, hmax⟩
    · rw [if_neg last]
      exact ⟨by omega, by omega, hmax⟩
  | hdr =>
    have fill := inv.header h
    rcases Nat.lt_or_ge (ch.fcnt.toNat + 1) p.hdrSize with more | full
    · obtain ⟨hphase, hfcnt, hflen, hftype, same⟩ := accepts.incomplete h more
      refine ⟨?_, herror.of_same same⟩
      rw [hphase, hfcnt, hflen, hftype]
      refine ⟨more, lengthAfter_lt inv hp h b, fun before => ?_⟩
      rw [typeAfter, if_neg (by omega)]
      exact inv.typeSoFar h (by omega)
    have last : ch.fcnt.toNat + 1 = p.hdrSize := by omega
    by_cases bad : lengthAfter p b ch < p.hdrSize ∨ p.maxFrame < lengthAfter p b ch
    · obtain ⟨hphase, hfcnt, hflen, hftype, rec⟩ := accepts.malformed h last bad
      rw [hphase]
      exact ⟨⟨hfcnt, hflen, hftype⟩, herror.of_recorded rec (by decide) (absurd rfl)⟩
    · obtain ⟨hmin, hmax⟩ : p.hdrSize ≤ lengthAfter p b ch ∧ lengthAfter p b ch ≤ p.maxFrame := by omega
      obtain ⟨hfcnt, hflen, -, same, hphase⟩ := accepts.complete h last hmin hmax
      refine ⟨?_, herror.of_same same⟩
      rw [hphase, hfcnt, hflen]
      by_cases empty : lengthAfter p b ch = p.hdrSize
      · rw [if_pos empty]
        exact ⟨le_rfl, empty.symm, hmax⟩
      · rw [if_neg empty]
        exact ⟨le_rfl, by omega, hmax⟩

theorem inv_frameAccept (hp : p.wf = true) (free : ch.fphase ≠ .held) (b : Byte) : (frameAccept p b ch).Inv p := by
  obtain ⟨decoder, error⟩ := decoderInv_errorInv_frameAccept inv hp free b
  exact inv.of_decoder (frameAccept_frame p b ch) decoder (bufferInv_frameAccept inv hp free b) error

end Decoder

/-! ## Commands -/

/-- Every command keeps the invariant of the addressed channel. -/
theorem inv_commandEffect {p : Params} (hp : p.wf = true) (i : Instr) {ch : Channel} (inv : ch.Inv p) :
    (commandEffect p i ch).Inv p := by
  have rejected {code : ErrCode} (hcode : code ≠ .none) (info : Word) := inv_reject inv hcode info
  cases i with
  | nop => exact inv
  | frst => exact inv_frameReset inv
  | close => exact inv_frameReset (inv_cipherClear inv)
  | cinit =>
    dsimp only [commandEffect]
    split
    · next usable => exact inv_ksaInit inv usable
    · exact inv_keylenFailure inv
  | kstep =>
    dsimp only [commandEffect]
    split
    · next ksa => exact inv_ksaStep inv ksa
    · exact rejected (by decide) _
  | krun =>
    dsimp only [commandEffect]
    split
    · exact inv_ksaLoop 256 inv
    · exact rejected (by decide) _
  | dec d =>
    dsimp only [commandEffect]
    split
    · next ready => exact inv_prgaStep inv ready d
    · exact rejected (by decide) _
  | decf d =>
    dsimp only [commandEffect]
    split_ifs with busy held
    · exact rejected (by decide) _
    · exact rejected (by decide) _
    · exact inv_frameAccept (inv_prgaStep inv (not_not.mp busy) d) hp held _
  | feed d =>
    dsimp only [commandEffect]
    split
    · exact rejected (by decide) _
    · next free => exact inv_frameAccept inv hp free d
  | fack =>
    dsimp only [commandEffect]
    split
    · exact inv_frameRelease inv
    · exact rejected (by decide) _
  | conn =>
    dsimp only [commandEffect]
    split
    · next usable => exact inv_frameReset (inv_ksaLoop 256 (inv_ksaInit inv usable))
    · exact inv_frameReset (inv_keylenFailure inv)

/-! ## Writes and reads -/

theorem inv_badAddress {p : Params} {ch : Channel} (inv : ch.Inv p) (o : Offset) : (badAddress o ch).Inv p :=
  inv_reject inv (code := .badAddr) (by decide) _

/-- Clearing the error state meets its clauses. -/
theorem inv_clearError {p : Params} {ch : Channel} (inv : ch.Inv p) : (clearError ch).Inv p := by
  obtain ⟨cipher, decoder, buffer, -⟩ := (ch.inv_iff p).mp inv
  obtain ⟨stream, -, key, same, -, -⟩ := clearError_sameButError ch
  exact ((clearError ch).inv_iff p).mpr ⟨cipher.of_same stream key.klen, decoder.of_same same, buffer,
    ⟨iff_of_true rfl rfl, nofun⟩, fun _ => ⟨rfl, rfl⟩⟩

/-- Out of phase KSA no clause speaks of KEY or KLEN. -/
theorem Channel.Inv.of_unlocked {p : Params} {a b : Channel} (inv : a.Inv p) (unlocked : a.cphase ≠ .ksa)
    (stream : SameStream a b) (same : SameDecoder a b) (buffer : b.fbuf = a.fbuf) (error : SameError a b) : b.Inv p := by
  obtain ⟨cipher, decoder, hbuffer, herror⟩ := (a.inv_iff p).mp inv
  refine (b.inv_iff p).mpr ⟨?_, decoder.of_same same, buffer ▸ hbuffer, herror.of_same error⟩
  unfold CipherInv at cipher ⊢
  rw [stream.cphase, stream.i, stream.j, stream.count, stream.sbox]
  cases h : a.cphase with
  | ksa => exact absurd h unlocked
  | unkeyed | ready => simpa only [h] using cipher

/-- A write to KEYLEN or KEY is refused in phase KSA and changes no other clause's fields out of it. -/
theorem inv_writeKeylen {p : Params} {ch : Channel} (inv : ch.Inv p) (o : Offset) (v : Word) :
    (writeKeylen o v ch).Inv p := by
  unfold writeKeylen
  split
  · exact inv_reject inv (by decide) _
  · next unlocked =>
    exact inv.of_unlocked unlocked ⟨rfl, rfl, rfl, rfl, rfl⟩ ⟨rfl, rfl, rfl, rfl, rfl⟩ rfl ⟨rfl, rfl, rfl, rfl, rfl, rfl⟩

theorem inv_writeKey {p : Params} {ch : Channel} (inv : ch.Inv p) (o : Offset) (n : Byte) (v : Word) :
    (writeKey o n v ch).Inv p := by
  unfold writeKey
  split
  · exact inv_reject inv (by decide) _
  · next unlocked =>
    exact inv.of_unlocked unlocked ⟨rfl, rfl, rfl, rfl, rfl⟩ ⟨rfl, rfl, rfl, rfl, rfl⟩ rfl ⟨rfl, rfl, rfl, rfl, rfl, rfl⟩

/-- Every Write keeps the invariant of the addressed channel. -/
theorem inv_writeEffect {p : Params} (hp : p.wf = true) {ch : Channel} (inv : ch.Inv p) (o : Offset) (v : Word) :
    (writeEffect p o v ch).Inv p := by
  unfold writeEffect
  cases target p o with
  | key n => exact inv_writeKey inv o n v
  | misaligned | sbox | fbuf | unmapped => exact inv_badAddress inv o
  | reg r =>
    cases r with
    | ctrl =>
      obtain ⟨cipher, decoder, buffer, error⟩ := (ch.inv_iff p).mp inv
      exact ((writeCtrl v ch).inv_iff p).mpr ⟨cipher, decoder, buffer, error⟩
    | errclr =>
      dsimp only [writeErrclr]
      split
      · exact inv_clearError inv
      · exact inv
    | keylen => exact inv_writeKeylen inv o v
    | cmd =>
      dsimp only
      cases decode v with
      | ok i => exact inv_commandEffect hp i inv
      | error _ => exact inv_reject inv (by decide) v
    | _ => exact inv_badAddress inv o

/-! ## Reset -/

theorem inv_channelReset (p : Params) (draw : Nat) (c : Chan) : (Channel.reset p draw c).Inv p :=
  ((Channel.reset p draw c).inv_iff p).mpr ⟨⟨rfl, rfl, rfl⟩,
    ⟨hdrSize_pos p, Nat.pow_pos (by decide), fun _ => rfl⟩, ⟨rfl, nofun⟩, ⟨iff_of_true rfl rfl, nofun⟩, fun _ => ⟨rfl, rfl⟩⟩

/-- Settles O53: every field the invariant and the interrupt output read is at its reset value. -/
theorem resetMeetsTheInvariant : Obligations.ResetMeetsTheInvariant := by
  unfold Obligations.ResetMeetsTheInvariant
  refine fun p hp => ⟨⟨hp, fun c => ?_⟩, fun c => ?_⟩
  · rw [State.resetWith_chan]
    exact inv_channelReset p 0 c
  · rw [State.resetWith_chan]
    rfl

end Sys2Proof.Machine

/-! # Host events

What each host event leaves in each channel: a transaction changes the addressed channel by `eventEffect` and no other
(20_memory.md R62, R77); a reset leaves both as after reset (70_reset_and_hazards.md R220, R221). -/

namespace Sys2Proof.Machine

/-! ## Transactions -/

/-- The effect of a Read at offset `o` on the channel it addresses. -/
def readEffect (p : Params) (o : Offset) (ch : Channel) : Channel :=
  match target p o with
  | .misaligned => badAddress o ch
  | .unmapped => badAddress o ch
  | _ => ch

/-- A Read records BAD_ADDR or has no effect (20_memory.md R65, R74). -/
theorem readEffect_eq (p : Params) (o : Offset) (ch : Channel) :
    readEffect p o ch = badAddress o ch ∨ readEffect p o ch = ch := by
  unfold readEffect
  split
  · exact .inl rfl
  · exact .inl rfl
  · exact .inr rfl

/-- The effect of a transaction on the channel it addresses. -/
def eventEffect (p : Params) (e : HostEvent) (ch : Channel) : Channel :=
  match e with
  | .read a => readEffect p (offsetOf a) ch
  | .write a v => writeEffect p (offsetOf a) v ch
  | _ => ch

theorem State.chan_onCur (s : State) (f : Channel → Channel) (c : Chan) :
    (s.onCur f).chan c = if s.sel = c then f (s.chan c) else s.chan c := by
  split
  · next h =>
    subst h
    exact s.chan_onCur_sel f
  · next h => exact s.chan_onCur_other f (Ne.symm h)

/-- A Read changes the addressed channel by its effect. -/
theorem busRead_chan_eq (a : Addr) (s : State) (c : Chan) :
    (busRead a s).chan c = if chanOf a = c then readEffect s.params (offsetOf a) (s.chan c) else s.chan c := by
  unfold busRead readTarget readEffect
  cases target s.params (offsetOf a) with
  | misaligned | unmapped =>
    dsimp only
    rw [State.reply_chan, State.chan_onCur, State.chan_withSel]
  | reg | key | sbox =>
    dsimp only
    rw [State.reply_chan, State.chan_withSel, ite_self]
  | fbuf n =>
    dsimp only
    rw [ite_self]
    split
    · rw [State.reply_chan, State.chan_withSel]
    · rw [State.replyStale_chan, State.chan_withSel]

/-- What a transaction does to the parameters and to each channel. -/
theorem perform_transaction {e : HostEvent} (he : e.isTransaction = true) (s : State) :
    ∃ t, perform e s = .next t ∧ t.params = s.params ∧
      ∀ c, t.chan c = if e.addresses c = true then eventEffect s.params e (s.chan c) else s.chan c := by
  cases e with
  | reset | resetInRead | resetInWrite => cases he
  | read a =>
    obtain ⟨hparams, -, -⟩ := busRead_frame a s
    refine ⟨_, rfl, hparams, fun c => ?_⟩
    simp only [HostEvent.addresses, decide_eq_true_eq]
    exact busRead_chan_eq a s c
  | write a v =>
    refine ⟨_, busWrite_eq a v s, State.onCur_params .., fun c => ?_⟩
    simp only [HostEvent.addresses, decide_eq_true_eq]
    rw [State.chan_onCur, State.chan_withSel]
    rfl

/-- An event that is no transaction is a reset: both channels take their reset values. -/
theorem perform_reset {e : HostEvent} (he : e.isTransaction = false) (s : State) :
    ∃ t, perform e s = .next t ∧ t.params = s.params ∧ ∀ c, t.chan c = Channel.reset s.params s.draws c := by
  cases e with
  | read | write => cases he
  | reset | resetInWrite =>
    exact ⟨s.hardwareReset, rfl, s.hardwareReset_params, s.hardwareReset_chan⟩
  | resetInRead a =>
    exact ⟨s.hardwareReset.replyAbandoned, rfl, (State.replyAbandoned_params _).trans s.hardwareReset_params,
      fun c => (State.replyAbandoned_chan ..).trans (s.hardwareReset_chan c)⟩

/-- A transaction changes a channel by its effect, or not at all. -/
theorem step_transaction_chan {s t : State} {e : HostEvent} {rest : List HostEvent} (hs : Waiting s e rest)
    (he : e.isTransaction = true) (h : step s = .next t) (c : Chan) :
    t.chan c = eventEffect s.params e (s.chan c) ∨ t.chan c = s.chan c := by
  obtain ⟨u, hu, -, hchan⟩ := perform_transaction he { s with pending := rest }
  rw [step_pending hs.params hs.pending, hu] at h
  cases h
  rw [hchan, State.chan_withPending]
  exact ite_eq_or_eq ..

/-- What a step does to the parameters and to each channel. -/
theorem step_chan {s t : State} (h : step s = .next t) :
    t.params = s.params ∧ ∀ c, t.chan c = s.chan c ∨ (∃ draw, t.chan c = Channel.reset s.params draw c) ∨
      ∃ e, t.chan c = eventEffect s.params e (s.chan c) := by
  rcases step_cases s with ⟨-, hr⟩ | ⟨-, -, hr⟩ | ⟨e, rest, -, -, hr⟩ <;> rw [hr] at h
  · cases h
  · cases h
    exact ⟨rfl, fun c => .inl rfl⟩
  · cases he : e.isTransaction with
    | true =>
      obtain ⟨u, hu, hparams, hchan⟩ := perform_transaction he { s with pending := rest }
      obtain rfl : u = t := Host.Outcome.next.inj (hu.symm.trans h)
      refine ⟨hparams, fun c => ?_⟩
      rw [hchan, State.chan_withPending]
      split
      · exact .inr (.inr ⟨e, rfl⟩)
      · exact .inl rfl
    | false =>
      obtain ⟨u, hu, hparams, hchan⟩ := perform_reset he { s with pending := rest }
      obtain rfl : u = t := Host.Outcome.next.inj (hu.symm.trans h)
      exact ⟨hparams, fun c => .inr (.inl ⟨s.draws, hchan c⟩)⟩

/-! ## Every step keeps the invariant -/

theorem inv_eventEffect {p : Params} (hp : p.wf = true) (e : HostEvent) {ch : Channel} (inv : ch.Inv p) :
    (eventEffect p e ch).Inv p := by
  cases e with
  | reset | resetInRead | resetInWrite => exact inv
  | write a v => exact inv_writeEffect hp inv _ v
  | read a =>
    dsimp only [eventEffect]
    rcases readEffect_eq p (offsetOf a) ch with h | h <;> rw [h]
    · exact inv_badAddress inv _
    · exact inv

/-- Settles O54, channel by channel: it stays, it is reset, or a transaction had its effect on it. -/
theorem everyStepKeepsTheInvariant : Obligations.EveryStepKeepsTheInvariant := by
  unfold Obligations.EveryStepKeepsTheInvariant
  intro s t inv h
  obtain ⟨hparams, hchan⟩ := step_chan h
  refine ⟨hparams ▸ inv.params, fun c => ?_⟩
  rw [hparams]
  rcases hchan c with hsame | ⟨draw, hreset⟩ | ⟨e, heffect⟩
  · exact hsame ▸ inv.channel c
  · exact hreset ▸ inv_channelReset s.params draw c
  · exact heffect ▸ inv_eventEffect inv.params e (inv.channel c)

/-! ## Errors and the key's lock -/

/-- A transaction records one error at most, or it clears the error state. -/
theorem eventEffect_error (p : Params) (e : HostEvent) (ch : Channel) :
    RecordsAtMostOne ch (eventEffect p e ch) ∨ eventEffect p e ch = clearError ch := by
  cases e with
  | reset | resetInRead | resetInWrite => exact .inl (.inl (.refl ch))
  | read a =>
    left
    dsimp only [eventEffect]
    rcases readEffect_eq p (offsetOf a) ch with h | h <;> rw [h]
    · exact recordsAtMostOne_recordError ..
    · exact .inl (.refl ch)
  | write a v =>
    refine (writeEffect_error p (offsetOf a) v ch).imp id fun ⟨ho, hset⟩ => ?_
    rw [eventEffect, ho, writeEffect_errclr]
    exact if_pos hset

/-- Settles O48: idle, a reset, a write of 1 to ERRCLR, or a transaction that records one error at most. -/
theorem atMostOneErrorPerTransaction : Obligations.AtMostOneErrorPerTransaction := by
  unfold Obligations.AtMostOneErrorPerTransaction
  intro s t c h herr hovf
  obtain ⟨-, hchan⟩ := step_chan h
  rcases hchan c with hsame | ⟨draw, hreset⟩ | ⟨e, heffect⟩
  · rw [hsame, hovf]
  · rw [hreset]
    rfl
  · rw [heffect]
    rcases eventEffect_error s.params e (s.chan c) with (same | ⟨_, _, _, _, -, hfirst, -⟩) | hcleared
    · rw [same.errOvf, hovf]
    · obtain ⟨-, -, -, -, hkeep⟩ := hfirst herr
      rw [hkeep, hovf]
    · rw [hcleared]
      rfl

/-- In phase KSA no Write changes KEY or KLEN (10_state.md R44, 20_memory.md R68). -/
theorem writeEffect_sameKey_of_ksa (p : Params) (o : Offset) (v : Word) {ch : Channel} (ksa : ch.cphase = .ksa) :
    SameKey ch (writeEffect p o v ch) := by
  have recorded (code : ErrCode) (info : Word) : SameKey ch (recordError code info 0 0 ch) :=
    (recordError_sameButError code info 0 0 ch).key
  unfold writeEffect
  cases target p o with
  | key n => exact (writeKey_locked ksa o n v).1.key
  | misaligned | sbox | fbuf | unmapped => exact recorded .badAddr _
  | reg r =>
    cases r with
    | ctrl => exact ⟨rfl, rfl⟩
    | errclr =>
      dsimp only [writeErrclr]
      split
      · exact (clearError_sameButError ch).key
      · exact .refl ch
    | keylen => exact (writeKeylen_locked ksa o v).1.key
    | cmd =>
      dsimp only
      cases decode v with
      | ok i => exact commandEffect_sameKey p i ch
      | error _ => exact recorded .illegalCmd v
    | _ => exact recorded .badAddr _

/-- Settles O49: a Write is refused, or does not concern the key; a Read records an error at most. -/
theorem keyIsLockedDuringTheSchedule : Obligations.KeyIsLockedDuringTheSchedule := by
  unfold Obligations.KeyIsLockedDuringTheSchedule
  intro s t e rest c hs he h ksa
  rcases step_transaction_chan hs he h c with heffect | hsame
  · rw [heffect]
    cases e with
    | reset | resetInRead | resetInWrite => cases he
    | write a v => exact writeEffect_sameKey_of_ksa s.params _ v ksa
    | read a =>
      dsimp only [eventEffect]
      rcases readEffect_eq s.params (offsetOf a) (s.chan c) with h | h <;> rw [h]
      · exact (recordError_sameButError ..).key
      · exact .refl _
  · rw [hsame]
    exact .refl _

/-! ## Independent channels -/

/-- A run of transactions leaves in a channel the effects, in order, of those addressed to it. -/
theorem performAll_chan (c : Chan) {es : List HostEvent} (h : ∀ e ∈ es, e.isTransaction = true) (s : State) :
    ∃ t, performAll es s = .next t ∧
      t.chan c = (es.filter (HostEvent.addresses c)).foldl (fun ch e => eventEffect s.params e ch) (s.chan c) := by
  induction es generalizing s with
  | nil => exact ⟨s, rfl, rfl⟩
  | cons e es ih =>
    obtain ⟨he, hes⟩ := List.forall_mem_cons.mp h
    obtain ⟨u, hu, hparams, hchan⟩ := perform_transaction he s
    obtain ⟨t, ht, heffects⟩ := ih hes u
    refine ⟨t, by simp only [performAll, hu, ht], ?_⟩
    rw [heffects, hparams, hchan]
    by_cases haddr : e.addresses c = true
    · rw [if_pos haddr, List.filter_cons_of_pos haddr, List.foldl_cons]
    · rw [if_neg haddr, List.filter_cons_of_neg haddr]

/-- Settles O45: bit 20 splits an address into channel and offset; the effects on a channel are a fold over its transactions. -/
theorem channelsAreIndependent : Obligations.ChannelsAreIndependent := by
  unfold Obligations.ChannelsAreIndependent
  refine ⟨fun a => ⟨?_, toNat_offsetOf a⟩, fun c s s' es es' hparams hchan hes hes' hfilter => ?_⟩
  · rw [chanOf_eq]
    exact ite_eq_left_iff.trans ⟨fun h => by_contra fun n => Chan.noConfusion (h n), fun h n => absurd h n⟩
  · obtain ⟨t, ht, heffects⟩ := performAll_chan c hes s
    obtain ⟨t', ht', heffects'⟩ := performAll_chan c hes' s'
    exact ⟨t, t', ht, ht', by rw [heffects, heffects', hparams, hchan, hfilter]⟩

/-! ## The SBOX window -/

theorem readsAs_sbox {s : State} {c : Chan} {rest : List HostEvent} {n : Nat} (h : n < 256) :
    ReadsAs s c rest (BitVec.ofNat 20 (0x800 + 4 * n)) (zextByte (tableGet (s.chan c).sbox (BitVec.ofNat 8 n))) := fun hs =>
  answersRead_of hs fun x _ hcur => by rw [target_sbox _ h, readTarget, hcur]

/-- Settles O43: the window's targets are bytes of S, which take no Write. -/
theorem sboxWindow : Obligations.SboxWindow := by
  unfold Obligations.SboxWindow
  intro s c rest n hn
  refine ⟨readsAs_sbox hn, refusesWrites_of_target ?_ ?_⟩
  · intro r
    rw [target_sbox _ hn]
    exact Target.noConfusion
  · intro m
    rw [target_sbox _ hn]
    exact Target.noConfusion

/-! ## Idle, refused and reset steps -/

/-- Settles O46: with nothing pending the step is idle. -/
theorem idleCoreHoldsItsState : Obligations.IdleCoreHoldsItsState := by
  unfold Obligations.IdleCoreHoldsItsState
  exact fun _ => step_idle

/-- Settles O50: an idle step and every event answer a next state; only the parameters can refuse. -/
theorem nothingStopsALegalCore : Obligations.NothingStopsALegalCore := by
  unfold Obligations.NothingStopsALegalCore
  refine fun s => ⟨fun hp => ?_, step_refused⟩
  cases h : s.pending with
  | nil => exact ⟨s, step_idle hp h⟩
  | cons e rest =>
    rw [step_pending hp h]
    exact perform_next ..

/-- A reset leaves the values of the reset column in both channels. -/
theorem hardwareReset_isReset {s : State} (hp : s.params.wf = true) (c : Chan) :
    IsReset s.params c (s.hardwareReset.chan c) := by
  rw [State.hardwareReset_chan]
  exact isReset_channelReset hp ..

/-- Settles O52: the abandoned transaction leaves the reset's state, and a Read the word drawn for it. -/
theorem resetAbandonsATransaction : Obligations.ResetAbandonsATransaction := by
  unfold Obligations.ResetAbandonsATransaction
  refine fun s rest a => ⟨fun hs => ?_, fun v hs => ?_⟩
  · have chan (c : Chan) : IsReset s.params c ((State.hardwareReset { s with pending := rest }).replyAbandoned.chan c) := by
      rw [State.replyAbandoned_chan]
      exact hardwareReset_isReset hs.params c
    exact ⟨_, _, step_pending hs.params hs.pending, chan,
      (State.replyAbandoned_params _).trans (State.hardwareReset_params _),
      (State.replyAbandoned_pending _).trans (State.hardwareReset_pending _),
      (State.replyAbandoned_replies _).trans (congrArg _ (State.hardwareReset_replies _))⟩
  · exact ⟨_, step_pending hs.params hs.pending, hardwareReset_isReset hs.params, State.hardwareReset_params _,
      State.hardwareReset_pending _, State.hardwareReset_replies _⟩

/-- Settles O55: a reset step takes its event and touches the channels and the draws alone. -/
theorem resetKeepsTheHostsSide : Obligations.ResetKeepsTheHostsSide := by
  unfold Obligations.ResetKeepsTheHostsSide
  exact ⟨rfl, fun s rest hs => ⟨_, step_pending hs.params hs.pending, State.hardwareReset_pending _,
    State.hardwareReset_replies _, State.hardwareReset_sel _⟩⟩

end Sys2Proof.Machine

/-! # The key schedule and the keystream

How long a schedule lasts, and that after it the stream depends on the scheduled key bytes and the number of data bytes alone
(40_cipher.md section 3). -/

namespace Sys2Proof.Machine

/-! ## The length of the schedule -/

/-- The schedule before its last iteration: phase KSA, and i counts the iterations. -/
theorem ksaStep_iterate_more {ch : Channel} (ksa : ch.cphase = .ksa) {k : Nat} (h : ch.i.toNat + k < 256) :
    (ksaStep^[k] ch).cphase = .ksa ∧ (ksaStep^[k] ch).i.toNat = ch.i.toNat + k := by
  induction k with
  | zero => exact ⟨ksa, rfl⟩
  | succ k ih =>
    obtain ⟨hphase, hi⟩ := ih (by omega)
    have notLast : (ksaStep^[k] ch).i ≠ 255 := fun e => by
      rw [e] at hi
      have : (255 : Byte).toNat = 255 := rfl
      omega
    obtain ⟨hnext, -, hphase'⟩ := ksaStep_more notLast
    rw [Function.iterate_succ_apply']
    exact ⟨hphase'.trans hphase, by rw [hnext, hi, Nat.add_assoc]⟩

/-- With a usable KLEN, CINIT and up to 256 KSTEPs are as many iterations of a fresh schedule. -/
theorem execAll_cinit_ksteps {s : State} (usable : 1 ≤ s.cur.klen.toNat ∧ s.cur.klen.toNat ≤ 256) {k : Nat} (hk : k ≤ 256) :
    ∃ t, execAll (.cinit :: List.replicate k .kstep) s = .next t ∧ t.cur = ksaStep^[k] (ksaInit s.cur) := by
  obtain ⟨-, -, -, -, ksa⟩ := ksaInit_stream s.cur
  refine ⟨_, (execAll_cons ..).trans (execAll_replicate ..), ?_⟩
  rw [State.cur_onCur, State.cur_onCur, commandEffect_cinit_usable _ usable, kstep_iterate _ ksa hk]

/-- Settles O11: k iterations of a fresh schedule for k below 256, and all of them for 256 or with a KRUN. -/
theorem scheduleTakes256Iterations : Obligations.ScheduleTakes256Iterations := by
  unfold Obligations.ScheduleTakes256Iterations
  intro s usable
  obtain ⟨-, hi, -, -, ksa⟩ := ksaInit_stream s.cur
  have hi0 : (ksaInit s.cur).i.toNat = 0 := congrArg BitVec.toNat hi
  have before (k : Nat) (hk : k < 256) := ksaStep_iterate_more ksa (k := k) (by rw [hi0]; omega)
  refine ⟨fun k hk => ?_, ?_⟩
  · obtain ⟨t, ht, hcur⟩ := execAll_cinit_ksteps usable hk.le
    obtain ⟨hphase, hcount⟩ := before k hk
    exact ⟨t, ht, hcur ▸ hphase, by rw [hcur, hcount, hi0, Nat.zero_add]⟩
  · obtain ⟨u, hu, hcur⟩ := execAll_cinit_ksteps usable le_rfl
    obtain ⟨-, -, -, hready, hi', hj', hcount⟩ := ksaRun_ksaInit_spec s.cur
    rw [(ksaRun_eq_iterate ksa).1, hi0, ← hcur] at hready hi' hj' hcount
    refine ⟨u, hu, hready, hi', hj', hcount, fun k hk => ?_⟩
    obtain ⟨t, ht, htcur⟩ := execAll_cinit_ksteps usable hk.le
    obtain ⟨hphase, hk'⟩ := before k hk
    rw [← htcur] at hphase hk'
    calc execAll (.cinit :: List.replicate k .kstep ++ [.krun]) s
      _ = execAll [.krun] t := execAll_append _ _ _ _ ht
      _ = exec .krun t := by rw [execAll_cons, execAll, exec_eq]
      _ = execAll (List.replicate (256 - k) .kstep) t := by rw [exec_krun_eq_ksteps hphase, hk', hi0, Nat.zero_add]
      _ = execAll (.cinit :: List.replicate k .kstep ++ List.replicate (256 - k) .kstep) s := (execAll_append _ _ _ _ ht).symm
      _ = execAll (.cinit :: List.replicate 256 .kstep) s := by
        rw [List.cons_append, List.replicate_append_replicate, Nat.add_sub_cancel' hk.le]
      _ = .next u := hu

/-! ## The stream after a schedule -/

/-- Two channels whose schedules read the same key bytes. -/
structure SameScheduledKey (a b : Channel) : Prop where
  usable : 1 ≤ a.klen.toNat ∧ a.klen.toNat ≤ 256
  klen : b.klen = a.klen
  bytes : ∀ n, n < a.klen.toNat → tableGet b.key (BitVec.ofNat 8 n) = tableGet a.key (BitVec.ofNat 8 n)

theorem SameScheduledKey.keyByte_eq {a b : Channel} (h : SameScheduledKey a b) (i : Byte) :
    keyByte b.key b.klen i = keyByte a.key a.klen i := by
  obtain ⟨⟨positive, -⟩, klen, bytes⟩ := h
  rw [keyByte, keyByte, klen]
  exact bytes _ (Nat.mod_lt _ positive)

theorem SameScheduledKey.trans_sameKey {a b c d : Channel} (h : SameScheduledKey a b) (k : SameKey a c) (l : SameKey b d) :
    SameScheduledKey c d := by
  obtain ⟨usable, klen, bytes⟩ := h
  exact ⟨by rwa [k.klen], by rw [k.klen, l.klen, klen], by rwa [k.klen, k.key, l.key]⟩

/-- An iteration of the schedule reads the stream and the key byte alone (40_cipher.md R112). -/
theorem sameStream_ksaStep {a b : Channel} (h : SameStream a b) (k : SameScheduledKey a b) :
    SameStream (ksaStep a) (ksaStep b) := by
  obtain ⟨hsbox, hi, hj, hphase, hcount⟩ := h
  have hksaJ : ksaJ b = ksaJ a := by rw [ksaJ, ksaJ, hi, hj, hsbox, k.keyByte_eq]
  obtain ⟨-, -, -, hcounta⟩ := ksaStep_frame a
  obtain ⟨-, -, -, hcountb⟩ := ksaStep_frame b
  have sbox : (ksaStep b).sbox = (ksaStep a).sbox := by rw [ksaStep_sbox, ksaStep_sbox, hsbox, hi, hksaJ]
  have count : (ksaStep b).count = (ksaStep a).count := hcountb.trans (hcount.trans hcounta.symm)
  by_cases last : a.i = 255
  · obtain ⟨ia, ja, pa⟩ := ksaStep_last last
    obtain ⟨ib, jb, pb⟩ := ksaStep_last (hi.trans last)
    exact ⟨sbox, ib.trans ia.symm, jb.trans ja.symm, pb.trans pa.symm, count⟩
  · obtain ⟨ia, ja, pa⟩ := ksaStep_more last
    obtain ⟨ib, jb, pb⟩ := ksaStep_more (ch := b) (by rwa [hi])
    exact ⟨sbox, BitVec.eq_of_toNat_eq (by rw [ib, ia, hi]), by rw [jb, ja, hksaJ], by rw [pb, pa, hphase], count⟩

theorem sameStream_ksaLoop (n : Nat) {a b : Channel} (h : SameStream a b) (k : SameScheduledKey a b) :
    SameStream (ksaLoop n a) (ksaLoop n b) := by
  induction n generalizing a b with
  | zero => exact h
  | succ n ih =>
    rw [ksaLoop, ksaLoop, h.cphase]
    split
    · obtain ⟨outside, -⟩ := ksaStep_frame a
      obtain ⟨outside', -⟩ := ksaStep_frame b
      exact ih (sameStream_ksaStep h k) (k.trans_sameKey outside.key outside'.key)
    · exact h

/-- The stream after CONN is decided by the scheduled key bytes (40_cipher.md section 3, "Which key is scheduled"). -/
theorem sameStream_schedule {a b : Channel} (k : SameScheduledKey a b) :
    SameStream (ksaRun (ksaInit a)) (ksaRun (ksaInit b)) := by
  obtain ⟨outside, -⟩ := ksaInit_frame a
  obtain ⟨outside', -⟩ := ksaInit_frame b
  exact sameStream_ksaLoop 256 ⟨rfl, rfl, rfl, rfl, rfl⟩ (k.trans_sameKey outside.key outside'.key)

theorem SameStream.trans {a b c : Channel} (h : SameStream a b) (k : SameStream b c) : SameStream a c :=
  ⟨k.sbox.trans h.sbox, k.i.trans h.i, k.j.trans h.j, k.cphase.trans h.cphase, k.count.trans h.count⟩

theorem SameStream.symm {a b : Channel} (h : SameStream a b) : SameStream b a :=
  ⟨h.sbox.symm, h.i.symm, h.j.symm, h.cphase.symm, h.count.symm⟩

/-- CONN with a usable key: phase READY at position 0, with the stream of its schedule. -/
theorem exec_conn_stream {s : State} (usable : 1 ≤ s.cur.klen.toNat ∧ s.cur.klen.toNat ≤ 256) {t : State}
    (h : exec .conn s = .next t) :
    SameStream (ksaRun (ksaInit s.cur)) t.cur ∧ t.cur.cphase = .ready ∧ t.cur.count = 0 := by
  obtain ⟨-, -, -, hready, -, -, hcount⟩ := ksaRun_ksaInit_spec s.cur
  obtain ⟨⟨stream, -, -, -⟩, -⟩ := frameReset_frame (ksaRun (ksaInit s.cur))
  rw [exec_cur h, commandEffect_conn_usable _ usable]
  exact ⟨stream, stream.cphase.trans hready, stream.count.trans hcount⟩

/-- After CONN, channels with the same scheduled key have the same stream. -/
theorem sameStream_conn {s s' t t' : State} (k : SameScheduledKey s.cur s'.cur) (h : exec .conn s = .next t)
    (h' : exec .conn s' = .next t') : SameStream t.cur t'.cur := by
  obtain ⟨stream, -⟩ := exec_conn_stream k.usable h
  obtain ⟨stream', -⟩ := exec_conn_stream (by rw [k.klen]; exact k.usable) h'
  exact stream.symm.trans ((sameStream_schedule k).trans stream')

/-! ## The keystream -/

/-- The generator reads the stream alone, not the data byte (40_cipher.md R113, R119). -/
theorem sameStream_prgaStep {a b : Channel} (h : SameStream a b) (d d' : Byte) :
    SameStream (prgaStep d a) (prgaStep d' b) ∧ (prgaStep d' b).resultKs = (prgaStep d a).resultKs := by
  obtain ⟨hsbox, hi, hj, hphase, hcount⟩ := h
  simp only [prgaStep]
  refine ⟨⟨?_, ?_, ?_, hphase, ?_⟩, ?_⟩ <;> simp only [hsbox, hi, hj, hcount]

theorem sameStream_prgaAll {l l' : List Byte} (hl : l'.length = l.length) {a b : Channel} (h : SameStream a b) :
    SameStream (prgaAll l a) (prgaAll l' b) ∧ (l ≠ [] → (prgaAll l' b).resultKs = (prgaAll l a).resultKs) := by
  induction l using List.reverseRecOn generalizing l' with
  | nil =>
    rw [List.length_nil, List.length_eq_zero_iff] at hl
    subst hl
    exact ⟨h, absurd rfl⟩
  | append_singleton l d ih =>
    obtain rfl | ⟨m, d', rfl⟩ := l'.eq_nil_or_concat'
    · simp at hl
    rw [prgaAll_concat, prgaAll_concat]
    obtain ⟨stream, -⟩ := ih (l' := m) (by simpa using hl)
    obtain ⟨stream', keystream⟩ := sameStream_prgaStep stream d d'
    exact ⟨stream', fun _ => keystream⟩

theorem prgaAll_count (l : List Byte) (ch : Channel) : (prgaAll l ch).count = ch.count + BitVec.ofNat 32 l.length := by
  induction l using List.reverseRecOn with
  | nil => exact (BitVec.add_zero _).symm
  | append_singleton l d ih =>
    rw [prgaAll_concat, prgaStep_count, ih, List.length_append, List.length_singleton, BitVec.ofNat_add, BitVec.add_assoc]
    rfl

theorem execAll_conn_dec {s t : State} (h : exec .conn s = .next t) (ready : t.cur.cphase = .ready) (ds : List Byte) :
    ∃ u, execAll (.conn :: ds.map .dec) s = .next u ∧ u.cur = prgaAll ds t.cur := by
  refine ⟨_, ?_, t.cur_onCur (prgaAll ds)⟩
  rw [execAll, h]
  exact execAll_dec ready ds

/-- Settles O13: the same stream after CONN, and the generator's steps keep it the same whatever the data. -/
theorem keystreamDependsOnKeyAndPosition : Obligations.KeystreamDependsOnKeyAndPosition := by
  unfold Obligations.KeystreamDependsOnKeyAndPosition
  intro s s' ds ds' usable klen bytes hlen
  obtain ⟨t, ht, -⟩ := exec_of_effect (i := .conn) (s := s) rfl
  obtain ⟨t', ht', -⟩ := exec_of_effect (i := .conn) (s := s') rfl
  obtain ⟨-, hready, hcount⟩ := exec_conn_stream usable ht
  have start := sameStream_conn ⟨usable, klen, bytes⟩ ht ht'
  obtain ⟨stream, keystream⟩ := sameStream_prgaAll hlen start
  obtain ⟨-, -, hphase⟩ := prgaAll_frame ds t.cur
  obtain ⟨u, hu, hcur⟩ := execAll_conn_dec ht hready ds
  obtain ⟨u', hu', hcur'⟩ := execAll_conn_dec ht' (start.cphase.trans hready) ds'
  refine ⟨u, u', hu, hu', ?_⟩
  rw [hcur, hcur']
  refine ⟨stream, hphase.trans hready, ?_, keystream⟩
  rw [prgaAll_count, hcount, zero_add, BitVec.toNat_ofNat]

/-! ## Encrypting and decrypting -/

/-- From the same stream, what one channel's DECs make of a byte string the other's make back into it. -/
theorem transformAll_transformAll {t t' : State} (stream : SameStream t.cur t'.cur) (ready : t.cur.cphase = .ready)
    (ps : List Byte) :
    ∃ cs u u', transformAll ps t = some (cs, u) ∧ transformAll cs t' = some (ps, u') ∧ cs.length = ps.length := by
  induction ps generalizing t t' with
  | nil => exact ⟨[], t, t', rfl, rfl, rfl⟩
  | cons p ps ih =>
    obtain ⟨u, hu, -, hcur⟩ := exec_of_effect (commandEffect_dec_ready t.params ready p)
    obtain ⟨u', hu', -, hcur'⟩ :=
      exec_of_effect (commandEffect_dec_ready t'.params (stream.cphase.trans ready) u.cur.resultPt)
    obtain ⟨stream', keystream⟩ := sameStream_prgaStep stream p u.cur.resultPt
    have decrypted : u'.cur.resultPt = p := by
      rw [hcur', prgaStep_resultPt, keystream, hcur, prgaStep_resultPt, BitVec.xor_assoc, BitVec.xor_self, BitVec.xor_zero]
    rw [← hcur, ← hcur'] at stream'
    obtain ⟨cs, v, v', hv, hv', hlen⟩ := ih stream' (hcur ▸ ready)
    refine ⟨u.cur.resultPt :: cs, v, v', ?_, ?_, congrArg (· + 1) hlen⟩
    · simp only [transformAll, hu, hv]
    · simp only [transformAll, hu', hv', decrypted]

/-- Settles O14: after CONN with the same key both channels have the same stream. -/
theorem encryptThenDecryptIsIdentity : Obligations.EncryptThenDecryptIsIdentity := by
  unfold Obligations.EncryptThenDecryptIsIdentity
  intro s s' t t' usable klen bytes ht ht'
  obtain ⟨-, hready, -⟩ := exec_conn_stream usable ht
  exact transformAll_transformAll (sameStream_conn ⟨usable, klen, bytes⟩ ht ht') hready

/-! ## CONN twice -/

theorem Channel.eq_of_same {a b : Channel} (same : SameButError a b) (error : SameError a b) : b = a := by
  obtain ⟨⟨_, _, _, _, _⟩, ⟨_, _⟩, ⟨_, _⟩, ⟨_, _, _, _, _⟩, _, ⟨_, _⟩⟩ := same
  obtain ⟨_, _, _, _, _, _⟩ := error
  cases a
  cases b
  simp_all

theorem AtFrameStart.sameDecoder {a b : Channel} (ha : AtFrameStart a) (hb : AtFrameStart b) (fpos : b.fpos = a.fpos) :
    SameDecoder a b :=
  ⟨hb.fphase.trans ha.fphase.symm, hb.fcnt.trans ha.fcnt.symm, hb.flen.trans ha.flen.symm, hb.ftype.trans ha.ftype.symm, fpos⟩

/-- An operation on the cipher and the decoder's reset, after an earlier reset of the decoder: but for the errors nothing
changes where the stream is what the earlier operation left. -/
theorem sameButError_frameReset {b b' c : Channel} (h : frameReset b = c) (outside : SameOutsideCipher c b')
    (result : SameResult c b') (stream : SameStream b b') : SameButError c (frameReset b') := by
  subst h
  obtain ⟨kept, -, -, fpos, start⟩ := frameReset_frame b
  obtain ⟨kept', -, buffer, fpos', start'⟩ := frameReset_frame b'
  exact ⟨kept.stream.symm.trans (stream.trans kept'.stream), result.trans kept'.result, outside.key.trans kept'.key,
    start.sameDecoder start' (fpos'.trans fpos.symm), buffer.trans outside.buffer, outside.ctrl.trans kept'.ctrl⟩

/-- With a usable KLEN the second CONN writes the values the first wrote. -/
theorem commandEffect_conn_conn (p : Params) {a c : Channel} (usable : 1 ≤ a.klen.toNat ∧ a.klen.toNat ≤ 256)
    (h : commandEffect p .conn a = c) : commandEffect p .conn c = c := by
  have key : SameKey a c := h ▸ commandEffect_sameKey p .conn a
  have stream := sameStream_schedule ⟨usable, key.klen, fun _ _ => by rw [key.key]⟩
  obtain ⟨outside, result, error, -⟩ := ksaRun_ksaInit_spec c
  obtain ⟨-, error', -⟩ := frameReset_frame (ksaRun (ksaInit c))
  rw [commandEffect_conn_usable p usable] at h
  rw [commandEffect_conn_usable p (by rwa [key.klen])]
  exact Channel.eq_of_same (sameButError_frameReset h outside result stream) (error.trans error')

/-- With an unusable KLEN the second CONN records a second error, and changes nothing else. -/
theorem commandEffect_conn_conn_unusable (p : Params) {a c : Channel} (unusable : a.klen.toNat < 1 ∨ 256 < a.klen.toNat)
    (h : commandEffect p .conn a = c) :
    SameButError c (commandEffect p .conn c) ∧ (commandEffect p .conn c).errOvf = true := by
  have key : SameKey a c := h ▸ commandEffect_sameKey p .conn a
  rw [commandEffect_conn_unusable p unusable] at h
  rw [commandEffect_conn_unusable p (by rwa [key.klen])]
  obtain ⟨-, -, -, hi, hj, hcount, hphase, hset, -⟩ := keylenFailure_spec a
  obtain ⟨outside, result, hsbox', hi', hj', hcount', hphase', -, -, hlater⟩ := keylenFailure_spec c
  obtain ⟨kept, error, -⟩ := frameReset_frame (keylenFailure a)
  obtain ⟨-, error', -⟩ := frameReset_frame (keylenFailure c)
  rw [h] at kept error
  have stream : SameStream (keylenFailure a) (keylenFailure c) :=
    ⟨hsbox'.trans kept.stream.sbox, hi'.trans hi.symm, hj'.trans hj.symm, hphase'.trans hphase.symm,
      hcount'.trans hcount.symm⟩
  obtain ⟨-, -, -, -, hovf⟩ := hlater (error.err.trans hset)
  exact ⟨sameButError_frameReset h outside result stream, error'.errOvf.trans hovf⟩

/-- Settles O26, by whether KLEN is usable. -/
theorem secondConnChangesNothing : Obligations.SecondConnChangesNothing := by
  unfold Obligations.SecondConnChangesNothing
  refine fun s t h => ⟨fun usable => exec_eq_self ?_, fun unusable => ?_⟩
  · have hcur := exec_cur h
    exact commandEffect_conn_conn t.params usable (hcur ▸ rfl)
  · obtain ⟨u, hu, hsame, hcur⟩ := exec_of_effect (i := .conn) (s := t) rfl
    obtain ⟨same, hovf⟩ := commandEffect_conn_conn_unusable t.params unusable (c := t.cur) (exec_cur h).symm
    rw [exec_next h, State.onCur_sel, ← exec_next h] at hsame
    rw [← hcur] at same hovf
    exact ⟨u, hu, hsame, same, hovf⟩

end Sys2Proof.Machine

/-! # Frames and streams of frames

When a frame becomes held, and how a stream of frames is split (41_frame.md section 4). -/

namespace Sys2Proof.Machine

/-! ## No partial frame -/

/-- The byte that makes a frame held is counted in FCNT. -/
theorem frameAccept_fcnt_of_held {p : Params} {ch : Channel} (hp : p.wf = true) (inv : ch.Inv p) (free : ch.fphase ≠ .held)
    {b : Byte} (held : (frameAccept p b ch).fphase = .held) :
    (frameAccept p b ch).fcnt.toNat = ch.fcnt.toNat + 1 := by
  have accepts := accepts_frameAccept hp inv b
  cases h : ch.fphase with
  | held => exact absurd h free
  | discard =>
    obtain ⟨hphase, -⟩ := accepts.discard h
    simp [hphase] at held
  | body =>
    obtain ⟨-, hfcnt, -⟩ := accepts.body h
    exact hfcnt
  | hdr =>
    have fill := inv.header h
    by_cases more : ch.fcnt.toNat + 1 < p.hdrSize
    · obtain ⟨-, hfcnt, -⟩ := accepts.incomplete h more
      exact hfcnt
    have last : ch.fcnt.toNat + 1 = p.hdrSize := by omega
    by_cases bad : lengthAfter p b ch < p.hdrSize ∨ p.maxFrame < lengthAfter p b ch
    · obtain ⟨hphase, -⟩ := accepts.malformed h last bad
      simp [hphase] at held
    · obtain ⟨hfcnt, -⟩ := accepts.complete h last (by omega) (by omega)
      exact hfcnt.trans last.symm

/-- The command that makes a frame held is FEED or DECF, and its byte is counted in FCNT. -/
theorem commandEffect_of_becomesHeld {p : Params} {ch : Channel} (hp : p.wf = true) (inv : ch.Inv p)
    (free : ch.fphase ≠ .held) {i : Instr} (held : (commandEffect p i ch).fphase = .held) :
    (∃ d, i = .feed d ∨ i = .decf d) ∧ (commandEffect p i ch).fcnt.toNat = ch.fcnt.toNat + 1 := by
  obtain ⟨b, parts⟩ := exists_commandParts p i ch
  have keeps (h : actsOnDecoder i = false) : False := by
    rw [parts.noDecoder h, parts.cipher.decoder.fphase] at held
    exact free held
  cases i with
  | nop | cinit | kstep | krun | dec => exact (keeps rfl).elim
  | frst | conn | close => cases held
  | fack =>
    dsimp only [commandEffect] at held
    rw [if_neg free, reject, recordError_fphase] at held
    exact absurd held free
  | feed d =>
    rw [commandEffect_feed p free] at held ⊢
    exact ⟨⟨d, .inl rfl⟩, frameAccept_fcnt_of_held hp inv free held⟩
  | decf d =>
    by_cases ready : ch.cphase = .ready
    · rw [commandEffect_decf_accepted p ready free] at held ⊢
      exact ⟨⟨d, .inr rfl⟩, frameAccept_fcnt_of_held (ch := prgaStep d ch) hp (inv_prgaStep inv ready d) free held⟩
    · dsimp only [commandEffect] at held
      rw [if_pos ready, reject, recordError_fphase] at held
      exact absurd held free

/-- Settles O18: the state after meets the invariant, whose clause for HELD bounds FCNT and FLEN. -/
theorem noPartialFrameIsHeld : Obligations.NoPartialFrameIsHeld := by
  unfold Obligations.NoPartialFrameIsHeld
  intro i s t inv h free held
  have hcur := exec_cur h
  have channel : s.cur.Inv s.params := inv.channel s.sel
  have after : t.cur.Inv s.params := hcur ▸ inv_commandEffect inv.params i channel
  obtain ⟨hmin, hfull, hmax⟩ := after.held held
  rw [hcur] at held
  obtain ⟨hi, hfcnt⟩ := commandEffect_of_becomesHeld inv.params channel free held
  exact ⟨hi, hcur ▸ hfcnt, hfull, hfull ▸ hmin, hmax⟩

/-! ## One frame of a stream -/

/-- The bytes after the header say nothing of the declared length. -/
theorem declaredLength_append {p : Params} {l : List Byte} (h : p.hdrSize ≤ l.length) (r : List Byte) :
    declaredLength p (l ++ r) = declaredLength p l := by
  induction r using List.reverseRecOn with
  | nil => rw [List.append_nil]
  | append_singleton r b ih =>
    rw [← List.append_assoc, declaredLength_concat_of_hdrSize_le (by rw [List.length_append]; omega), ih]

/-- A host that takes a byte which makes no frame held goes on to the next. -/
theorem collectFrames_cons_of_not_held {s : State} {b : Byte} {l : List Byte}
    (h : (commandEffect s.params (.feed b) s.cur).fphase ≠ .held) :
    collectFrames (b :: l) s = collectFrames l (s.onCur (commandEffect s.params (.feed b))) := by
  rw [collectFrames, exec_eq]
  dsimp only
  rw [State.cur_onCur, if_neg h]

/-- A host that gives a byte which makes a frame held reads it and releases it. -/
theorem collectFrames_cons_of_held {s : State} {b : Byte} {l : List Byte} {ch : Channel} {fs : List (List Byte)} {v : State}
    (hch : commandEffect s.params (.feed b) s.cur = ch) (held : ch.fphase = .held)
    (next : collectFrames l (s.onCur fun _ => frameRelease ch) = some (fs, v)) :
    collectFrames (b :: l) s = some (bufferBytes ch ch.flen.toNat :: fs, v) := by
  have release : (s.onCur (commandEffect s.params (.feed b))).onCur (commandEffect s.params .fack) =
      s.onCur fun _ => frameRelease ch := by
    rw [State.onCur_onCur]
    refine State.onCur_congr ?_
    rw [hch, commandEffect_fack_held _ held]
  rw [collectFrames, exec_eq]
  dsimp only
  rw [State.cur_onCur, hch, if_pos held, exec_eq, State.onCur_params, release]
  dsimp only
  rw [next]

/-- Before its last byte no frame of a stream is held. -/
theorem feedAll_not_held_before_end {p : Params} {a : Channel} (hp : p.wf = true) (start : AtFrameStart a) {l r : List Byte}
    (hf : WellFormedFrame p (l ++ r)) (hr : r ≠ []) : (feedAll p l a).fphase ≠ .held := by
  obtain ⟨-, hmax, hlen⟩ := hf
  rcases Nat.lt_or_ge l.length p.hdrSize with inside | after
  · obtain ⟨-, hphase⟩ := feedAll_beforeHeaderEnd hp start inside
    rw [hphase]
    decide
  · have shorter : l.length < (l ++ r).length := by
      rw [List.length_append]
      exact Nat.lt_add_of_pos_right (List.length_pos_iff.mpr hr)
    rw [declaredLength_append after] at hlen
    obtain ⟨-, hphase⟩ := feedAll_frame hp start after (by omega) (by omega)
    rw [hphase, if_neg (by omega)]
    decide

theorem feedAll_concat_eq (p : Params) (l : List Byte) (b : Byte) (ch : Channel) :
    feedAll p (l ++ [b]) ch = commandEffect p (.feed b) (feedAll p l ch) := List.foldl_append

/-- The whole of a well-formed frame taken: held, with its length and its bytes. -/
theorem feedAll_wellFormedFrame {p : Params} {a : Channel} (hp : p.wf = true) (start : AtFrameStart a) {f : List Byte}
    (hf : WellFormedFrame p f) : HasTaken p f a (feedAll p f a) ∧ (feedAll p f a).fphase = .held ∧
      (feedAll p f a).flen.toNat = f.length := by
  obtain ⟨hmin, hmax, hlen⟩ := hf
  obtain ⟨taken, hphase⟩ := feedAll_frame hp start hmin hlen.ge (hlen ▸ hmax)
  rw [if_pos hlen.symm] at hphase
  exact ⟨taken, hphase, taken.flen.trans hlen⟩

/-- A host that has given the bytes `l` of a frame and gives the rest `r` gets the frame, then what comes after it. -/
theorem collectFrames_frame {s : State} (hp : s.params.wf = true) (start : AtFrameStart s.cur) (wf : s.cur.fbuf.wf = true)
    {l r bs : List Byte} (hf : WellFormedFrame s.params (l ++ r)) (hr : r ≠ []) {fs : List (List Byte)} {v : State}
    (next : collectFrames bs (s.onCur fun ch => frameRelease (feedAll s.params (l ++ r) ch)) = some (fs, v)) :
    collectFrames (r ++ bs) (s.onCur (feedAll s.params l)) = some ((l ++ r) :: fs, v) := by
  induction r generalizing l with
  | nil => exact absurd rfl hr
  | cons b r ih =>
    have taken : commandEffect (s.onCur (feedAll s.params l)).params (.feed b) (s.onCur (feedAll s.params l)).cur =
        feedAll s.params (l ++ [b]) s.cur := by
      rw [State.cur_onCur, State.onCur_params, feedAll_concat_eq]
    by_cases last : r = []
    · subst last
      obtain ⟨whole, held, hflen⟩ := feedAll_wellFormedFrame hp start hf
      obtain ⟨-, bytes⟩ := whole.buffer wf
      rw [← bytes, ← hflen]
      refine collectFrames_cons_of_held taken held ?_
      rw [State.onCur_onCur]
      exact next
    · rw [List.append_cons] at hf next ⊢
      rw [List.cons_append, collectFrames_cons_of_not_held]
      · have step : (s.onCur (feedAll s.params l)).onCur (commandEffect s.params (.feed b)) =
            s.onCur (feedAll s.params (l ++ [b])) := by
          rw [State.onCur_onCur]
          exact State.onCur_congr (feedAll_concat_eq ..).symm
        rw [State.onCur_params, step]
        exact ih hf last next
      · rw [taken]
        exact feedAll_not_held_before_end hp start hf last

/-- Settles O19, frame by frame: after each the decoder stands before the next. -/
theorem streamOfFramesIsSplitExactly : Obligations.StreamOfFramesIsSplitExactly := by
  unfold Obligations.StreamOfFramesIsSplitExactly
  intro s fs hp start wf hfs
  induction fs generalizing s with
  | nil => exact ⟨s, rfl, start⟩
  | cons f fs ih =>
    obtain ⟨hf, hfs⟩ := List.forall_mem_cons.mp hfs
    have nonempty : f ≠ [] := by
      rintro rfl
      exact absurd hf.1 (Nat.not_le_of_gt (hdrSize_pos _))
    obtain ⟨taken, -, -⟩ := feedAll_wellFormedFrame hp start hf
    obtain ⟨wf', -⟩ := taken.buffer wf
    obtain ⟨-, -, hbuffer, -, start'⟩ := frameRelease_frame (feedAll s.params f s.cur)
    obtain ⟨t, ht, hstart⟩ := ih (s.onCur fun ch => frameRelease (feedAll s.params f ch)) (by rwa [State.onCur_params])
      (by rwa [State.cur_onCur]) (by rwa [State.cur_onCur, hbuffer]) (by rwa [State.onCur_params])
    have split := collectFrames_frame (l := []) hp start wf hf nonempty ht
    have before : s.onCur (feedAll s.params []) = s := s.onCur_id
    rw [before] at split
    exact ⟨t, split, hstart⟩

end Sys2Proof.Machine
